-- ==== Sys2Proof/Word.lean ====
section
/-! DEFINITION. The machine's basic bit-vector types: register and address width, bytes, field widths.

The spec calls 32 bits a "word" (rule R14); `Word` here is the full register width XLEN = 64 (rule R5). -/

namespace Sys2Proof

/-- A full register, `pc`, address or CSR: XLEN = 64 bits (rules R5, R20, R24, R29). -/
abbrev Word := BitVec 64

/-- One byte of memory (rules R14, R50). -/
abbrev Byte := BitVec 8

/-- One instruction: 32 bits (rule R80). -/
abbrev InstrWord := BitVec 32

/-- A register-number field `rd`, `rs1` or `rs2`: 5 bits (rules R20, R81). -/
abbrev RegIdx := BitVec 5

/-- A CSR number: 12 bits, all opaque (rule R29). -/
abbrev CsrIdx := BitVec 12

/-- The number in `mcause.cause`: the 63 bits of `mcause` that are not `irq` (rule R33). -/
abbrev Cause := BitVec 63

end Sys2Proof
end

