-- ==== Sys2Proof/Config.lean ====
section
/-! DEFINITION. The implementation parameters of rule R5 as plain data, and the one free value.

The spec leaves these parameters OPEN ("an argument the model takes", rule R5). The machine's step has one argument,
the state, so a `Config` stands in the state as the field `cfg`, which no step changes: a claim for every state is a
claim for every configuration the spec allows (rule R13, `parameter`). Assumption log 1. -/

namespace Sys2Proof

/-- `MISALIGN_POLICY`: what the memory bridge does with a misaligned load or store (rules R56 to R59). -/
inductive MisalignPolicy where
  /-- The alignment exception is raised (rule R57). -/
  | trap
  /-- The low address bits are ignored (rule R58). -/
  | mask
  /-- The access is performed at the address as it is (rule R59). -/
  | split
  deriving DecidableEq, Repr

/-- `ENC_POLICY`: what an undefined or unlisted encoding does (rules R91, R92). -/
inductive EncPolicy where
  | refuse
  | illegalInstructionTrap
  deriving DecidableEq, Repr

/-- `W_SEMANTICS`: how the `w` shifts compute (rules R167, R191). -/
inductive WSemantics where
  /-- The 64-bit operation, then the low 32 bits sign-extended. -/
  | sourceLiteral
  /-- The standard RV64I reading: the low 32 bits, a 5-bit count. -/
  | rv64iStandard
  deriving DecidableEq, Repr

/-- `W_UNNAMED`: whether the ten `w` forms without a standard name are executed (rules R173, R197). -/
inductive WUnnamed where
  | refuse
  | sourceLiteral
  deriving DecidableEq, Repr

/-- What a load with `rd = 0` does where the two readings of rule R139 differ. DESIGN CHOICE, assumption log 14. -/
inductive X0LoadPolicy where
  /-- The pseudocode read literally: no access, no check (rule R139, decision D24). -/
  | noAccess
  /-- The cautious reading of rule R139's last sentences: refuse if the address is misaligned or a device. -/
  | refuseWhereItMatters
  deriving DecidableEq, Repr

/-- `CSR_NUM`: the 12-bit number of each named CSR (rule R30). -/
structure CsrNums where
  mstatus : CsrIdx
  mie : CsrIdx
  mtvec : CsrIdx
  mscratch : CsrIdx
  mepc : CsrIdx
  mcause : CsrIdx
  mip : CsrIdx
  deriving DecidableEq, Repr

/-- `CSR_LAYOUT`: the bit position of each named one-bit field; `mcause.cause` is the other 63 bits of `mcause`, in
order (rules R31, R33). -/
structure CsrLayout where
  mieBit : Fin 64
  mpieBit : Fin 64
  irqBit : Fin 64
  deriving DecidableEq, Repr

/-- What a write to a supported CSR beyond the seven does (decision D26); assumption log 9. -/
inductive ExtraWrite where
  | dropped
  | performed
  | trap
  deriving DecidableEq, Repr

/-- A member of `SUPPORTED_CSRS` beyond the seven, served by the C port (rules R38, R39). -/
structure ExtraCsr where
  num : CsrIdx
  onWrite : ExtraWrite
  deriving DecidableEq, Repr

/-- The kinds of access `MEM_ADMIT` tells apart (rule R64). -/
inductive AccessKind where
  | read
  | write
  | fetch
  deriving DecidableEq, Repr

/-- The addresses `base`, ..., `base + size - 1`. -/
structure AddrRange where
  base : Nat
  size : Nat
  deriving DecidableEq, Repr

/-- Some accesses that `MEM_ADMIT` admits: those of these kinds and widths in bytes whose FIRST byte lies in `starts`, all
of them or only the naturally aligned ones (rule R64). Assumption log 6. -/
structure AdmitRule where
  starts : AddrRange
  kinds : List AccessKind
  widths : List Nat
  alignedOnly : Bool
  deriving DecidableEq, Repr

/-- The parameters of rule R5. -/
structure Config where
  /-- `MISALIGN_POLICY` -/
  misalign : MisalignPolicy
  /-- `ENC_POLICY` -/
  encPolicy : EncPolicy
  /-- `W_SEMANTICS` -/
  wSemantics : WSemantics
  /-- `W_UNNAMED` -/
  wUnnamed : WUnnamed
  /-- The reading of rule R139. -/
  x0Load : X0LoadPolicy
  /-- `CSR_NUM` -/
  csrNum : CsrNums
  /-- `CSR_LAYOUT` -/
  layout : CsrLayout
  /-- The bits of `mstatus` other than `mie` and `mpie` as a CSR read shows them: `some v` where the configuration
  fixes them, `none` where they are any value (rule R31). -/
  mstatusOther : Option Word
  /-- `SUPPORTED_CSRS` beyond the seven, all on the C port. -/
  extraCsrs : List ExtraCsr
  /-- `MTVEC_WRITABLE` -/
  mtvecWritable : Bool
  /-- `CAUSE_ILLEGAL` -/
  causeIllegal : Cause
  /-- `CAUSE_LOAD_MISALIGNED` -/
  causeLoadMisaligned : Cause
  /-- `CAUSE_STORE_MISALIGNED` -/
  causeStoreMisaligned : Cause
  /-- `MEM_ADMIT`, whether an access is admitted: one that any rule of the list covers is (rule R64). -/
  memAdmits : List AdmitRule
  /-- `MEM_ADMIT`, which addresses are device registers; every other address is ordinary memory (rule R63). -/
  devices : List AddrRange
  /-- `IRQ_SOURCES`, as a mask over `mip` and `mie`. -/
  irqSources : Word
  /-- `IRQ_PRIORITY`: sources taken first, in order; any other source from the highest bit number down. -/
  irqPriority : List (Fin 64)
  /-- `RESET_PC` -/
  resetPc : Word
  /-- `RESET_MTVEC` -/
  resetMtvec : Word
  /-- `RESET_MSTATUS_MIE` -/
  resetMstatusMie : Bool
  /-- `RESET_MSTATUS_MPIE` -/
  resetMstatusMpie : Bool
  /-- `RESET_MIE` -/
  resetMie : Word
  deriving DecidableEq, Repr

/-- The free value: the word the environment supplies at the `n`-th draw. It has no body, so nothing can be proved of
it. It stands for `any value` (rule R13): the unfixed bits of `mstatus` on a read (rule R31), what a device register
returns (rules R52, R63) and what a C-port CSR presents (rule R39), and for the unspecified order of the byte accesses of a
misaligned access (rule R62). Assumption log 2. -/
opaque Config.freeWord : Nat → Word

end Sys2Proof
end

