-- ==== Sys2Proof/Syntax.lean ====
section
/-! DEFINITION. The instructions: one constructor per row of spec/opcode_table.json (72 rows), each carrying the
fields its encoding table gives it (rules R82 to R88, R150, R215). Immediates are kept as the bits of the field;
a displacement of a branch or JAL is kept with its literal bit 0 (13 and 21 bits). -/

namespace Sys2Proof

/-- One instruction of the KCP53000. `W` at the end of a name is the `w` form (opcode bit 3, rule R167); the ten `w`
forms that have no standard name (rules R173, R197) are `sltW` ... `andW` and `sltiW` ... `andiW`. -/
inductive Instr where
  -- AUIPC, BRANCH, JAL, JALR (rules R110, R115 to R121, R125, R126)
  | auipc (rd : RegIdx) (imm : BitVec 20)
  | beq (rs1 rs2 : RegIdx) (disp : BitVec 13)
  | bne (rs1 rs2 : RegIdx) (disp : BitVec 13)
  | blt (rs1 rs2 : RegIdx) (disp : BitVec 13)
  | bge (rs1 rs2 : RegIdx) (disp : BitVec 13)
  | bltu (rs1 rs2 : RegIdx) (disp : BitVec 13)
  | bgeu (rs1 rs2 : RegIdx) (disp : BitVec 13)
  | jal (rd : RegIdx) (disp : BitVec 21)
  | jalr (rd rs1 : RegIdx) (imm : BitVec 12)
  -- LOAD (rules R130 to R139)
  | lb (rd rs1 : RegIdx) (imm : BitVec 12)
  | lh (rd rs1 : RegIdx) (imm : BitVec 12)
  | lw (rd rs1 : RegIdx) (imm : BitVec 12)
  | ld (rd rs1 : RegIdx) (imm : BitVec 12)
  | lbu (rd rs1 : RegIdx) (imm : BitVec 12)
  | lhu (rd rs1 : RegIdx) (imm : BitVec 12)
  | lwu (rd rs1 : RegIdx) (imm : BitVec 12)
  | ldu (rd rs1 : RegIdx) (imm : BitVec 12)
  -- LUI, MISC (rules R145, R150, R151)
  | lui (rd : RegIdx) (imm : BitVec 20)
  | fence (pppp ssss : BitVec 4)
  | fenceI
  -- OP (rules R156 to R166)
  | add (rd rs1 rs2 : RegIdx)
  | sll (rd rs1 rs2 : RegIdx)
  | slt (rd rs1 rs2 : RegIdx)
  | sltu (rd rs1 rs2 : RegIdx)
  | xor (rd rs1 rs2 : RegIdx)
  | srl (rd rs1 rs2 : RegIdx)
  | or (rd rs1 rs2 : RegIdx)
  | and (rd rs1 rs2 : RegIdx)
  | sub (rd rs1 rs2 : RegIdx)
  | sra (rd rs1 rs2 : RegIdx)
  -- OP with w = 1 (rules R167 to R173)
  | addw (rd rs1 rs2 : RegIdx)
  | sllw (rd rs1 rs2 : RegIdx)
  | sltW (rd rs1 rs2 : RegIdx)
  | sltuW (rd rs1 rs2 : RegIdx)
  | xorW (rd rs1 rs2 : RegIdx)
  | srlw (rd rs1 rs2 : RegIdx)
  | orW (rd rs1 rs2 : RegIdx)
  | andW (rd rs1 rs2 : RegIdx)
  | subw (rd rs1 rs2 : RegIdx)
  | sraw (rd rs1 rs2 : RegIdx)
  -- OP-IMM (rules R180 to R190)
  | addi (rd rs1 : RegIdx) (imm : BitVec 12)
  | slti (rd rs1 : RegIdx) (imm : BitVec 12)
  | sltiu (rd rs1 : RegIdx) (imm : BitVec 12)
  | xori (rd rs1 : RegIdx) (imm : BitVec 12)
  | ori (rd rs1 : RegIdx) (imm : BitVec 12)
  | andi (rd rs1 : RegIdx) (imm : BitVec 12)
  | slli (rd rs1 : RegIdx) (shamt : BitVec 6)
  | srli (rd rs1 : RegIdx) (shamt : BitVec 6)
  | srai (rd rs1 : RegIdx) (shamt : BitVec 6)
  -- OP-IMM with w = 1 (rules R191 to R197)
  | addiw (rd rs1 : RegIdx) (imm : BitVec 12)
  | slliw (rd rs1 : RegIdx) (shamt : BitVec 6)
  | srliw (rd rs1 : RegIdx) (shamt : BitVec 6)
  | sraiw (rd rs1 : RegIdx) (shamt : BitVec 6)
  | sltiW (rd rs1 : RegIdx) (imm : BitVec 12)
  | sltiuW (rd rs1 : RegIdx) (imm : BitVec 12)
  | xoriW (rd rs1 : RegIdx) (imm : BitVec 12)
  | oriW (rd rs1 : RegIdx) (imm : BitVec 12)
  | andiW (rd rs1 : RegIdx) (imm : BitVec 12)
  -- STORE (rules R205 to R209)
  | sb (rs1 rs2 : RegIdx) (imm : BitVec 12)
  | sh (rs1 rs2 : RegIdx) (imm : BitVec 12)
  | sw (rs1 rs2 : RegIdx) (imm : BitVec 12)
  | sd (rs1 rs2 : RegIdx) (imm : BitVec 12)
  -- SYSTEM (rules R215 to R225)
  | csrrw (rd rs1 : RegIdx) (csr : CsrIdx)
  | csrrs (rd rs1 : RegIdx) (csr : CsrIdx)
  | csrrc (rd rs1 : RegIdx) (csr : CsrIdx)
  | csrrwi (rd : RegIdx) (uimm : BitVec 5) (csr : CsrIdx)
  | csrrsi (rd : RegIdx) (uimm : BitVec 5) (csr : CsrIdx)
  | csrrci (rd : RegIdx) (uimm : BitVec 5) (csr : CsrIdx)
  | ebreak
  | ecall
  | mret
  | wfi
  deriving DecidableEq, Repr

end Sys2Proof
end

