-- ==== Sys2Proof/WellFormed.lean ====
section
/-! DEFINITION. Well-formedness of instructions and of configurations, as Bool checks. -/

namespace Sys2Proof

/-- A branch or JAL displacement has its literal bit 0 clear (rules R83, R84); every other field may hold any value. -/
def Instr.wf : Instr → Bool
  | .beq _ _ d | .bne _ _ d | .blt _ _ d | .bge _ _ d | .bltu _ _ d | .bgeu _ _ d => !d.getLsbD 0
  | .jal _ d => !d.getLsbD 0
  | .auipc .. | .lui .. | .jalr .. => true
  | .lb .. | .lh .. | .lw .. | .ld .. | .lbu .. | .lhu .. | .lwu .. | .ldu .. => true
  | .fence .. | .fenceI => true
  | .add .. | .sll .. | .slt .. | .sltu .. | .xor .. | .srl .. | .or .. | .and .. | .sub .. | .sra .. => true
  | .addw .. | .sllw .. | .sltW .. | .sltuW .. | .xorW .. | .srlw .. | .orW .. | .andW .. | .subw .. | .sraw .. => true
  | .addi .. | .slti .. | .sltiu .. | .xori .. | .ori .. | .andi .. | .slli .. | .srli .. | .srai .. => true
  | .addiw .. | .slliw .. | .srliw .. | .sraiw .. => true
  | .sltiW .. | .sltiuW .. | .xoriW .. | .oriW .. | .andiW .. => true
  | .sb .. | .sh .. | .sw .. | .sd .. => true
  | .csrrw .. | .csrrs .. | .csrrc .. | .csrrwi .. | .csrrsi .. | .csrrci .. => true
  | .ebreak | .ecall | .mret | .wfi => true

/-- The seven CSR numbers, in the order of rule R30. -/
def CsrNums.all (c : CsrNums) : List CsrIdx :=
  [c.mstatus, c.mie, c.mtvec, c.mscratch, c.mepc, c.mcause, c.mip]

/-- The seven named CSRs have seven different numbers (rule R30). -/
def Config.csrNumsDistinct (c : Config) : Bool := decide c.csrNum.all.Nodup

/-- `mstatus.mie` and `mstatus.mpie` are two different bits (rule R31). -/
def Config.mstatusBitsDistinct (c : Config) : Bool := c.layout.mieBit != c.layout.mpieBit

/-- No CSR of the C port has the number of one of the seven inside the core (rules R38, R39). -/
def Config.extraCsrsApart (c : Config) : Bool := c.extraCsrs.all fun e => !c.csrNum.all.contains e.num

/-- A configuration in which every name means one thing. -/
def Config.wf (c : Config) : Bool := c.csrNumsDistinct && c.mstatusBitsDistinct && c.extraCsrsApart

end Sys2Proof
end

