-- ==== Sys2Proof/Decode.lean ====
section
/-! DEFINITION. Decoding a 32-bit word (rule R90), total, rejecting by name (rules R91, R92); and after it the encoder,
written from the same encoding tables (rules R82 to R88, R150, R151, R226). -/

namespace Sys2Proof

/-- The end of rule R90's procedure: an instruction, `undefined` (rule R91) or `unlisted` (rule R92). -/
inductive Decoded where
  | instr (i : Instr)
  | undefined
  | unlisted
  deriving DecidableEq, Repr

/-- The value `v` as the field of a `w`-bit word whose lowest bit is bit `lo` (rules R6, R7). -/
def place (w : Nat) {n : Nat} (v : BitVec n) (lo : Nat) : BitVec w := v.setWidth w <<< lo

/-! ### Fields (rule R81) -/

/-- The major opcode, bits 6:0. -/
def opcodeOf (w : InstrWord) : BitVec 7 := w.extractLsb' 0 7
/-- `rd`, bits 11:7. -/
def rdOf (w : InstrWord) : RegIdx := w.extractLsb' 7 5
/-- `fn3`, bits 14:12. -/
def fn3Of (w : InstrWord) : BitVec 3 := w.extractLsb' 12 3
/-- `rs1`, bits 19:15. -/
def rs1Of (w : InstrWord) : RegIdx := w.extractLsb' 15 5
/-- `rs2`, bits 24:20. -/
def rs2Of (w : InstrWord) : RegIdx := w.extractLsb' 20 5
/-- Bits 31:25 of the OP format: bit 31, `fn4[3]` and bits 29:25 (rule R86). -/
def fn7Of (w : InstrWord) : BitVec 7 := w.extractLsb' 25 7
/-- Bits 31:26, the part of a shift immediate above the count (rule R187). -/
def fn6Of (w : InstrWord) : BitVec 6 := w.extractLsb' 26 6
/-- The shift count `imm[5:0]`, bits 25:20 (rule R187). -/
def shamtOf (w : InstrWord) : BitVec 6 := w.extractLsb' 20 6
/-- The I-format immediate, bits 31:20 (rule R85); also the CSR number and the function code of SYSTEM. -/
def immIOf (w : InstrWord) : BitVec 12 := w.extractLsb' 20 12
/-- The S-format displacement `[31:25, 11:7]` (rule R87). -/
def immSOf (w : InstrWord) : BitVec 12 := place 12 (w.extractLsb' 25 7) 5 ||| place 12 (w.extractLsb' 7 5) 0
/-- The U-format field, bits 31:12 (rule R82). -/
def immUOf (w : InstrWord) : BitVec 20 := w.extractLsb' 12 20
/-- The B-format displacement `[31, 7, 30:25, 11:8, 0]` (rule R83). -/
def dispBOf (w : InstrWord) : BitVec 13 :=
  place 13 (w.extractLsb' 31 1) 12 ||| place 13 (w.extractLsb' 7 1) 11 |||
    place 13 (w.extractLsb' 25 6) 5 ||| place 13 (w.extractLsb' 8 4) 1
/-- The J-format displacement `[31, 19:12, 20, 30:21, 0]` (rule R84). -/
def dispJOf (w : InstrWord) : BitVec 21 :=
  place 21 (w.extractLsb' 31 1) 20 ||| place 21 (w.extractLsb' 12 8) 12 |||
    place 21 (w.extractLsb' 20 1) 11 ||| place 21 (w.extractLsb' 21 10) 1

/-! ### The decoder (rule R90) -/

/-- BRANCH: `fn3` 010 and 011 are undefined (rule R91 (a)). -/
def decodeBranch (w : InstrWord) : Decoded :=
  match fn3Of w with
  | 0b000#3 => .instr (.beq (rs1Of w) (rs2Of w) (dispBOf w))
  | 0b001#3 => .instr (.bne (rs1Of w) (rs2Of w) (dispBOf w))
  | 0b100#3 => .instr (.blt (rs1Of w) (rs2Of w) (dispBOf w))
  | 0b101#3 => .instr (.bge (rs1Of w) (rs2Of w) (dispBOf w))
  | 0b110#3 => .instr (.bltu (rs1Of w) (rs2Of w) (dispBOf w))
  | 0b111#3 => .instr (.bgeu (rs1Of w) (rs2Of w) (dispBOf w))
  | _ => .undefined

/-- LOAD: all eight values of `fn3` are instructions (rule R130). -/
def decodeLoad (w : InstrWord) : Decoded :=
  match fn3Of w with
  | 0b000#3 => .instr (.lb (rdOf w) (rs1Of w) (immIOf w))
  | 0b001#3 => .instr (.lh (rdOf w) (rs1Of w) (immIOf w))
  | 0b010#3 => .instr (.lw (rdOf w) (rs1Of w) (immIOf w))
  | 0b011#3 => .instr (.ld (rdOf w) (rs1Of w) (immIOf w))
  | 0b100#3 => .instr (.lbu (rdOf w) (rs1Of w) (immIOf w))
  | 0b101#3 => .instr (.lhu (rdOf w) (rs1Of w) (immIOf w))
  | 0b110#3 => .instr (.lwu (rdOf w) (rs1Of w) (immIOf w))
  | _ => .instr (.ldu (rdOf w) (rs1Of w) (immIOf w))

/-- STORE: `fn3` 1xx is undefined (rule R91 (c)). -/
def decodeStore (w : InstrWord) : Decoded :=
  match fn3Of w with
  | 0b000#3 => .instr (.sb (rs1Of w) (rs2Of w) (immSOf w))
  | 0b001#3 => .instr (.sh (rs1Of w) (rs2Of w) (immSOf w))
  | 0b010#3 => .instr (.sw (rs1Of w) (rs2Of w) (immSOf w))
  | 0b011#3 => .instr (.sd (rs1Of w) (rs2Of w) (immSOf w))
  | _ => .undefined

/-- MISC: only the two fence patterns are listed (rules R150, R151, R92 (d)). -/
def decodeMisc (w : InstrWord) : Decoded :=
  if w.extractLsb' 28 4 = 0#4 ∧ rs1Of w = 0#5 ∧ rdOf w = 0#5 ∧ fn3Of w = 0b000#3 then
    .instr (.fence (w.extractLsb' 24 4) (w.extractLsb' 20 4))
  else if immIOf w = 0#12 ∧ rs1Of w = 0#5 ∧ rdOf w = 0#5 ∧ fn3Of w = 0b001#3 then .instr .fenceI
  else .unlisted

/-- OP with bit 30 clear: every `fn3` is an operation (rule R155). -/
def decodeOpLow (w : InstrWord) : Decoded :=
  match fn3Of w with
  | 0b000#3 => .instr (.add (rdOf w) (rs1Of w) (rs2Of w))
  | 0b001#3 => .instr (.sll (rdOf w) (rs1Of w) (rs2Of w))
  | 0b010#3 => .instr (.slt (rdOf w) (rs1Of w) (rs2Of w))
  | 0b011#3 => .instr (.sltu (rdOf w) (rs1Of w) (rs2Of w))
  | 0b100#3 => .instr (.xor (rdOf w) (rs1Of w) (rs2Of w))
  | 0b101#3 => .instr (.srl (rdOf w) (rs1Of w) (rs2Of w))
  | 0b110#3 => .instr (.or (rdOf w) (rs1Of w) (rs2Of w))
  | _ => .instr (.and (rdOf w) (rs1Of w) (rs2Of w))

/-- OP with bit 30 set: only `fn4` 1000 and 1101 are operations (rules R91 (b), R174). -/
def decodeOpHigh (w : InstrWord) : Decoded :=
  match fn3Of w with
  | 0b000#3 => .instr (.sub (rdOf w) (rs1Of w) (rs2Of w))
  | 0b101#3 => .instr (.sra (rdOf w) (rs1Of w) (rs2Of w))
  | _ => .undefined

/-- OP, `w` = 0: bit 31 and bits 29:25 must be zero (rule R92 (e)). -/
def decodeOp (w : InstrWord) : Decoded :=
  match fn7Of w with
  | 0b0000000#7 => decodeOpLow w
  | 0b0100000#7 => decodeOpHigh w
  | _ => .unlisted

/-- OP, `w` = 1, with bit 30 clear (rules R168 to R173). -/
def decodeOpWLow (w : InstrWord) : Decoded :=
  match fn3Of w with
  | 0b000#3 => .instr (.addw (rdOf w) (rs1Of w) (rs2Of w))
  | 0b001#3 => .instr (.sllw (rdOf w) (rs1Of w) (rs2Of w))
  | 0b010#3 => .instr (.sltW (rdOf w) (rs1Of w) (rs2Of w))
  | 0b011#3 => .instr (.sltuW (rdOf w) (rs1Of w) (rs2Of w))
  | 0b100#3 => .instr (.xorW (rdOf w) (rs1Of w) (rs2Of w))
  | 0b101#3 => .instr (.srlw (rdOf w) (rs1Of w) (rs2Of w))
  | 0b110#3 => .instr (.orW (rdOf w) (rs1Of w) (rs2Of w))
  | _ => .instr (.andW (rdOf w) (rs1Of w) (rs2Of w))

/-- OP, `w` = 1, with bit 30 set (rules R169, R172, R174). -/
def decodeOpWHigh (w : InstrWord) : Decoded :=
  match fn3Of w with
  | 0b000#3 => .instr (.subw (rdOf w) (rs1Of w) (rs2Of w))
  | 0b101#3 => .instr (.sraw (rdOf w) (rs1Of w) (rs2Of w))
  | _ => .undefined

/-- OP, `w` = 1 (rule R92 (e)). -/
def decodeOpW (w : InstrWord) : Decoded :=
  match fn7Of w with
  | 0b0000000#7 => decodeOpWLow w
  | 0b0100000#7 => decodeOpWHigh w
  | _ => .unlisted

/-- SLLI and its neighbours, `fn3` = 001: `fn4` 1001 is undefined, other non-zero high bits are unlisted
(rules R91 (d), R92 (f), R187, R196). `mk` is SLLI or SLLIW. -/
def decodeShiftLeft (w : InstrWord) (mk : RegIdx → RegIdx → BitVec 6 → Instr) : Decoded :=
  match fn6Of w with
  | 0b000000#6 => .instr (mk (rdOf w) (rs1Of w) (shamtOf w))
  | 0b010000#6 => .undefined
  | _ => .unlisted

/-- The right shifts, `fn3` = 101: `imm[10]` chooses logical or arithmetic (rules R92 (f), R187). -/
def decodeShiftRight (w : InstrWord) (logical arith : RegIdx → RegIdx → BitVec 6 → Instr) : Decoded :=
  match fn6Of w with
  | 0b000000#6 => .instr (logical (rdOf w) (rs1Of w) (shamtOf w))
  | 0b010000#6 => .instr (arith (rdOf w) (rs1Of w) (shamtOf w))
  | _ => .unlisted

/-- OP-IMM, `w` = 0: the non-shift instructions are selected by `fn3` alone (rule R180, conflict C1). -/
def decodeOpImm (w : InstrWord) : Decoded :=
  match fn3Of w with
  | 0b000#3 => .instr (.addi (rdOf w) (rs1Of w) (immIOf w))
  | 0b001#3 => decodeShiftLeft w .slli
  | 0b010#3 => .instr (.slti (rdOf w) (rs1Of w) (immIOf w))
  | 0b011#3 => .instr (.sltiu (rdOf w) (rs1Of w) (immIOf w))
  | 0b100#3 => .instr (.xori (rdOf w) (rs1Of w) (immIOf w))
  | 0b101#3 => decodeShiftRight w .srli .srai
  | 0b110#3 => .instr (.ori (rdOf w) (rs1Of w) (immIOf w))
  | _ => .instr (.andi (rdOf w) (rs1Of w) (immIOf w))

/-- OP-IMM, `w` = 1 (rules R191 to R197). -/
def decodeOpImmW (w : InstrWord) : Decoded :=
  match fn3Of w with
  | 0b000#3 => .instr (.addiw (rdOf w) (rs1Of w) (immIOf w))
  | 0b001#3 => decodeShiftLeft w .slliw
  | 0b010#3 => .instr (.sltiW (rdOf w) (rs1Of w) (immIOf w))
  | 0b011#3 => .instr (.sltiuW (rdOf w) (rs1Of w) (immIOf w))
  | 0b100#3 => .instr (.xoriW (rdOf w) (rs1Of w) (immIOf w))
  | 0b101#3 => decodeShiftRight w .srliw .sraiw
  | 0b110#3 => .instr (.oriW (rdOf w) (rs1Of w) (immIOf w))
  | _ => .instr (.andiW (rdOf w) (rs1Of w) (immIOf w))

/-- SYSTEM with `fn3` = 000: all 32 bits are matched (rule R226); the rest is unlisted (rules R92 (g), R227). -/
def decodeEnv (w : InstrWord) : Decoded :=
  match w with
  | 0x00000073#32 => .instr .ecall
  | 0x00100073#32 => .instr .ebreak
  | 0x30200073#32 => .instr .mret
  | 0x10500073#32 => .instr .wfi
  | _ => .unlisted

/-- SYSTEM (rules R215, R226, R227). -/
def decodeSystem (w : InstrWord) : Decoded :=
  match fn3Of w with
  | 0b000#3 => decodeEnv w
  | 0b001#3 => .instr (.csrrw (rdOf w) (rs1Of w) (immIOf w))
  | 0b010#3 => .instr (.csrrs (rdOf w) (rs1Of w) (immIOf w))
  | 0b011#3 => .instr (.csrrc (rdOf w) (rs1Of w) (immIOf w))
  | 0b101#3 => .instr (.csrrwi (rdOf w) (rs1Of w) (immIOf w))
  | 0b110#3 => .instr (.csrrsi (rdOf w) (rs1Of w) (immIOf w))
  | 0b111#3 => .instr (.csrrci (rdOf w) (rs1Of w) (immIOf w))
  | _ => .unlisted

/-- The decoding procedure of rule R90: the thirteen major opcodes of rule R89, everything else unlisted. -/
def decode (w : InstrWord) : Decoded :=
  match opcodeOf w with
  | 0b0010111#7 => .instr (.auipc (rdOf w) (immUOf w))
  | 0b0110111#7 => .instr (.lui (rdOf w) (immUOf w))
  | 0b1101111#7 => .instr (.jal (rdOf w) (dispJOf w))
  | 0b1100111#7 => if fn3Of w = 0b000#3 then .instr (.jalr (rdOf w) (rs1Of w) (immIOf w)) else .unlisted
  | 0b1100011#7 => decodeBranch w
  | 0b0000011#7 => decodeLoad w
  | 0b0100011#7 => decodeStore w
  | 0b0001111#7 => decodeMisc w
  | 0b0110011#7 => decodeOp w
  | 0b0111011#7 => decodeOpW w
  | 0b0010011#7 => decodeOpImm w
  | 0b0011011#7 => decodeOpImmW w
  | 0b1110011#7 => decodeSystem w
  | _ => .unlisted

/-! ### Bytes (rules R55, R80) -/

/-- The four bytes of an instruction word, least significant first (rule R55). -/
def wordBytes (w : InstrWord) : List Byte :=
  [w.extractLsb' 0 8, w.extractLsb' 8 8, w.extractLsb' 16 8, w.extractLsb' 24 8]

/-- The instruction word of four bytes, the first holding bits 7:0 (rule R55). -/
def bytesWord (b0 b1 b2 b3 : Byte) : InstrWord :=
  place 32 b3 24 ||| place 32 b2 16 ||| place 32 b1 8 ||| place 32 b0 0

/-- Decoding from bytes: every instruction takes four (rule R80); `none` where fewer are left. -/
def decodeBytes : List Byte → Option (Decoded × List Byte)
  | b0 :: b1 :: b2 :: b3 :: rest => some (decode (bytesWord b0 b1 b2 b3), rest)
  | _ => none

/-- The word whose low `nbits` bits are those of `w`, with zeros above them. -/
def tableWord (nbits w : Nat) : InstrWord := BitVec.ofNat 32 (w % 2 ^ nbits)

/-- The instruction the decoder reads from an opcode-table word laid out as the hardware stores it. -/
def decodeTableWord (nbits w : Nat) : Option Instr :=
  match decodeBytes (wordBytes (tableWord nbits w)) with
  | some (.instr i, _) => some i
  | _ => none

/-! ### The encoder -/

/-- Format R (rule R86). -/
def encR (fn7 : BitVec 7) (rs2 rs1 : RegIdx) (fn3 : BitVec 3) (rd : RegIdx) (op : BitVec 7) : InstrWord :=
  place 32 fn7 25 ||| place 32 rs2 20 ||| place 32 rs1 15 ||| place 32 fn3 12 ||| place 32 rd 7 ||| place 32 op 0

/-- Format I (rule R85). -/
def encI (imm : BitVec 12) (rs1 : RegIdx) (fn3 : BitVec 3) (rd : RegIdx) (op : BitVec 7) : InstrWord :=
  place 32 imm 20 ||| place 32 rs1 15 ||| place 32 fn3 12 ||| place 32 rd 7 ||| place 32 op 0

/-- Format I of an immediate shift: bits 31:26 and the 6-bit count (rule R187). -/
def encShift (fn6 : BitVec 6) (shamt : BitVec 6) (rs1 : RegIdx) (fn3 : BitVec 3) (rd : RegIdx) (op : BitVec 7) :
    InstrWord :=
  place 32 fn6 26 ||| place 32 shamt 20 ||| place 32 rs1 15 ||| place 32 fn3 12 ||| place 32 rd 7 ||| place 32 op 0

/-- Format S (rule R87). -/
def encS (imm : BitVec 12) (rs2 rs1 : RegIdx) (fn3 : BitVec 3) (op : BitVec 7) : InstrWord :=
  encR (imm.extractLsb' 5 7) rs2 rs1 fn3 (imm.extractLsb' 0 5) op

/-- Format B (rule R83). -/
def encB (disp : BitVec 13) (rs2 rs1 : RegIdx) (fn3 : BitVec 3) (op : BitVec 7) : InstrWord :=
  place 32 (disp.extractLsb' 12 1) 31 ||| place 32 (disp.extractLsb' 5 6) 25 ||| place 32 rs2 20 |||
    place 32 rs1 15 ||| place 32 fn3 12 ||| place 32 (disp.extractLsb' 1 4) 8 |||
    place 32 (disp.extractLsb' 11 1) 7 ||| place 32 op 0

/-- Format U (rule R82). -/
def encU (imm : BitVec 20) (rd : RegIdx) (op : BitVec 7) : InstrWord :=
  place 32 imm 12 ||| place 32 rd 7 ||| place 32 op 0

/-- Format J (rule R84). -/
def encJ (disp : BitVec 21) (rd : RegIdx) (op : BitVec 7) : InstrWord :=
  place 32 (disp.extractLsb' 20 1) 31 ||| place 32 (disp.extractLsb' 1 10) 21 |||
    place 32 (disp.extractLsb' 11 1) 20 ||| place 32 (disp.extractLsb' 12 8) 12 ||| place 32 rd 7 ||| place 32 op 0

/-- FENCE (rule R150). -/
def encFence (pppp ssss : BitVec 4) : InstrWord :=
  place 32 pppp 24 ||| place 32 ssss 20 ||| place 32 0b0001111#7 0

/-- The word of an instruction. -/
def encode : Instr → InstrWord
  | .auipc rd imm => encU imm rd 0b0010111#7
  | .beq rs1 rs2 d => encB d rs2 rs1 0b000#3 0b1100011#7
  | .bne rs1 rs2 d => encB d rs2 rs1 0b001#3 0b1100011#7
  | .blt rs1 rs2 d => encB d rs2 rs1 0b100#3 0b1100011#7
  | .bge rs1 rs2 d => encB d rs2 rs1 0b101#3 0b1100011#7
  | .bltu rs1 rs2 d => encB d rs2 rs1 0b110#3 0b1100011#7
  | .bgeu rs1 rs2 d => encB d rs2 rs1 0b111#3 0b1100011#7
  | .jal rd d => encJ d rd 0b1101111#7
  | .jalr rd rs1 imm => encI imm rs1 0b000#3 rd 0b1100111#7
  | .lb rd rs1 imm => encI imm rs1 0b000#3 rd 0b0000011#7
  | .lh rd rs1 imm => encI imm rs1 0b001#3 rd 0b0000011#7
  | .lw rd rs1 imm => encI imm rs1 0b010#3 rd 0b0000011#7
  | .ld rd rs1 imm => encI imm rs1 0b011#3 rd 0b0000011#7
  | .lbu rd rs1 imm => encI imm rs1 0b100#3 rd 0b0000011#7
  | .lhu rd rs1 imm => encI imm rs1 0b101#3 rd 0b0000011#7
  | .lwu rd rs1 imm => encI imm rs1 0b110#3 rd 0b0000011#7
  | .ldu rd rs1 imm => encI imm rs1 0b111#3 rd 0b0000011#7
  | .lui rd imm => encU imm rd 0b0110111#7
  | .fence p q => encFence p q
  | .fenceI => 0x0000100F#32
  | .add rd rs1 rs2 => encR 0b0000000#7 rs2 rs1 0b000#3 rd 0b0110011#7
  | .sll rd rs1 rs2 => encR 0b0000000#7 rs2 rs1 0b001#3 rd 0b0110011#7
  | .slt rd rs1 rs2 => encR 0b0000000#7 rs2 rs1 0b010#3 rd 0b0110011#7
  | .sltu rd rs1 rs2 => encR 0b0000000#7 rs2 rs1 0b011#3 rd 0b0110011#7
  | .xor rd rs1 rs2 => encR 0b0000000#7 rs2 rs1 0b100#3 rd 0b0110011#7
  | .srl rd rs1 rs2 => encR 0b0000000#7 rs2 rs1 0b101#3 rd 0b0110011#7
  | .or rd rs1 rs2 => encR 0b0000000#7 rs2 rs1 0b110#3 rd 0b0110011#7
  | .and rd rs1 rs2 => encR 0b0000000#7 rs2 rs1 0b111#3 rd 0b0110011#7
  | .sub rd rs1 rs2 => encR 0b0100000#7 rs2 rs1 0b000#3 rd 0b0110011#7
  | .sra rd rs1 rs2 => encR 0b0100000#7 rs2 rs1 0b101#3 rd 0b0110011#7
  | .addw rd rs1 rs2 => encR 0b0000000#7 rs2 rs1 0b000#3 rd 0b0111011#7
  | .sllw rd rs1 rs2 => encR 0b0000000#7 rs2 rs1 0b001#3 rd 0b0111011#7
  | .sltW rd rs1 rs2 => encR 0b0000000#7 rs2 rs1 0b010#3 rd 0b0111011#7
  | .sltuW rd rs1 rs2 => encR 0b0000000#7 rs2 rs1 0b011#3 rd 0b0111011#7
  | .xorW rd rs1 rs2 => encR 0b0000000#7 rs2 rs1 0b100#3 rd 0b0111011#7
  | .srlw rd rs1 rs2 => encR 0b0000000#7 rs2 rs1 0b101#3 rd 0b0111011#7
  | .orW rd rs1 rs2 => encR 0b0000000#7 rs2 rs1 0b110#3 rd 0b0111011#7
  | .andW rd rs1 rs2 => encR 0b0000000#7 rs2 rs1 0b111#3 rd 0b0111011#7
  | .subw rd rs1 rs2 => encR 0b0100000#7 rs2 rs1 0b000#3 rd 0b0111011#7
  | .sraw rd rs1 rs2 => encR 0b0100000#7 rs2 rs1 0b101#3 rd 0b0111011#7
  | .addi rd rs1 imm => encI imm rs1 0b000#3 rd 0b0010011#7
  | .slti rd rs1 imm => encI imm rs1 0b010#3 rd 0b0010011#7
  | .sltiu rd rs1 imm => encI imm rs1 0b011#3 rd 0b0010011#7
  | .xori rd rs1 imm => encI imm rs1 0b100#3 rd 0b0010011#7
  | .ori rd rs1 imm => encI imm rs1 0b110#3 rd 0b0010011#7
  | .andi rd rs1 imm => encI imm rs1 0b111#3 rd 0b0010011#7
  | .slli rd rs1 sh => encShift 0b000000#6 sh rs1 0b001#3 rd 0b0010011#7
  | .srli rd rs1 sh => encShift 0b000000#6 sh rs1 0b101#3 rd 0b0010011#7
  | .srai rd rs1 sh => encShift 0b010000#6 sh rs1 0b101#3 rd 0b0010011#7
  | .addiw rd rs1 imm => encI imm rs1 0b000#3 rd 0b0011011#7
  | .slliw rd rs1 sh => encShift 0b000000#6 sh rs1 0b001#3 rd 0b0011011#7
  | .srliw rd rs1 sh => encShift 0b000000#6 sh rs1 0b101#3 rd 0b0011011#7
  | .sraiw rd rs1 sh => encShift 0b010000#6 sh rs1 0b101#3 rd 0b0011011#7
  | .sltiW rd rs1 imm => encI imm rs1 0b010#3 rd 0b0011011#7
  | .sltiuW rd rs1 imm => encI imm rs1 0b011#3 rd 0b0011011#7
  | .xoriW rd rs1 imm => encI imm rs1 0b100#3 rd 0b0011011#7
  | .oriW rd rs1 imm => encI imm rs1 0b110#3 rd 0b0011011#7
  | .andiW rd rs1 imm => encI imm rs1 0b111#3 rd 0b0011011#7
  | .sb rs1 rs2 imm => encS imm rs2 rs1 0b000#3 0b0100011#7
  | .sh rs1 rs2 imm => encS imm rs2 rs1 0b001#3 0b0100011#7
  | .sw rs1 rs2 imm => encS imm rs2 rs1 0b010#3 0b0100011#7
  | .sd rs1 rs2 imm => encS imm rs2 rs1 0b011#3 0b0100011#7
  | .csrrw rd rs1 csr => encI csr rs1 0b001#3 rd 0b1110011#7
  | .csrrs rd rs1 csr => encI csr rs1 0b010#3 rd 0b1110011#7
  | .csrrc rd rs1 csr => encI csr rs1 0b011#3 rd 0b1110011#7
  | .csrrwi rd u csr => encI csr u 0b101#3 rd 0b1110011#7
  | .csrrsi rd u csr => encI csr u 0b110#3 rd 0b1110011#7
  | .csrrci rd u csr => encI csr u 0b111#3 rd 0b1110011#7
  | .ebreak => 0x00100073#32
  | .ecall => 0x00000073#32
  | .mret => 0x30200073#32
  | .wfi => 0x10500073#32

/-- The bytes of an instruction in memory order (rule R55). -/
def encodeBytes (i : Instr) : List Byte := wordBytes (encode i)

end Sys2Proof
end

