-- ==== Sys2Proof/Machine/Defaults.lean ====
section
/-! DEFINITION. The value State.reset gives each parameter of rule R5. The spec's default where it states one; otherwise
a value the assumption log names (entries 3 to 9). -/

namespace Sys2Proof.Machine

/-- The default `CSR_NUM` (rule R30). -/
def defaultCsrNums : CsrNums where
  mstatus := 0x300#12
  mie := 0x304#12
  mtvec := 0x305#12
  mscratch := 0x340#12
  mepc := 0x341#12
  mcause := 0x342#12
  mip := 0x344#12

/-- The default `CSR_LAYOUT` (rules R31, R33). -/
def defaultLayout : CsrLayout where
  mieBit := 3
  mpieBit := 7
  irqBit := 63

/-- The default `MEM_ADMIT`: every access is admitted, and no address is a device. DESIGN CHOICE, assumption log 6. -/
def defaultMemAdmits : List AdmitRule :=
  [{ starts := { base := 0, size := 2 ^ 64 }, kinds := [.read, .write, .fetch], widths := [1, 2, 4, 8], alignedOnly := false }]

/-- The default `IRQ_SOURCES`: bits 3, 7 and 11 (rule R249). -/
def defaultIrqSources : Word := 0x888#64

/-- The default `IRQ_PRIORITY`: 11 before 3 before 7 (rule R252). -/
def defaultIrqPriority : List (Fin 64) := [11, 3, 7]

/-- The configuration of `State.reset`. `misalign` (log 4), `memAdmits` and `devices` (log 6) and the reset
parameters (log 7) are DESIGN CHOICE or PRESUMED values of this model; the others are the spec's defaults. -/
def defaultConfig : Config where
  misalign := .trap
  encPolicy := .refuse
  wSemantics := .sourceLiteral
  wUnnamed := .refuse
  x0Load := .noAccess
  csrNum := defaultCsrNums
  layout := defaultLayout
  mstatusOther := none
  extraCsrs := []
  mtvecWritable := true
  causeIllegal := 2
  causeLoadMisaligned := 4
  causeStoreMisaligned := 6
  memAdmits := defaultMemAdmits
  devices := []
  irqSources := defaultIrqSources
  irqPriority := defaultIrqPriority
  resetPc := 0
  resetMtvec := 0
  resetMstatusMie := false
  resetMstatusMpie := false
  resetMie := 0

end Sys2Proof.Machine
end

