-- ==== Sys2Proof/Machine/State.lean ====
section
/-! DEFINITION. The machine's state as plain data, its reset, and the reasons a step can stop. -/

namespace Sys2Proof.Machine

/-- Memory: (address, byte) pairs, addresses strictly rising, no entry equal to what an unlisted address reads as
(rules R50, R52). -/
abbrev Memory := List Host.Cell

/-- What an unlisted address reads as. DESIGN CHOICE: 0 (rule R43 leaves memory's contents to the platform);
assumption log 10. -/
def Memory.unlisted : Byte := 0#8

/-- From address `lo` on, the canonical form holds: addresses rise strictly, stay below 2^64, and no entry is one an
unlisted address would read as. -/
def Memory.wfFrom : Nat → Memory → Bool
  | _, [] => true
  | lo, (k, b) :: rest =>
    decide (lo ≤ k) && decide (k < 2 ^ 64) && decide (b ≠ Memory.unlisted) && Memory.wfFrom (k + 1) rest

/-- The canonical form of memory. -/
def Memory.wf (m : Memory) : Bool := Memory.wfFrom 0 m

/-- An effect handed to the environment: an access to a memory-mapped device or to a CSR of the C port
(rules R39, R52, R63, R66 (c), R71). -/
inductive DeviceEvent where
  | memRead (addr : Word) (bytes : Nat)
  | memWrite (addr : Word) (bytes : Nat) (value : Word)
  | csrReadAction (num : CsrIdx)
  | csrWrite (num : CsrIdx) (value : Word)
  deriving DecidableEq, Repr

/-- The whole state of one core (the list of 10_state.md), with four fields of the model's own: `cfg` (log 1),
`mipInputs` (log 11), `deviceLog` (log 12) and `draws` (log 2). There are no flags (rule R28), no other register file
(rule R40), no reservation (rule R68) and no mode register (rule R258). -/
structure State where
  /-- The parameters of rule R5; no step changes them. -/
  cfg : Config
  /-- `X1` to `X31`: `xs[i]` is `X(i+1)`. `X0` has no storage (rules R20, R21). -/
  xs : Vector Word 31
  /-- The address of the next instruction to be fetched (rule R24). -/
  pc : Word
  /-- The address of the instruction being executed (rule R24); kept between instructions, assumption log 18. -/
  ia : Word
  /-- `mstatus.mie`, the global interrupt enable (rule R31). -/
  mstatusMie : Bool
  /-- `mstatus.mpie`, its saved previous value (rule R31). -/
  mstatusMpie : Bool
  /-- `mepc` (rule R32). -/
  mepc : Word
  /-- `mcause.cause` (rule R33). -/
  mcauseCause : Cause
  /-- `mcause.irq` (rule R33). -/
  mcauseIrq : Bool
  /-- `mtvec` (rule R34). -/
  mtvec : Word
  /-- `mip`: the environment's value at this instruction boundary (rule R35). -/
  mip : Word
  /-- `mie`, the per-source interrupt enables (rule R36). -/
  mie : Word
  /-- `mscratch` (rule R37). -/
  mscratch : Word
  /-- Memory (rules R41, R50, R52). -/
  mem : Memory
  /-- MODEL's own: the values the environment will give `mip` at the coming boundaries; when the list is empty `mip`
  stays as it is (rules R35, R250). -/
  mipInputs : List Word
  /-- MODEL's own: what has been handed to devices, oldest first. -/
  deviceLog : List DeviceEvent
  /-- MODEL's own: how many free values have been drawn. -/
  draws : Nat
  deriving DecidableEq, Repr

/-- Why the core is stuck. -/
inductive Fault where
  /-- An access to an address `MEM_ADMIT` does not admit (rule R72). Raised by a load, a store or the fetch. Safe: the
  spec names no access-fault trap and calls the core stuck. -/
  | unadmittedAccess (addr : Word) (bytes : Nat) (kind : AccessKind)
  deriving DecidableEq, Repr

/-- Why the model gives no next state. -/
inductive Refusal where
  /-- An instruction with no meaning yet; raised by exec's refused arms only. Safe. -/
  | notModelled (mnemonic : String)
  /-- A fetch from a `pc` that is not a multiple of 4 (rule R60, `FETCH_MISALIGN_POLICY`). Raised by step. Safe. -/
  | fetchMisaligned
  /-- An encoding the source calls undefined, under `ENC_POLICY = refuse` (rule R91). Raised by step. Safe. -/
  | undefinedEncoding
  /-- An encoding the source does not list, under `ENC_POLICY = refuse` (rule R92). Raised by step. Safe. -/
  | unlistedEncoding
  /-- One of the ten unnamed `w` forms under `W_UNNAMED = refuse` and `ENC_POLICY = refuse` (rules R173, R197). Raised
  by their meanings. Safe. -/
  | unnamedWForm
  /-- SLLIW, SRLIW, SRAIW with `imm[5]` = 1, which RV64I reserves, under `W_SEMANTICS = rv64iStandard` and
  `ENC_POLICY = refuse` (rule R191). Raised by their meanings. Safe. -/
  | reservedWideShift
  /-- A load with `rd` = 0 from a misaligned or device address under the cautious reading of rule R139. Raised by the
  loads. Safe. -/
  | ambiguousX0Load
  deriving DecidableEq, Repr

/-- The outcome of a meaning or a step. -/
abbrev Result := Host.Outcome State Fault Refusal

/-- The state after reset under configuration `c`, where the environment will give `mip` the values `env` (rules R43,
R280, R281): the five reset parameters of rule R5, and for every other register the value zero that assumption log 7 names;
memory lists nothing. The first boundary samples `mip` from `env`, so an interrupt may come before the first instruction. -/
def State.resetWith (c : Config) (env : List Word) : State where
  cfg := c
  xs := Vector.replicate 31 0#64
  pc := c.resetPc
  ia := 0#64
  mstatusMie := c.resetMstatusMie
  mstatusMpie := c.resetMstatusMpie
  mepc := 0#64
  mcauseCause := 0#63
  mcauseIrq := false
  mtvec := c.resetMtvec
  mip := 0#64
  mie := c.resetMie
  mscratch := 0#64
  mem := []
  mipInputs := env
  deviceLog := []
  draws := 0

/-- The machine right after reset. DESIGN CHOICE: the environment's list `mipInputs` is empty, so that from here `mip`
stays 0 and no interrupt arrives; the spec leaves these values to the environment (rules R43, R249). Assumption log 5. -/
def State.reset : State := State.resetWith defaultConfig []

end Sys2Proof.Machine
end

