-- ==== Sys2Proof/Machine/Ops.lean ====
section
/-! DEFINITION. The named operations over registers, memory bytes and traps. -/

namespace Sys2Proof.Machine

/-! ### General registers -/

/-- `x[i]` (rule R21): `X0` reads 0. -/
def State.x (s : State) (i : RegIdx) : Word :=
  if i = 0#5 then 0#64 else s.xs[i.toNat - 1]'(by have := i.isLt; omega)

/-- `x[i] <- v` (rule R21): a write to `X0` is discarded. -/
def State.setX (s : State) (i : RegIdx) (v : Word) : State :=
  if i = 0#5 then s else { s with xs := s.xs.set (i.toNat - 1) v (by have := i.isLt; omega) }

/-- `pc <- t` (rule R11). -/
def State.setPc (s : State) (t : Word) : State := { s with pc := t }

/-! ### Memory, byte by byte -/

/-- The byte at address `a` (rule R52). -/
def Memory.read : Memory → Nat → Byte
  | [], _ => Memory.unlisted
  | (k, b) :: rest, a => if k = a then b else Memory.read rest a

/-- The byte `b` put at address `a`, keeping the canonical form. -/
def Memory.write : Memory → Nat → Byte → Memory
  | [], a, b => if b = Memory.unlisted then [] else [(a, b)]
  | (k, c) :: rest, a, b =>
    if k < a then (k, c) :: Memory.write rest a b
    else if k = a then (if b = Memory.unlisted then rest else (a, b) :: rest)
    else if b = Memory.unlisted then (k, c) :: rest
    else (a, b) :: (k, c) :: rest

/-- The `n` bytes from `a` on, byte `k` of `v` (bits `8k+7:8k`) at `a + k` modulo 2^64 (rules R51, R54). -/
def Memory.writeBytes (m : Memory) : Nat → Word → Word → Memory
  | 0, _, _ => m
  | n + 1, a, v => Memory.writeBytes (m.write a.toNat (v.setWidth 8)) n (a + 1#64) (v >>> 8)

/-! ### The free value -/

/-- The next free value (`any value`, rule R13). -/
def State.freshWord (s : State) : Word := Config.freeWord s.draws

/-- The state after a free value has been drawn. -/
def State.drawn (s : State) : State := { s with draws := s.draws + 1 }

/-- Effects handed to devices, after all earlier ones (rules R66 (c), R71). -/
def State.tellDevices (s : State) (es : List DeviceEvent) : State := { s with deviceLog := s.deviceLog ++ es }

/-- The list in the order the number `w` picks: every order is some number's (rule R62, "unspecified order"). -/
def pickOrder {α : Type} : Nat → List α → List α
  | _, [] => []
  | w, x :: rest => (pickOrder (w / (rest.length + 1)) rest).insertIdx (w % (rest.length + 1)) x

/-! ### Taking a trap, and returning from one -/

/-- `TrapEnter(cause, irq, epc)` (rule R241): the one entry sequence, for exceptions and interrupts alike. -/
def State.trapEnter (s : State) (cause : Cause) (irq : Bool) (epc : Word) : State :=
  { s with
    mstatusMpie := s.mstatusMie
    mstatusMie := false
    mepc := epc
    mcauseCause := cause
    mcauseIrq := irq
    pc := s.mtvec }

/-- The return from a trap (rules R224, R254). -/
def State.trapReturn (s : State) : State :=
  { s with
    mstatusMie := s.mstatusMpie
    mstatusMpie := true
    pc := s.mepc }

/-- `raise IllegalInstruction` (rule R244). -/
def State.raiseIllegal (s : State) : State := s.trapEnter s.cfg.causeIllegal false s.ia

/-- `raise LoadAddressMisaligned` (rule R245); the address is not recorded. -/
def State.raiseLoadMisaligned (s : State) : State := s.trapEnter s.cfg.causeLoadMisaligned false s.ia

/-- `raise StoreAddressMisaligned` (rule R246); the address is not recorded. -/
def State.raiseStoreMisaligned (s : State) : State := s.trapEnter s.cfg.causeStoreMisaligned false s.ia

/-- What `ENC_POLICY` does with an encoding that has no meaning (rules R91, R92, R244): refuse it as `r`, or raise the
illegal instruction trap. -/
def rejectEncoding (r : Refusal) (s : State) : Result :=
  match s.cfg.encPolicy with
  | .refuse => .refused r
  | .illegalInstructionTrap => .next s.raiseIllegal

end Sys2Proof.Machine
end

