-- ==== Sys2Proof/Machine/Operands.lean ====
section
/-! DEFINITION. The operand forms: the extensions of immediates and loaded values, targets, effective addresses
(rules R10, R82 to R88). -/

namespace Sys2Proof.Machine

/-- `sext_64` (rules R10, R11). -/
def sext {n : Nat} (v : BitVec n) : Word := v.signExtend 64

/-- `zext_64` (rules R10, R11). -/
def zext {n : Nat} (v : BitVec n) : Word := v.setWidth 64

/-- The U-format immediate: the field over twelve zero bits, sign-extended (rules R82, R88). -/
def upperImm (imm : BitVec 20) : Word := sext (place 32 imm 12)

/-- `sext_64(v[31:0])`, the last step of a `w` form (rules R156, R167). -/
def sextLow32 (v : Word) : Word := sext (v.setWidth 32)

/-- The shift count `b[5:0]` (rule R155, `SHAMT_BITS` = 6). -/
def shiftCount (b : Word) : Nat := (b.setWidth 6).toNat

/-- The right operand of an immediate shift: `sext_64(imm)` with `imm[5:0]` the count; only its low 6 bits are looked
at (rule R187). -/
def shiftImm (shamt : BitVec 6) : Word := zext shamt

/-- The target of a taken branch or of JAL: `ia + displacement` modulo 2^64 (rules R115, R125). -/
def relTarget (s : State) {n : Nat} (disp : BitVec n) : Word := s.ia + sext disp

/-- The successor in line, `ia + 4` modulo 2^64 (rules R26, R27). -/
def lineSuccessor (s : State) : Word := s.ia + 4#64

/-- Base register plus sign-extended 12-bit displacement modulo 2^64: the address of JALR, LOAD and STORE
(rules R126, R130, R205). -/
def baseDisp (s : State) (rs1 : RegIdx) (imm : BitVec 12) : Word := s.x rs1 + sext imm

/-- The four access sizes (rules R14, R61). -/
inductive AccessSize where
  | byte
  | half
  | word
  | double
  deriving DecidableEq, Repr

/-- The number of bytes of an access (rules R14, R61). -/
def AccessSize.bytes : AccessSize → Nat
  | .byte => 1
  | .half => 2
  | .word => 4
  | .double => 8

/-- The sign extension of the low bits an access moves (rule R130, `fn3[2]` = 0). -/
def AccessSize.signExt : AccessSize → Word → Word
  | .byte, v => sext (v.setWidth 8)
  | .half, v => sext (v.setWidth 16)
  | .word, v => sext (v.setWidth 32)
  | .double, v => v

/-- The zero extension of the low bits an access moves (rule R130, `fn3[2]` = 1). -/
def AccessSize.zeroExt : AccessSize → Word → Word
  | .byte, v => zext (v.setWidth 8)
  | .half, v => zext (v.setWidth 16)
  | .word, v => zext (v.setWidth 32)
  | .double, v => v

end Sys2Proof.Machine
end

