-- ==== Sys2Proof/Machine/Flags.lean ====
section
/-! DEFINITION. The hardware has no flags: no instruction writes a carry, overflow, zero or sign flag (rule R28). What
other machines keep in flags is computed here on the spot: the two comparisons and the 0 or 1 they put in a register. -/

namespace Sys2Proof.Machine

/-- `a <s b`: both read as 64-bit two's-complement integers (rules R11, R12). -/
def ltSigned (a b : Word) : Bool := a.slt b

/-- `a <u b`: both read as integers in `0 .. 2^64 - 1` (rule R11). -/
def ltUnsigned (a b : Word) : Bool := a.ult b

/-- A comparison's result as a register value, 0 or 1 (rules R159, R160). -/
def boolWord (b : Bool) : Word := if b then 1#64 else 0#64

/-- The six branch conditions (rules R116 to R121). -/
inductive Cond where
  | eq
  | ne
  | lt
  | ge
  | ltu
  | geu
  deriving DecidableEq, Repr

/-- `cond(a, b)` of rules R116 to R121. -/
def Cond.holds : Cond → Word → Word → Bool
  | .eq, a, b => a == b
  | .ne, a, b => a != b
  | .lt, a, b => ltSigned a b
  | .ge, a, b => !ltSigned a b
  | .ltu, a, b => ltUnsigned a b
  | .geu, a, b => !ltUnsigned a b

end Sys2Proof.Machine
end

