-- ==== Sys2Proof/Machine/Branch.lean ====
section
/-! DEFINITION. BRANCH: BEQ, BNE, BLT, BGE, BLTU, BGEU. -/

namespace Sys2Proof.Machine

/-- Common to all six branches (rule R115); the target is not checked (rules R27, R60). -/
def branch (c : Cond) (rs1 rs2 : RegIdx) (disp : BitVec 13) (s : State) : Result :=
  .next (s.setPc (if c.holds (s.x rs1) (s.x rs2) then relTarget s disp else lineSuccessor s))

/-- BEQ (rule R116). -/
def execBeq (rs1 rs2 : RegIdx) (disp : BitVec 13) (s : State) : Result := branch .eq rs1 rs2 disp s

/-- BNE (rule R117). -/
def execBne (rs1 rs2 : RegIdx) (disp : BitVec 13) (s : State) : Result := branch .ne rs1 rs2 disp s

/-- BLT (rule R118). -/
def execBlt (rs1 rs2 : RegIdx) (disp : BitVec 13) (s : State) : Result := branch .lt rs1 rs2 disp s

/-- BGE (rule R119). -/
def execBge (rs1 rs2 : RegIdx) (disp : BitVec 13) (s : State) : Result := branch .ge rs1 rs2 disp s

/-- BLTU (rule R120). -/
def execBltu (rs1 rs2 : RegIdx) (disp : BitVec 13) (s : State) : Result := branch .ltu rs1 rs2 disp s

/-- BGEU (rule R121). -/
def execBgeu (rs1 rs2 : RegIdx) (disp : BitVec 13) (s : State) : Result := branch .geu rs1 rs2 disp s

end Sys2Proof.Machine
end

