-- ==== Sys2Proof/Machine/Jump.lean ====
section
/-! DEFINITION. JAL and JALR. -/

namespace Sys2Proof.Machine

/-- JAL (rule R125). -/
def execJal (rd : RegIdx) (disp : BitVec 21) (s : State) : Result :=
  .next ((s.setX rd (lineSuccessor s)).setPc (relTarget s disp))

/-- JALR (rule R126): the target is computed from the registers before `rd` is written (decision D9) and used whole,
bit 0 included (decision D7). -/
def execJalr (rd rs1 : RegIdx) (imm : BitVec 12) (s : State) : Result :=
  .next ((s.setX rd (lineSuccessor s)).setPc (baseDisp s rs1 imm))

end Sys2Proof.Machine
end

