-- ==== Sys2Proof/Machine/Access.lean ====
section
/-! DEFINITION. Memory as LOAD, STORE and the fetch reach it: `MEM_ADMIT` and devices (rules R52, R63, R64), alignment
(rules R56 to R59), `MemRead`, `MemWrite` (rules R53, R54) and the loads and stores over them (rules R130, R139, R205). -/

namespace Sys2Proof.Machine

/-! ### `MEM_ADMIT` and devices -/

/-- Address `a` lies in the range. -/
def AddrRange.holds (r : AddrRange) (a : Nat) : Bool := decide (r.base ≤ a) && decide (a < r.base + r.size)

/-- `a mod n = 0`: the access is naturally aligned (rule R56). -/
def aligned (a : Word) (n : Nat) : Bool := a.toNat % n == 0

/-- The rule covers an `n`-byte access of this kind at `a`. -/
def AdmitRule.covers (r : AdmitRule) (a : Word) (n : Nat) (k : AccessKind) : Bool :=
  AddrRange.holds r.starts a.toNat && r.kinds.contains k && r.widths.contains n && (!r.alignedOnly || aligned a n)

/-- `MEM_ADMIT(a, n, kind)` (rules R53 to R55, R64). -/
def memAdmit (c : Config) (a : Word) (n : Nat) (k : AccessKind) : Bool := c.memAdmits.any (AdmitRule.covers · a n k)

/-- Address `a` is a device register (rules R52, R63). -/
def isDevice (c : Config) (a : Word) : Bool := c.devices.any (AddrRange.holds · a.toNat)

/-- Some byte of an `n`-byte access at `a` is a device register. -/
def touchesDevice (c : Config) : Nat → Word → Bool
  | 0, _ => false
  | n + 1, a => isDevice c a || touchesDevice c n (a + 1#64)

/-! ### Alignment -/

/-- The address an `n`-byte load or store at `a` is performed at, under `MISALIGN_POLICY`; `none` where the alignment
exception is raised (rules R53, R54, R57 to R59). -/
def accessAddr (c : Config) (a : Word) (n : Nat) : Option Word :=
  if aligned a n then some a
  else
    match c.misalign with
    | .trap => none
    | .mask => some (a &&& ~~~(BitVec.ofNat 64 (n - 1)))
    | .split => some a

/-! ### Reading and writing -/

/-- The byte a read finds at `a`: a memory byte, or for a device register the byte `fresh` that the environment chooses
(rule R52). -/
def readByte (s : State) (a : Word) (fresh : Byte) : Byte :=
  if isDevice s.cfg a then fresh else s.mem.read a.toNat

/-- The `n` bytes from `a` on as one value, the byte at `a` lowest (rules R51, R53), in the low `8n` bits; `fresh` holds
the environment's bytes. -/
def readBytes (s : State) : Nat → Word → Word → Word
  | 0, _, _ => 0#64
  | n + 1, a, fresh =>
    zext (readByte s a (fresh.setWidth 8)) ||| (readBytes s n (a + 1#64) (fresh >>> 8) <<< 8)

/-- The value an admitted `n`-byte read at `a` returns (rules R52, R53). -/
def readValue (s : State) (a : Word) (n : Nat) : Word := readBytes s n a s.freshWord

/-- The byte accesses to devices of which a misaligned `n`-byte read at `a` consists (rules R59, R62). -/
def byteReads (c : Config) : Nat → Word → List DeviceEvent
  | 0, _ => []
  | n + 1, a => (if isDevice c a then [.memRead a 1] else []) ++ byteReads c n (a + 1#64)

/-- The state after that read: unchanged, unless a device register was read (rules R53, R63). An aligned access is one
event; a misaligned one is a byte access to each device byte, in a free order (rule R62). -/
def afterRead (s : State) (a : Word) (n : Nat) : State :=
  if touchesDevice s.cfg n a then
    if aligned a n then s.drawn.tellDevices [.memRead a n]
    else s.drawn.drawn.tellDevices (pickOrder s.drawn.freshWord.toNat (byteReads s.cfg n a))
  else s

/-- The memory after an `n`-byte write of `v` at `a`: its ordinary bytes are replaced, a device register is not in
memory (rules R52, R54). -/
def writtenMem (c : Config) : Nat → Memory → Word → Word → Memory
  | 0, m, _, _ => m
  | n + 1, m, a, v =>
    writtenMem c n (if isDevice c a then m else m.write a.toNat (v.setWidth 8)) (a + 1#64) (v >>> 8)

/-- The low `8n` bits of `v` (rule R205: "the upper bits are ignored"). -/
def lowBytes (n : Nat) (v : Word) : Word := v &&& (BitVec.allOnes 64 >>> (64 - 8 * n))

/-- The byte accesses to devices of which a misaligned `n`-byte write of `v` at `a` consists (rules R59, R62). -/
def byteWrites (c : Config) : Nat → Word → Word → List DeviceEvent
  | 0, _, _ => []
  | n + 1, a, v => (if isDevice c a then [.memWrite a 1 (lowBytes 1 v)] else []) ++ byteWrites c n (a + 1#64) (v >>> 8)

/-- The state after an admitted `n`-byte write of `v` at `a` (rules R52, R54, R63). An aligned access to a device is one
event; a misaligned one is a byte access to each device byte, in a free order (rule R62). -/
def afterWrite (s : State) (a : Word) (n : Nat) (v : Word) : State :=
  if touchesDevice s.cfg n a then
    if aligned a n then { s with mem := writtenMem s.cfg n s.mem a v }.tellDevices [.memWrite a n (lowBytes n v)]
    else
      { s with mem := writtenMem s.cfg n s.mem a v }.drawn.tellDevices
        (pickOrder s.freshWord.toNat (byteWrites s.cfg n a v))
  else { s with mem := s.mem.writeBytes n a v }

/-! ### LOAD and STORE -/

/-- A load with `rd` = 0 (rule R139): nothing but the advance of `pc`; under the cautious reading it is refused where
the address is misaligned or a device. -/
def loadX0 (addr : Word) (n : Nat) (s : State) : Result :=
  match s.cfg.x0Load with
  | .noAccess => .next s
  | .refuseWhereItMatters =>
    if aligned addr n && !touchesDevice s.cfg n addr then .next s else .refused .ambiguousX0Load

/-- A load with `rd` not 0: `MemRead`, then the extended value to `rd` (rules R53, R130). -/
def loadInto (sz : AccessSize) (ext : Word → Word) (rd : RegIdx) (addr : Word) (s : State) : Result :=
  match accessAddr s.cfg addr sz.bytes with
  | none => .next s.raiseLoadMisaligned
  | some a =>
    if memAdmit s.cfg a sz.bytes .read then
      .next ((afterRead s a sz.bytes).setX rd (ext (readValue s a sz.bytes)))
    else .fault (.unadmittedAccess a sz.bytes .read)

/-- Common to all eight loads (rule R130). -/
def load (sz : AccessSize) (ext : Word → Word) (rd rs1 : RegIdx) (imm : BitVec 12) (s : State) : Result :=
  if rd = 0#5 then loadX0 (baseDisp s rs1 imm) sz.bytes s else loadInto sz ext rd (baseDisp s rs1 imm) s

/-- Common to all four stores (rules R54, R205). -/
def store (sz : AccessSize) (rs1 rs2 : RegIdx) (imm : BitVec 12) (s : State) : Result :=
  match accessAddr s.cfg (baseDisp s rs1 imm) sz.bytes with
  | none => .next s.raiseStoreMisaligned
  | some a =>
    if memAdmit s.cfg a sz.bytes .write then .next (afterWrite s a sz.bytes (s.x rs2))
    else .fault (.unadmittedAccess a sz.bytes .write)

end Sys2Proof.Machine
end

