-- ==== Sys2Proof/Machine/Load.lean ====
section
/-! DEFINITION. LOAD: LB, LH, LW, LD, LBU, LHU, LWU, LDU. -/

namespace Sys2Proof.Machine

/-- LB (rule R131). -/
def execLb (rd rs1 : RegIdx) (imm : BitVec 12) (s : State) : Result := load .byte AccessSize.byte.signExt rd rs1 imm s

/-- LH (rule R132). -/
def execLh (rd rs1 : RegIdx) (imm : BitVec 12) (s : State) : Result := load .half AccessSize.half.signExt rd rs1 imm s

/-- LW (rule R133). -/
def execLw (rd rs1 : RegIdx) (imm : BitVec 12) (s : State) : Result := load .word AccessSize.word.signExt rd rs1 imm s

/-- LD (rule R134). -/
def execLd (rd rs1 : RegIdx) (imm : BitVec 12) (s : State) : Result :=
  load .double AccessSize.double.signExt rd rs1 imm s

/-- LBU (rule R135). -/
def execLbu (rd rs1 : RegIdx) (imm : BitVec 12) (s : State) : Result := load .byte AccessSize.byte.zeroExt rd rs1 imm s

/-- LHU (rule R136). -/
def execLhu (rd rs1 : RegIdx) (imm : BitVec 12) (s : State) : Result := load .half AccessSize.half.zeroExt rd rs1 imm s

/-- LWU (rule R137). -/
def execLwu (rd rs1 : RegIdx) (imm : BitVec 12) (s : State) : Result := load .word AccessSize.word.zeroExt rd rs1 imm s

/-- LDU (rule R138): on this CPU semantically equivalent to LD. -/
def execLdu (rd rs1 : RegIdx) (imm : BitVec 12) (s : State) : Result :=
  load .double AccessSize.double.zeroExt rd rs1 imm s

end Sys2Proof.Machine
end

