-- ==== Sys2Proof/Machine/Misc.lean ====
section
/-! DEFINITION. MISC: FENCE and FENCE.I, both no-operations on this core (rules R66, R67, R69). -/

namespace Sys2Proof.Machine

/-- FENCE (rule R150): `pppp` and `ssss` are ignored. -/
def execFence (_pppp _ssss : BitVec 4) (s : State) : Result := .next s

/-- FENCE.I (rule R151). -/
def execFenceI (s : State) : Result := .next s

end Sys2Proof.Machine
end

