-- ==== Sys2Proof/Machine/Operation.lean ====
section
/-! DEFINITION. The function `Operation` that OP and OP-IMM share (rule R155), and its `w` forms (rules R167, R191). -/

namespace Sys2Proof.Machine

/-- The ten defined values of `fn4` (rule R155). -/
inductive Fn4 where
  | add
  | sll
  | slt
  | sltu
  | xor
  | srl
  | or
  | and
  | sub
  | sra
  deriving DecidableEq, Repr

/-- `Operation(a, b, fn4)` (rule R155). -/
def operation : Fn4 → Word → Word → Word
  | .add, a, b => a + b
  | .sll, a, b => a <<< shiftCount b
  | .slt, a, b => boolWord (ltSigned a b)
  | .sltu, a, b => boolWord (ltUnsigned a b)
  | .xor, a, b => a ^^^ b
  | .srl, a, b => a >>> shiftCount b
  | .or, a, b => a ||| b
  | .and, a, b => a &&& b
  | .sub, a, b => a - b
  | .sra, a, b => a.sshiftRight (shiftCount b)

/-- A `w` form as the source's pseudocode has it: the 64-bit operation, then the low 32 bits sign-extended
(rule R167). -/
def wLiteral (f : Fn4) (a b : Word) : Word := sextLow32 (operation f a b)

/-- The 5-bit count of the standard `w` shifts (rules R167, R170 to R172). -/
def shiftCount5 (b : Word) : Nat := (b.setWidth 5).toNat

/-- A `w` form as RV64I has it: the shifts work on the low 32 bits with a 5-bit count; the others agree with the source
(rules R167 to R172). -/
def wStandard : Fn4 → Word → Word → Word
  | .sll, a, b => sext (a.setWidth 32 <<< shiftCount5 b)
  | .srl, a, b => sext (a.setWidth 32 >>> shiftCount5 b)
  | .sra, a, b => sext ((a.setWidth 32).sshiftRight (shiftCount5 b))
  | f, a, b => wLiteral f a b

/-- The result of a named `w` form under `W_SEMANTICS` (rule R167). -/
def wOperation (sem : WSemantics) (f : Fn4) (a b : Word) : Word :=
  match sem with
  | .sourceLiteral => wLiteral f a b
  | .rv64iStandard => wStandard f a b

/-- OP, `w` = 0 (rule R156). -/
def opReg (f : Fn4) (rd rs1 rs2 : RegIdx) (s : State) : Result :=
  .next (s.setX rd (operation f (s.x rs1) (s.x rs2)))

/-- OP, `w` = 1, the forms with a standard name (rules R156, R167). -/
def opRegW (f : Fn4) (rd rs1 rs2 : RegIdx) (s : State) : Result :=
  .next (s.setX rd (wOperation s.cfg.wSemantics f (s.x rs1) (s.x rs2)))

/-- A `w` form without a standard name, on operands `a` and `b` (rules R173, R197, `W_UNNAMED`): the source's formula,
or an unlisted encoding. -/
def opUnnamedW (f : Fn4) (rd : RegIdx) (a b : Word) (s : State) : Result :=
  match s.cfg.wUnnamed with
  | .sourceLiteral => .next (s.setX rd (wLiteral f a b))
  | .refuse => rejectEncoding .unnamedWForm s

/-- OP-IMM, `w` = 0, not a shift (rule R180). -/
def opImm (f : Fn4) (rd rs1 : RegIdx) (imm : BitVec 12) (s : State) : Result :=
  .next (s.setX rd (operation f (s.x rs1) (sext imm)))

/-- OP-IMM shift, `w` = 0 (rules R180, R187). -/
def opShiftImm (f : Fn4) (rd rs1 : RegIdx) (shamt : BitVec 6) (s : State) : Result :=
  .next (s.setX rd (operation f (s.x rs1) (shiftImm shamt)))

/-- OP-IMM shift, `w` = 1 (rule R191). RV64I reserves `imm[5]` = 1, so under `rv64iStandard` such a word is treated as
an unlisted encoding; assumption log 13. -/
def opShiftImmW (f : Fn4) (rd rs1 : RegIdx) (shamt : BitVec 6) (s : State) : Result :=
  if s.cfg.wSemantics = .rv64iStandard ∧ shamt.getLsbD 5 = true then rejectEncoding .reservedWideShift s
  else .next (s.setX rd (wOperation s.cfg.wSemantics f (s.x rs1) (shiftImm shamt)))

end Sys2Proof.Machine
end

