-- ==== Sys2Proof/Machine/Op.lean ====
section
/-! DEFINITION. OP: the ten register operations and their ten `w` forms. -/

namespace Sys2Proof.Machine

/-- ADD (rule R157). -/
def execAdd (rd rs1 rs2 : RegIdx) (s : State) : Result := opReg .add rd rs1 rs2 s

/-- SLL (rule R158). -/
def execSll (rd rs1 rs2 : RegIdx) (s : State) : Result := opReg .sll rd rs1 rs2 s

/-- SLT (rule R159). -/
def execSlt (rd rs1 rs2 : RegIdx) (s : State) : Result := opReg .slt rd rs1 rs2 s

/-- SLTU (rule R160). -/
def execSltu (rd rs1 rs2 : RegIdx) (s : State) : Result := opReg .sltu rd rs1 rs2 s

/-- XOR (rule R161). -/
def execXor (rd rs1 rs2 : RegIdx) (s : State) : Result := opReg .xor rd rs1 rs2 s

/-- SRL (rule R162). -/
def execSrl (rd rs1 rs2 : RegIdx) (s : State) : Result := opReg .srl rd rs1 rs2 s

/-- OR (rule R163). -/
def execOr (rd rs1 rs2 : RegIdx) (s : State) : Result := opReg .or rd rs1 rs2 s

/-- AND (rule R164). -/
def execAnd (rd rs1 rs2 : RegIdx) (s : State) : Result := opReg .and rd rs1 rs2 s

/-- SUB (rule R165). -/
def execSub (rd rs1 rs2 : RegIdx) (s : State) : Result := opReg .sub rd rs1 rs2 s

/-- SRA (rule R166). -/
def execSra (rd rs1 rs2 : RegIdx) (s : State) : Result := opReg .sra rd rs1 rs2 s

/-- ADDW (rule R168). -/
def execAddw (rd rs1 rs2 : RegIdx) (s : State) : Result := opRegW .add rd rs1 rs2 s

/-- SUBW (rule R169). -/
def execSubw (rd rs1 rs2 : RegIdx) (s : State) : Result := opRegW .sub rd rs1 rs2 s

/-- SLLW (rule R170). -/
def execSllw (rd rs1 rs2 : RegIdx) (s : State) : Result := opRegW .sll rd rs1 rs2 s

/-- SRLW (rule R171). -/
def execSrlw (rd rs1 rs2 : RegIdx) (s : State) : Result := opRegW .srl rd rs1 rs2 s

/-- SRAW (rule R172). -/
def execSraw (rd rs1 rs2 : RegIdx) (s : State) : Result := opRegW .sra rd rs1 rs2 s

/-- SLT.W* (rule R173). -/
def execSltW (rd rs1 rs2 : RegIdx) (s : State) : Result :=
  opUnnamedW .slt rd (s.x rs1) (s.x rs2) s

/-- SLTU.W* (rule R173). -/
def execSltuW (rd rs1 rs2 : RegIdx) (s : State) : Result :=
  opUnnamedW .sltu rd (s.x rs1) (s.x rs2) s

/-- XOR.W* (rule R173). -/
def execXorW (rd rs1 rs2 : RegIdx) (s : State) : Result :=
  opUnnamedW .xor rd (s.x rs1) (s.x rs2) s

/-- OR.W* (rule R173). -/
def execOrW (rd rs1 rs2 : RegIdx) (s : State) : Result :=
  opUnnamedW .or rd (s.x rs1) (s.x rs2) s

/-- AND.W* (rule R173). -/
def execAndW (rd rs1 rs2 : RegIdx) (s : State) : Result :=
  opUnnamedW .and rd (s.x rs1) (s.x rs2) s

end Sys2Proof.Machine
end

