-- ==== Sys2Proof/Machine/OpImm.lean ====
section
/-! DEFINITION. OP-IMM: the nine immediate operations and their nine `w` forms. -/

namespace Sys2Proof.Machine

/-- ADDI (rule R181). -/
def execAddi (rd rs1 : RegIdx) (imm : BitVec 12) (s : State) : Result := opImm .add rd rs1 imm s

/-- SLTI (rule R182). -/
def execSlti (rd rs1 : RegIdx) (imm : BitVec 12) (s : State) : Result := opImm .slt rd rs1 imm s

/-- SLTIU (rule R183). -/
def execSltiu (rd rs1 : RegIdx) (imm : BitVec 12) (s : State) : Result := opImm .sltu rd rs1 imm s

/-- XORI (rule R184). -/
def execXori (rd rs1 : RegIdx) (imm : BitVec 12) (s : State) : Result := opImm .xor rd rs1 imm s

/-- ORI (rule R185). -/
def execOri (rd rs1 : RegIdx) (imm : BitVec 12) (s : State) : Result := opImm .or rd rs1 imm s

/-- ANDI (rule R186). -/
def execAndi (rd rs1 : RegIdx) (imm : BitVec 12) (s : State) : Result := opImm .and rd rs1 imm s

/-- SLLI (rules R187, R188). -/
def execSlli (rd rs1 : RegIdx) (shamt : BitVec 6) (s : State) : Result := opShiftImm .sll rd rs1 shamt s

/-- SRLI (rules R187, R189). -/
def execSrli (rd rs1 : RegIdx) (shamt : BitVec 6) (s : State) : Result := opShiftImm .srl rd rs1 shamt s

/-- SRAI (rules R187, R190). -/
def execSrai (rd rs1 : RegIdx) (shamt : BitVec 6) (s : State) : Result := opShiftImm .sra rd rs1 shamt s

/-- ADDIW (rule R192). -/
def execAddiw (rd rs1 : RegIdx) (imm : BitVec 12) (s : State) : Result :=
  .next (s.setX rd (wOperation s.cfg.wSemantics .add (s.x rs1) (sext imm)))

/-- SLLIW (rules R187, R193). -/
def execSlliw (rd rs1 : RegIdx) (shamt : BitVec 6) (s : State) : Result := opShiftImmW .sll rd rs1 shamt s

/-- SRLIW (rules R187, R194). -/
def execSrliw (rd rs1 : RegIdx) (shamt : BitVec 6) (s : State) : Result := opShiftImmW .srl rd rs1 shamt s

/-- SRAIW (rules R187, R195). -/
def execSraiw (rd rs1 : RegIdx) (shamt : BitVec 6) (s : State) : Result := opShiftImmW .sra rd rs1 shamt s

/-- SLTI.W* (rule R197). -/
def execSltiW (rd rs1 : RegIdx) (imm : BitVec 12) (s : State) : Result :=
  opUnnamedW .slt rd (s.x rs1) (sext imm) s

/-- SLTIU.W* (rule R197). -/
def execSltiuW (rd rs1 : RegIdx) (imm : BitVec 12) (s : State) : Result :=
  opUnnamedW .sltu rd (s.x rs1) (sext imm) s

/-- XORI.W* (rule R197). -/
def execXoriW (rd rs1 : RegIdx) (imm : BitVec 12) (s : State) : Result :=
  opUnnamedW .xor rd (s.x rs1) (sext imm) s

/-- ORI.W* (rule R197). -/
def execOriW (rd rs1 : RegIdx) (imm : BitVec 12) (s : State) : Result :=
  opUnnamedW .or rd (s.x rs1) (sext imm) s

/-- ANDI.W* (rule R197). -/
def execAndiW (rd rs1 : RegIdx) (imm : BitVec 12) (s : State) : Result :=
  opUnnamedW .and rd (s.x rs1) (sext imm) s

end Sys2Proof.Machine
end

