-- ==== Sys2Proof/Machine/Store.lean ====
section
/-! DEFINITION. STORE: SB, SH, SW, SD. -/

namespace Sys2Proof.Machine

/-- SB (rule R206). -/
def execSb (rs1 rs2 : RegIdx) (imm : BitVec 12) (s : State) : Result := store .byte rs1 rs2 imm s

/-- SH (rule R207). -/
def execSh (rs1 rs2 : RegIdx) (imm : BitVec 12) (s : State) : Result := store .half rs1 rs2 imm s

/-- SW (rule R208). -/
def execSw (rs1 rs2 : RegIdx) (imm : BitVec 12) (s : State) : Result := store .word rs1 rs2 imm s

/-- SD (rule R209). -/
def execSd (rs1 rs2 : RegIdx) (imm : BitVec 12) (s : State) : Result := store .double rs1 rs2 imm s

end Sys2Proof.Machine
end

