-- ==== Sys2Proof/Machine/Csr.lean ====
section
/-! DEFINITION. The CSRs as the CSR instructions reach them: which number names which register, `CsrRead`, `CsrWrite`,
the actions, and the rule the six instructions share (rules R29 to R39, R215). -/

namespace Sys2Proof.Machine

/-! ### Bit fields -/

/-- The value `v` with bit `i` set to `b`. -/
def putBit (v : Word) (i : Fin 64) (b : Bool) : Word :=
  if b then v ||| (1#64 <<< i.val) else v &&& ~~~(1#64 <<< i.val)

/-- The ones below bit `i`. -/
def onesBelow (i : Fin 64) : Word := (1#64 <<< i.val) - 1#64

/-- `mcause` assembled: `irq` at bit `i`, `cause` in the other bits in order; `{irq, cause}` where `i` is 63
(rules R33, R215). DEDUCED for another `i`, assumption log 19. -/
def packMcause (i : Fin 64) (irq : Bool) (cause : Cause) : Word :=
  putBit ((zext cause &&& onesBelow i) ||| ((zext cause &&& ~~~(onesBelow i)) <<< 1)) i irq

/-- `mcause.cause` of a written value (rule R215). -/
def unpackCause (i : Fin 64) (v : Word) : Cause :=
  ((v &&& onesBelow i) ||| ((v >>> 1) &&& ~~~(onesBelow i))).setWidth 63

/-! ### Which CSR a number names -/

/-- The seven CSRs inside the core (rule R30). -/
inductive CsrName where
  | mstatus
  | mie
  | mtvec
  | mscratch
  | mepc
  | mcause
  | mip
  deriving DecidableEq, Repr

/-- The CSR inside the core that `n` names (rule R30). -/
def csrNamed (c : Config) (n : CsrIdx) : Option CsrName :=
  if n = c.csrNum.mstatus then some .mstatus
  else if n = c.csrNum.mie then some .mie
  else if n = c.csrNum.mtvec then some .mtvec
  else if n = c.csrNum.mscratch then some .mscratch
  else if n = c.csrNum.mepc then some .mepc
  else if n = c.csrNum.mcause then some .mcause
  else if n = c.csrNum.mip then some .mip
  else none

/-- The CSR of the C port that `n` names (rule R39). -/
def csrExtra (c : Config) (n : CsrIdx) : Option ExtraCsr := c.extraCsrs.find? fun e => e.num == n

/-- `n` is in `SUPPORTED_CSRS` (rule R38). -/
def csrSupported (c : Config) (n : CsrIdx) : Bool := (csrNamed c n).isSome || (csrExtra c n).isSome

/-! ### `CsrRead` and `CsrWrite` (rule R215) -/

/-- `mstatus` as a CSR read shows it: the two fields over the other bits `other` (rule R31). -/
def mstatusValue (s : State) (other : Word) : Word :=
  putBit (putBit other s.cfg.layout.mieBit s.mstatusMie) s.cfg.layout.mpieBit s.mstatusMpie

/-- The bits of `mstatus` other than its two fields: fixed by the configuration, or a free value (rule R31). -/
def mstatusOtherBits (s : State) : Word := s.cfg.mstatusOther.getD s.freshWord

/-- The value of a CSR inside the core (rule R215). -/
def csrValue (s : State) : CsrName → Word
  | .mstatus => mstatusValue s (mstatusOtherBits s)
  | .mie => s.mie
  | .mtvec => s.mtvec
  | .mscratch => s.mscratch
  | .mepc => s.mepc
  | .mcause => packMcause s.cfg.layout.irqBit s.mcauseIrq s.mcauseCause
  | .mip => s.mip

/-- `CsrRead(n)`: a named CSR's value, or what the C port presents, a free value (rules R39, R215). -/
def csrRead (s : State) (n : CsrIdx) : Word :=
  match csrNamed s.cfg n with
  | some r => csrValue s r
  | none => s.freshWord

/-- A read of `n` uses a free value: an unfixed `mstatus`, or a CSR of the C port. -/
def csrReadDraws (c : Config) (n : CsrIdx) : Bool :=
  match csrNamed c n with
  | some .mstatus => c.mstatusOther.isNone
  | some _ => false
  | none => true

/-- The state after `CsrRead(n)`: nothing changes, but a free value that was used is used up (rule R215). -/
def afterCsrRead (s : State) (n : CsrIdx) : State := if csrReadDraws s.cfg n then s.drawn else s

/-- `ReadAction(n)`: nothing for a CSR inside the core; a C-port device is told (rules R39, R215). -/
def readAction (s : State) (n : CsrIdx) : State :=
  match csrNamed s.cfg n with
  | some _ => s
  | none => s.tellDevices [.csrReadAction n]

/-- `CsrWrite` to a CSR inside the core (rule R215). -/
def csrPut (s : State) (v : Word) : CsrName → State
  | .mstatus =>
    { s with
      mstatusMie := v.getLsbD s.cfg.layout.mieBit.val
      mstatusMpie := v.getLsbD s.cfg.layout.mpieBit.val }
  | .mie => { s with mie := v }
  | .mtvec => if s.cfg.mtvecWritable then { s with mtvec := v } else s
  | .mscratch => { s with mscratch := v }
  | .mepc => { s with mepc := v }
  | .mcause =>
    { s with
      mcauseIrq := v.getLsbD s.cfg.layout.irqBit.val
      mcauseCause := unpackCause s.cfg.layout.irqBit v }
  | .mip => s

/-- `CsrWrite(n, v)` and `WriteAction(n, v)`; a write to a C-port CSR goes to its device unless that CSR drops writes
(rules R39, R215, decision D26). -/
def csrWrite (s : State) (n : CsrIdx) (v : Word) : State :=
  match csrNamed s.cfg n with
  | some r => csrPut s v r
  | none =>
    match csrExtra s.cfg n with
    | some e => if e.onWrite = .performed then s.tellDevices [.csrWrite n v] else s
    | none => s

/-- A write to `n` raises the illegal instruction trap: a C-port CSR whose write behaviour is `trap` (decision D26). -/
def csrWriteTraps (c : Config) (n : CsrIdx) : Bool :=
  match csrNamed c n with
  | some _ => false
  | none =>
    match csrExtra c n with
    | some e => e.onWrite == .trap
    | none => false

/-! ### The rule the six instructions share (rule R215) -/

/-- The three manipulations, `fn3[1:0]` = 01, 10, 11. -/
inductive CsrOp where
  | overwrite
  | setBits
  | clearBits
  deriving DecidableEq, Repr

/-- `new` of rule R215. -/
def CsrOp.apply : CsrOp → Word → Word → Word
  | .overwrite, _, src => src
  | .setBits, old, src => old ||| src
  | .clearBits, old, src => old &&& ~~~src

/-- The instruction raises the illegal instruction trap: the CSR is not supported, or (decision D26) it is one whose
write traps and the `rs1` field `f` asks for a write. -/
def csrTraps (c : Config) (n : CsrIdx) (f : BitVec 5) : Bool :=
  !csrSupported c n || (f != 0#5 && csrWriteTraps c n)

/-- The read half: `x[rd] <- old; ReadAction(n)` where `rd` is not 0. -/
def csrReadHalf (s : State) (rd : RegIdx) (n : CsrIdx) (old : Word) : State :=
  if rd = 0#5 then s else readAction (s.setX rd old) n

/-- The write half: `CsrWrite(n, new)` where the `rs1` field `f` is not 0. -/
def csrWriteHalf (s : State) (f : BitVec 5) (n : CsrIdx) (new : Word) : State :=
  if f = 0#5 then s else csrWrite s n new

/-- Common to the six CSR instructions; `f` is the `rs1` field and `src` the source operand (rule R215). -/
def csrInstr (op : CsrOp) (rd : RegIdx) (f : BitVec 5) (src : Word) (n : CsrIdx) (s : State) : Result :=
  if csrTraps s.cfg n f then .next s.raiseIllegal
  else
    .next (csrWriteHalf (csrReadHalf (afterCsrRead s n) rd n (csrRead s n)) f n (op.apply (csrRead s n) src))

end Sys2Proof.Machine
end

