-- ==== Sys2Proof/Machine/System.lean ====
section
/-! DEFINITION. SYSTEM: the six CSR instructions, EBREAK, ECALL, MRET, WFI. -/

namespace Sys2Proof.Machine

/-- CSRRW (rules R215, R216). -/
def execCsrrw (rd rs1 : RegIdx) (csr : CsrIdx) (s : State) : Result :=
  csrInstr .overwrite rd rs1 (s.x rs1) csr s

/-- CSRRS (rules R215, R217). -/
def execCsrrs (rd rs1 : RegIdx) (csr : CsrIdx) (s : State) : Result :=
  csrInstr .setBits rd rs1 (s.x rs1) csr s

/-- CSRRC (rules R215, R218). -/
def execCsrrc (rd rs1 : RegIdx) (csr : CsrIdx) (s : State) : Result :=
  csrInstr .clearBits rd rs1 (s.x rs1) csr s

/-- CSRRWI (rules R215, R219). -/
def execCsrrwi (rd : RegIdx) (uimm : BitVec 5) (csr : CsrIdx) (s : State) : Result :=
  csrInstr .overwrite rd uimm (zext uimm) csr s

/-- CSRRSI (rules R215, R220). -/
def execCsrrsi (rd : RegIdx) (uimm : BitVec 5) (csr : CsrIdx) (s : State) : Result :=
  csrInstr .setBits rd uimm (zext uimm) csr s

/-- CSRRCI (rules R215, R221). -/
def execCsrrci (rd : RegIdx) (uimm : BitVec 5) (csr : CsrIdx) (s : State) : Result :=
  csrInstr .clearBits rd uimm (zext uimm) csr s

/-- EBREAK (rules R222, R243): cause 3. -/
def execEbreak (s : State) : Result := .next (s.trapEnter 3#63 false s.ia)

/-- ECALL (rules R223, R243): cause 2, as the source has it. -/
def execEcall (s : State) : Result := .next (s.trapEnter 2#63 false s.ia)

/-- MRET (rules R224, R254). -/
def execMret (s : State) : Result := .next s.trapReturn

/-- WFI (rule R225, conflict C4): does nothing on this core. -/
def execWfi (s : State) : Result := .next s

end Sys2Proof.Machine
end

