-- ==== Sys2Proof/Machine/Upper.lean ====
section
/-! DEFINITION. AUIPC and LUI. -/

namespace Sys2Proof.Machine

/-- AUIPC (rule R110). -/
def execAuipc (rd : RegIdx) (imm : BitVec 20) (s : State) : Result := .next (s.setX rd (s.ia + upperImm imm))

/-- LUI (rule R145). -/
def execLui (rd : RegIdx) (imm : BitVec 20) (s : State) : Result := .next (s.setX rd (upperImm imm))

end Sys2Proof.Machine
end

