-- ==== Sys2Proof/Machine/Interrupts.lean ====
section
/-! DEFINITION. The instruction boundary: the environment's `mip`, the interrupt condition and entry (rules R249 to
R252), and the fetch (rules R25, R55, R60). -/

namespace Sys2Proof.Machine

/-- The boundary: `mip` takes the environment's next value (rules R35, R250); with none listed it stays (log 11). -/
def State.sampleMip (s : State) : State :=
  match s.mipInputs with
  | [] => s
  | v :: rest => { s with mip := v, mipInputs := rest }

/-- `pending_enabled` (rule R250). -/
def pendingEnabled (s : State) : Word := s.mip &&& s.mie &&& s.cfg.irqSources

/-- `InterruptTaken()` (rule R250). -/
def interruptTaken (s : State) : Bool := s.mstatusMie && pendingEnabled s != 0#64

/-- The bit numbers below `n`, from the highest down (rule R252). -/
def bitsBelow : Nat → List Nat
  | 0 => []
  | n + 1 => n :: bitsBelow n

/-- The order in which sources are taken: `IRQ_PRIORITY`, then the others from the highest down (rule R252; assumption
log 22). -/
def irqOrder (c : Config) : List Nat := c.irqPriority.map (·.val) ++ bitsBelow 64

/-- `InterruptNumber()`: the first source of the order that is pending and enabled (rule R252). -/
def interruptNumber (s : State) : Nat :=
  ((irqOrder s.cfg).find? fun i => (pendingEnabled s).getLsbD i).getD 0

/-- Interrupt entry: `mepc` is the instruction that would have been fetched next (rule R251). -/
def State.takeInterrupt (s : State) : State :=
  s.trapEnter (BitVec.ofNat 63 (interruptNumber s)) true s.pc

/-- `pc` is a multiple of 4 (rules R25 step 3, R60). -/
def pcAligned (s : State) : Bool := aligned s.pc 4

/-- The instruction word `Fetch(pc)` reads (rule R55). -/
def fetchWord (s : State) : InstrWord := (readValue s s.pc 4).setWidth 32

/-- `Fetch(pc)` is admitted (rule R55). -/
def fetchAdmitted (s : State) : Bool := memAdmit s.cfg s.pc 4 .fetch

/-- Steps 2 to 5 of rule R25: `ia <- pc`, the fetch, `pc <- ia + 4`. -/
def State.beginInstr (s : State) : State :=
  { afterRead s s.pc 4 with ia := s.pc, pc := s.pc + 4#64 }

end Sys2Proof.Machine
end

