-- ==== Sys2Proof/Machine/Cycle.lean ====
section
/-! DEFINITION. The instruction cycle of rule R25. -/

namespace Sys2Proof.Machine

/-- Steps 2 to 6 of rule R25: fetch, decode, perform the instruction's rule. -/
def runInstr (s : State) : Result :=
  if pcAligned s then
    if fetchAdmitted s then
      match decode (fetchWord s) with
      | .instr i => exec i s.beginInstr
      | .undefined => rejectEncoding .undefinedEncoding s.beginInstr
      | .unlisted => rejectEncoding .unlistedEncoding s.beginInstr
    else .fault (.unadmittedAccess s.pc 4 .fetch)
  else .refused .fetchMisaligned

/-- One cycle at a boundary where `mip` has its value: the interrupt check comes first (rules R25 step 1, R253). -/
def cycle (s : State) : Result := if interruptTaken s then .next s.takeInterrupt else runInstr s

end Sys2Proof.Machine
end

