-- ==== Sys2Proof/Machine/Step.lean ====
section
/-! DEFINITION. One step, and the placing of an instruction where it fetches. -/

namespace Sys2Proof.Machine

/-- One step: the environment gives `mip` its value, then one cycle (rules R25, R250). -/
def step (s : State) : Host.Outcome State Fault Refusal := cycle s.sampleMip

/-- `s` with the instruction `w` stored, least significant byte first, in the four bytes at `pc`, where the fetch reads
(rule R55). -/
def State.withFetchWord (s : State) (nbits w : Nat) : State :=
  { s with mem := s.mem.writeBytes 4 s.pc (zext (tableWord nbits w)) }

end Sys2Proof.Machine
end

