-- ==== Sys2Proof/Safety.lean ====
section
/-! DEFINITION. The terms claims use: safe runs, the machine's invariant, what an instruction leaves unchanged, and the
spec-level reading of a loaded or stored value. -/

namespace Sys2Proof.Machine

/-- The core takes `k` steps from `s` without being stuck or refused (rule R291). -/
def safeFor (k : Nat) (s : State) : Prop := ∃ t, Sys2Proof.core.run k s = .next t

/-- No listed byte of memory is a device register: "an address `MEM_ADMIT` classes as a device register is not in `M`"
(rule R52). -/
def memOutsideDevices (c : Config) (m : Memory) : Bool := m.all fun e => !isDevice c (BitVec.ofNat 64 e.1)

/-- The machine's invariant: memory is in its canonical form and holds no device register, and in the configuration
every CSR number and every `mstatus` bit means one thing. -/
def State.Inv (s : State) : Bool := s.mem.wf && memOutsideDevices s.cfg s.mem && s.cfg.wf

/-! ### What stays as it was -/

/-- Every general register reads as before. -/
def SameRegs (s t : State) : Prop := ∀ i, t.x i = s.x i

/-- Every byte of memory reads as before. -/
def SameMemory (s t : State) : Prop := ∀ a : Nat, t.mem.read a = s.mem.read a

/-- The CSRs a trap entry or return writes are as before: `mstatus`, `mepc`, `mcause`. -/
def SameTrapCsrs (s t : State) : Prop :=
  t.mstatusMie = s.mstatusMie ∧ t.mstatusMpie = s.mstatusMpie ∧ t.mepc = s.mepc ∧ t.mcauseCause = s.mcauseCause ∧
    t.mcauseIrq = s.mcauseIrq

/-- The other CSRs are as before: `mtvec`, `mip`, `mie`, `mscratch`. -/
def SameOtherCsrs (s t : State) : Prop :=
  t.mtvec = s.mtvec ∧ t.mip = s.mip ∧ t.mie = s.mie ∧ t.mscratch = s.mscratch

/-- All seven CSRs are as before. -/
def SameCsrs (s t : State) : Prop := SameTrapCsrs s t ∧ SameOtherCsrs s t

/-- The configuration and the environment are as before: nothing was handed to a device, no free value was drawn, and
the environment's coming values of `mip` are the same. -/
def SameEnvironment (s t : State) : Prop :=
  t.cfg = s.cfg ∧ t.mipInputs = s.mipInputs ∧ t.deviceLog = s.deviceLog ∧ t.draws = s.draws

/-- `pc` and `ia` are as before. -/
def SameAddresses (s t : State) : Prop := t.pc = s.pc ∧ t.ia = s.ia

/-- The registers of `t` are those of `s` with `v` in `rd`; a write to `X0` is discarded (rule R21). -/
def RegsWith (s t : State) (rd : RegIdx) (v : Word) : Prop :=
  ∀ i, t.x i = if i = 0#5 then 0#64 else if i = rd then v else s.x i

/-- `t` is `s` with `v` written to `rd`, and with nothing else changed. -/
def WritesOnly (s t : State) (rd : RegIdx) (v : Word) : Prop :=
  RegsWith s t rd v ∧ SameAddresses s t ∧ SameCsrs s t ∧ SameEnvironment s t ∧ SameMemory s t

/-- Instruction `i` completes at `s` with `v` in `rd` and nothing else changed. -/
def Computes (s : State) (i : Instr) (rd : RegIdx) (v : Word) : Prop :=
  ∃ t, exec i s = .next t ∧ WritesOnly s t rd v

/-- Instruction `i` completes at `s` with a value in `rd` whose bit `j` is `f j`, and nothing else changed. -/
def ComputesBits (s : State) (i : Instr) (rd : RegIdx) (f : Nat → Bool) : Prop :=
  ∃ v : Word, (∀ j, j < 64 → v.getLsbD j = f j) ∧ Computes s i rd v

/-- Instruction `i` completes at `s` with `pc` at `target`, `rd` holding `v`, and nothing else changed. -/
def JumpsTo (s : State) (i : Instr) (rd : RegIdx) (v target : Word) : Prop :=
  ∃ t, exec i s = .next t ∧ t.pc = target ∧ RegsWith s t rd v ∧ t.ia = s.ia ∧ SameCsrs s t ∧ SameEnvironment s t ∧
    SameMemory s t

/-- `t` is `s` after a trap entry with these values, and with nothing else changed (rules R241, R242). -/
def TrapTaken (s t : State) (cause : Cause) (irq : Bool) (epc : Word) : Prop :=
  t.mstatusMpie = s.mstatusMie ∧ t.mstatusMie = false ∧ t.mepc = epc ∧ t.mcauseCause = cause ∧ t.mcauseIrq = irq ∧
    t.pc = s.mtvec ∧ t.ia = s.ia ∧ SameRegs s t ∧ SameOtherCsrs s t ∧ SameEnvironment s t ∧ SameMemory s t

/-- Instruction `i` raises an exception at `s` (rule R242): the trap is taken with `ia` in `mepc`. -/
def Raises (s : State) (i : Instr) (cause : Cause) : Prop :=
  ∃ t, exec i s = .next t ∧ TrapTaken s t cause false s.ia

/-- An encoding without a meaning is rejected at `s` by `ENC_POLICY`: refused as `r`, or trapped (rules R91, R92,
R244). -/
def RejectedAs (o : Result) (s : State) (r : Refusal) : Prop :=
  (s.cfg.encPolicy = .refuse → o = .refused r) ∧
    (s.cfg.encPolicy = .illegalInstructionTrap →
      ∃ t, o = .next t ∧ TrapTaken s t s.cfg.causeIllegal false s.ia)

/-! ### Values in memory -/

/-- Address `a + k`, modulo 2^64 (rule R53). -/
def plus (a : Word) (k : Nat) : Word := a + BitVec.ofNat 64 k

/-- The `n` bytes at `a` are admitted for this kind of access and none of them is a device register. -/
def OrdinaryAccess (s : State) (a : Word) (n : Nat) (k : AccessKind) : Prop :=
  memAdmit s.cfg a n k = true ∧ touchesDevice s.cfg n a = false

/-- `v` is the `n`-byte value at `a`, byte `j` of it (bits `8j+7:8j`) at `a + j`, extended to 64 bits with its sign bit
or with zeros (rules R51, R53, R130). -/
def LoadedValue (s : State) (a : Word) (n : Nat) (signed : Bool) (v : Word) : Prop :=
  (∀ j, j < n → v.extractLsb' (8 * j) 8 = s.mem.read (plus a j).toNat) ∧
    ∀ j, 8 * n ≤ j → j < 64 → v.getLsbD j = (signed && v.getLsbD (8 * n - 1))

/-- The `n` bytes at `a` hold the low `8n` bits of `v`, and every other byte reads as before (rules R51, R54). -/
def StoresOnly (s t : State) (a : Word) (n : Nat) (v : Word) : Prop :=
  (∀ j, j < n → t.mem.read (plus a j).toNat = v.extractLsb' (8 * j) 8) ∧
    ∀ b : Nat, (∀ j, j < n → b ≠ (plus a j).toNat) → t.mem.read b = s.mem.read b

/-- The address an `n`-byte access at `a` is performed at, where no alignment exception is raised (rules R53, R54, R58,
R59). -/
def PerformedAt (s : State) (a : Word) (n : Nat) (p : Word) : Prop :=
  (a.toNat % n = 0 ∧ p = a) ∨
    (a.toNat % n ≠ 0 ∧ s.cfg.misalign = .mask ∧ p.toNat = a.toNat - a.toNat % n) ∨
    (a.toNat % n ≠ 0 ∧ s.cfg.misalign = .split ∧ p = a)

/-- Load `i` completes at `s` with the `n`-byte value at `a` in `rd`, extended, and nothing else changed. -/
def LoadsFrom (s : State) (i : Instr) (rd : RegIdx) (a : Word) (n : Nat) (signed : Bool) : Prop :=
  ∃ v, LoadedValue s a n signed v ∧ Computes s i rd v

/-- Store `i` completes at `s` with the low `8n` bits of `v` in the `n` bytes at `a`, and nothing else changed. -/
def StoresTo (s : State) (i : Instr) (a : Word) (n : Nat) (v : Word) : Prop :=
  ∃ t, exec i s = .next t ∧ StoresOnly s t a n v ∧ SameRegs s t ∧ SameAddresses s t ∧ SameCsrs s t ∧ SameEnvironment s t

/-- The byte reads a misaligned `n`-byte load at `a` makes of devices, from the lowest address up (rules R59, R62). -/
def deviceByteReads (s : State) (a : Word) (n : Nat) : List DeviceEvent :=
  ((List.range n).filter fun j => isDevice s.cfg (plus a j)).map fun j => .memRead (plus a j) 1

/-- The byte writes a misaligned `n`-byte store of `v` at `a` makes to devices, from the lowest address up (rules R59,
R62). -/
def deviceByteWrites (s : State) (a : Word) (n : Nat) (v : Word) : List DeviceEvent :=
  ((List.range n).filter fun j => isDevice s.cfg (plus a j)).map fun j =>
    .memWrite (plus a j) 1 ((v.extractLsb' (8 * j) 8).setWidth 64)

/-! ### The families by their forms -/

/-- The eight loads: the instruction, its size in bytes, whether it sign-extends (rule R130). -/
def loadForms (rd rs1 : RegIdx) (imm : BitVec 12) : List (Instr × Nat × Bool) :=
  [(.lb rd rs1 imm, 1, true), (.lh rd rs1 imm, 2, true), (.lw rd rs1 imm, 4, true), (.ld rd rs1 imm, 8, true),
    (.lbu rd rs1 imm, 1, false), (.lhu rd rs1 imm, 2, false), (.lwu rd rs1 imm, 4, false), (.ldu rd rs1 imm, 8, false)]

/-- The four stores: the instruction and its size in bytes (rule R205). -/
def storeForms (rs1 rs2 : RegIdx) (imm : BitVec 12) : List (Instr × Nat) :=
  [(.sb rs1 rs2 imm, 1), (.sh rs1 rs2 imm, 2), (.sw rs1 rs2 imm, 4), (.sd rs1 rs2 imm, 8)]

/-- The six branches: the instruction and whether its condition holds (rules R116 to R121). -/
def branchForms (s : State) (rs1 rs2 : RegIdx) (disp : BitVec 13) : List (Instr × Nat × Bool) :=
  [(.beq rs1 rs2 disp, 0b000, decide ((s.x rs1).toNat = (s.x rs2).toNat)),
    (.bne rs1 rs2 disp, 0b001, decide ((s.x rs1).toNat ≠ (s.x rs2).toNat)),
    (.blt rs1 rs2 disp, 0b100, decide ((s.x rs1).toInt < (s.x rs2).toInt)),
    (.bge rs1 rs2 disp, 0b101, decide ((s.x rs2).toInt ≤ (s.x rs1).toInt)),
    (.bltu rs1 rs2 disp, 0b110, decide ((s.x rs1).toNat < (s.x rs2).toNat)),
    (.bgeu rs1 rs2 disp, 0b111, decide ((s.x rs2).toNat ≤ (s.x rs1).toNat))]

/-- The six CSR instructions on CSR `n` with destination `rd` and `rs1` field `f`: the instruction, and `new` as a
function of `old` (rules R215 to R221). -/
def csrForms (s : State) (rd : RegIdx) (f : BitVec 5) (n : CsrIdx) : List (Instr × (Word → Word)) :=
  [(.csrrw rd f n, fun _ => s.x f), (.csrrs rd f n, fun old => old ||| s.x f),
    (.csrrc rd f n, fun old => old &&& ~~~(s.x f)), (.csrrwi rd f n, fun _ => BitVec.ofNat 64 f.toNat),
    (.csrrsi rd f n, fun old => old ||| BitVec.ofNat 64 f.toNat),
    (.csrrci rd f n, fun old => old &&& ~~~(BitVec.ofNat 64 f.toNat))]

/-! ### CSRs -/

/-- `v` shows `mstatus`: its two fields at their positions, and the other bits as the configuration fixes them, where
it does (rule R31). -/
def MstatusReads (s : State) (v : Word) : Prop :=
  v.getLsbD s.cfg.layout.mieBit.val = s.mstatusMie ∧ v.getLsbD s.cfg.layout.mpieBit.val = s.mstatusMpie ∧
    ∀ w, s.cfg.mstatusOther = some w → ∀ j, j < 64 → j ≠ s.cfg.layout.mieBit.val → j ≠ s.cfg.layout.mpieBit.val →
      v.getLsbD j = w.getLsbD j

/-- `v` shows `mcause`: `irq` at its position, the bits of `cause` around it in order (rule R33). -/
def McauseReads (s : State) (v : Word) : Prop :=
  v.getLsbD s.cfg.layout.irqBit.val = s.mcauseIrq ∧
    (∀ j, j < s.cfg.layout.irqBit.val → v.getLsbD j = s.mcauseCause.getLsbD j) ∧
    ∀ j, s.cfg.layout.irqBit.val < j → j < 64 → v.getLsbD j = s.mcauseCause.getLsbD (j - 1)

/-- `mcause` is as before. -/
def SameMcause (s t : State) : Prop := t.mcauseCause = s.mcauseCause ∧ t.mcauseIrq = s.mcauseIrq

/-- `mstatus` is as before. -/
def SameMstatus (s t : State) : Prop := t.mstatusMie = s.mstatusMie ∧ t.mstatusMpie = s.mstatusMpie

/-! ### The instruction boundary -/

/-- Source `j` is pending and enabled: its bits of `mip`, of `mie` and of `IRQ_SOURCES` are 1 (rule R250). -/
def Interrupting (s : State) (j : Nat) : Prop :=
  s.mip.getLsbD j = true ∧ s.mie.getLsbD j = true ∧ s.cfg.irqSources.getLsbD j = true

/-- No interrupt is taken: interrupts are globally disabled, or no source is pending and enabled (rule R250). -/
def NoInterrupt (s : State) : Prop := s.mstatusMie = false ∨ ∀ j, j < 64 → ¬Interrupting s j

/-- The four bytes at `a` hold the instruction word `w`, least significant byte first (rule R55). -/
def HoldsWord (m : Memory) (a : Word) (w : InstrWord) : Prop :=
  ∀ j, j < 4 → m.read (plus a j).toNat = w.extractLsb' (8 * j) 8

/-- At the boundary `s` (with `mip` sampled) an instruction is fetched: no interrupt, `pc` a multiple of 4, and the four
bytes there, ordinary memory that admits the fetch, hold `w` (rule R25 steps 1 to 4). -/
def Fetches (s : State) (w : InstrWord) : Prop :=
  NoInterrupt s ∧ s.pc.toNat % 4 = 0 ∧ OrdinaryAccess s s.pc 4 .fetch ∧ HoldsWord s.mem s.pc w

/-- The state in which the fetched instruction is performed: `ia` at it, `pc` after it (rule R25 steps 2 and 5). -/
def State.atInstr (s : State) : State := { s with ia := s.pc, pc := s.pc + 4#64 }

/-! ### Encodings -/

/-- `i` is encoded as `w`, and `w` decodes to `i`. -/
def HasWord (i : Instr) (w : InstrWord) : Prop := encode i = w ∧ decode w = .instr i

/-- The word of `i` has these values in these fields, each written (lowest bit, width, value), and decodes to `i`. -/
def EncodedAs (i : Instr) (fields : List (Nat × Nat × Nat)) : Prop :=
  (∀ f ∈ fields, ((encode i).extractLsb' f.1 f.2.1).toNat = f.2.2) ∧ decode (encode i) = .instr i

/-- The fields of format R, all 32 bits (rule R86). -/
def fieldsR (fn7 fn3 op : Nat) (rd rs1 rs2 : RegIdx) : List (Nat × Nat × Nat) :=
  [(25, 7, fn7), (20, 5, rs2.toNat), (15, 5, rs1.toNat), (12, 3, fn3), (7, 5, rd.toNat), (0, 7, op)]

/-- The fields of format I, all 32 bits (rule R85). -/
def fieldsI (fn3 op : Nat) (rd rs1 : BitVec 5) (imm : BitVec 12) : List (Nat × Nat × Nat) :=
  [(20, 12, imm.toNat), (15, 5, rs1.toNat), (12, 3, fn3), (7, 5, rd.toNat), (0, 7, op)]

/-- The fields of an immediate shift, all 32 bits (rule R187). -/
def fieldsShift (fn6 fn3 op : Nat) (rd rs1 : RegIdx) (shamt : BitVec 6) : List (Nat × Nat × Nat) :=
  [(26, 6, fn6), (20, 6, shamt.toNat), (15, 5, rs1.toNat), (12, 3, fn3), (7, 5, rd.toNat), (0, 7, op)]

/-- The fields of format S, all 32 bits: displacement bits 11:5 and 4:0 apart (rule R87). -/
def fieldsS (fn3 op : Nat) (rs1 rs2 : RegIdx) (imm : BitVec 12) : List (Nat × Nat × Nat) :=
  [(25, 7, imm.toNat / 2 ^ 5), (20, 5, rs2.toNat), (15, 5, rs1.toNat), (12, 3, fn3), (7, 5, imm.toNat % 2 ^ 5), (0, 7, op)]

/-- The fields of format B, all 32 bits: displacement bits 12, 10:5, 4:1 and 11 (rule R83). -/
def fieldsB (fn3 op : Nat) (rs1 rs2 : RegIdx) (disp : BitVec 13) : List (Nat × Nat × Nat) :=
  [(31, 1, disp.toNat / 2 ^ 12), (25, 6, disp.toNat / 2 ^ 5 % 2 ^ 6), (20, 5, rs2.toNat), (15, 5, rs1.toNat), (12, 3, fn3),
    (8, 4, disp.toNat / 2 % 2 ^ 4), (7, 1, disp.toNat / 2 ^ 11 % 2), (0, 7, op)]

/-- The fields of format U, all 32 bits (rule R82). -/
def fieldsU (op : Nat) (rd : RegIdx) (imm : BitVec 20) : List (Nat × Nat × Nat) :=
  [(12, 20, imm.toNat), (7, 5, rd.toNat), (0, 7, op)]

/-- The fields of format J, all 32 bits: displacement bits 20, 10:1, 11 and 19:12 (rule R84). -/
def fieldsJ (op : Nat) (rd : RegIdx) (disp : BitVec 21) : List (Nat × Nat × Nat) :=
  [(31, 1, disp.toNat / 2 ^ 20), (21, 10, disp.toNat / 2 % 2 ^ 10), (20, 1, disp.toNat / 2 ^ 11 % 2),
    (12, 8, disp.toNat / 2 ^ 12 % 2 ^ 8), (7, 5, rd.toNat), (0, 7, op)]

end Sys2Proof.Machine
end

