-- ==== Sys2Proof/Certificates/Slice0/Obligations.lean ====
section
/-! DEFINITION. The statements for the provers. `exec` runs at a state whose `pc` is already `ia + 4` (rule R25 step 5,
`Obligations.StepRunsDecodedInstruction`): "the pc is unchanged" there is "the pc after is `ia + 4`" of the rules. -/

open Sys2Proof Sys2Proof.Machine

/-! ### Reset, the state, the cycle -/

/-- Reset (rule R281: "its first instruction cycle begins with `pc = RESET_PC`"; rule R43's parameters; `mip` is the
environment's, for every list of its coming values), and the zeros that are the MODEL's choice: assumption log 7
(registers), 10 (memory) and 5 (the list of `State.reset`). -/
def Obligations.ResetValues : Prop := ∀ (c : Config) (env : List Word) (s : State), s = State.resetWith c env →
  s.cfg = c ∧ s.pc = c.resetPc ∧ s.mtvec = c.resetMtvec ∧ s.mstatusMie = c.resetMstatusMie ∧
    s.mstatusMpie = c.resetMstatusMpie ∧ s.mie = c.resetMie ∧ s.mipInputs = env ∧ (∀ i, s.x i = 0#64) ∧ s.mepc = 0#64 ∧
    s.mcauseCause = 0#63 ∧ s.mcauseIrq = false ∧ s.mscratch = 0#64 ∧ s.mip = 0#64 ∧ (∀ a, s.mem.read a = 0#8) ∧
    State.reset = State.resetWith defaultConfig []

/-- The reset state of every well-formed configuration meets the invariant, whatever the environment does, and the default
configuration is one. -/
def Obligations.ResetMeetsInvariant : Prop :=
  (∀ (c : Config) (env : List Word), c.wf = true → (State.resetWith c env).Inv = true) ∧ State.reset.Inv = true

/-- Every step keeps the invariant: memory stays canonical and free of device registers, the configuration well formed. -/
def Obligations.StepKeepsInvariant : Prop := ∀ s t : State, s.Inv = true → step s = .next t → t.Inv = true

/-- No step changes the configuration (rule R44). -/
def Obligations.StepKeepsConfiguration : Prop := ∀ s t : State, step s = .next t → t.cfg = s.cfg

/-- The boundary: `mip` takes the environment's next value and nothing else changes (rules R35, R250); with no value listed
it stays, which is the MODEL's choice (assumption log 11). -/
def Obligations.BoundarySamplesMip : Prop := ∀ s : State,
  (s.mipInputs = [] → s.sampleMip = s) ∧
    ∀ v rest, s.mipInputs = v :: rest → s.sampleMip = { s with mip := v, mipInputs := rest }

/-- A step runs the decoded instruction: with no interrupt taken, where the four bytes at `pc`, ordinary memory, decode to
`i`, the step is `exec i` at the boundary's state with `ia` at the instruction and `pc` after it (rule R25). -/
def Obligations.StepRunsDecodedInstruction : Prop := ∀ (s : State) (w : InstrWord) (i : Instr),
  Fetches s.sampleMip w → decode w = .instr i → step s = exec i s.sampleMip.atInstr

/-- A pending enabled interrupt is taken before the fetch, with an interrupting source's number as the cause and `pc` saved
(rules R250, R251, R253; decisions D17, D29). -/
def Obligations.InterruptTakenFirst : Prop := ∀ s : State,
  s.sampleMip.mstatusMie = true → (∃ j, j < 64 ∧ Interrupting s.sampleMip j) →
    ∃ t n, step s = .next t ∧ n < 64 ∧ Interrupting s.sampleMip n ∧
      TrapTaken s.sampleMip t (BitVec.ofNat 63 n) true s.pc

/-- Which source is taken (rule R252): the first of `IRQ_PRIORITY` that is pending and enabled; if none of the list is, the
highest that is. -/
def Obligations.InterruptPriority : Prop := ∀ (s t : State), s.sampleMip.mstatusMie = true → step s = .next t →
  (∀ p i q, s.cfg.irqPriority = p ++ i :: q → Interrupting s.sampleMip i.val →
      (∀ k ∈ p, ¬Interrupting s.sampleMip k.val) → t.mcauseCause = BitVec.ofNat 63 i.val ∧ t.mcauseIrq = true) ∧
    ∀ n, n < 64 → Interrupting s.sampleMip n → (∀ k ∈ s.cfg.irqPriority, ¬Interrupting s.sampleMip k.val) →
      (∀ j, n < j → j < 64 → ¬Interrupting s.sampleMip j) → t.mcauseCause = BitVec.ofNat 63 n ∧ t.mcauseIrq = true

/-- A word without a meaning, fetched from ordinary memory, is handled by `ENC_POLICY` and by nothing else (rules R91, R92; decision D2). -/
def Obligations.EncodingWithoutMeaning : Prop := ∀ (s : State) (w : InstrWord), Fetches s.sampleMip w →
  (decode w = .undefined → RejectedAs (step s) s.sampleMip.atInstr .undefinedEncoding) ∧
    (decode w = .unlisted → RejectedAs (step s) s.sampleMip.atInstr .unlistedEncoding)

/-- A fetch that touches a device register: the device's bytes of the word are any value, memory's are as they are, the read
is handed to the device (both the MODEL's, assumption log 2 and 12), and the word is run or handled as any other (rules R25,
R52, R55, R91, R92). -/
def Obligations.StepRunsWordFetchedFromDevice : Prop := ∀ s : State, NoInterrupt s.sampleMip → s.pc.toNat % 4 = 0 →
  memAdmit s.cfg s.pc 4 .fetch = true → touchesDevice s.cfg 4 s.pc = true →
    ∃ (w : InstrWord) (b : State),
      (∀ j, j < 4 → isDevice s.cfg (plus s.pc j) = false → w.extractLsb' (8 * j) 8 = s.mem.read (plus s.pc j).toNat) ∧
        b = { s.sampleMip.atInstr with draws := s.draws + 1, deviceLog := s.deviceLog ++ [.memRead s.pc 4] } ∧
        (∀ i, decode w = .instr i → step s = exec i b) ∧
        (decode w = .undefined → RejectedAs (step s) b .undefinedEncoding) ∧
        (decode w = .unlisted → RejectedAs (step s) b .unlistedEncoding)

/-- A fetch from a `pc` that is not a multiple of 4 is refused, after the interrupt check (rules R60, R253; decision D6). -/
def Obligations.MisalignedFetchRefused : Prop := ∀ s : State,
  NoInterrupt s.sampleMip → s.pc.toNat % 4 ≠ 0 → step s = .refused .fetchMisaligned

/-- An access to an address `MEM_ADMIT` does not admit leaves the core stuck: the fetch, the eight loads with `rd` not 0
and the four stores, at the address the access is performed at (rule R72; decision D27). -/
def Obligations.UnadmittedAccessIsStuck : Prop := ∀ s : State,
  (NoInterrupt s.sampleMip → s.pc.toNat % 4 = 0 → memAdmit s.cfg s.pc 4 .fetch = false →
      step s = .fault (.unadmittedAccess s.pc 4 .fetch)) ∧
    (∀ rd rs1 imm, ∀ l ∈ loadForms rd rs1 imm, ∀ p, rd ≠ 0#5 → PerformedAt s (baseDisp s rs1 imm) l.2.1 p →
      memAdmit s.cfg p l.2.1 .read = false → exec l.1 s = .fault (.unadmittedAccess p l.2.1 .read)) ∧
    ∀ rs1 rs2 imm, ∀ l ∈ storeForms rs1 rs2 imm, ∀ p, PerformedAt s (baseDisp s rs1 imm) l.2 p →
      memAdmit s.cfg p l.2 .write = false → exec l.1 s = .fault (.unadmittedAccess p l.2 .write)

/-- `X0` reads 0 and discards writes; a write to any other register changes that register only (rules R20, R21). -/
def Obligations.RegisterFile : Prop := ∀ (s : State) (r : RegIdx) (v : Word),
  s.x 0#5 = 0#64 ∧ s.setX 0#5 v = s ∧ RegsWith s (s.setX r v) r v ∧ SameAddresses s (s.setX r v) ∧
    SameCsrs s (s.setX r v) ∧ SameEnvironment s (s.setX r v) ∧ SameMemory s (s.setX r v)

/-- Memory is a map from addresses to bytes: a canonical memory reads at an address what was last written there, a write
leaves every other address alone, and the form is kept; equal contents are equal data (rule R52). -/
def Obligations.MemoryIsAMap : Prop := ∀ (m : Memory) (a : Nat) (b : Byte), m.wf = true → a < 2 ^ 64 →
  (m.write a b).read a = b ∧ (∀ c, c ≠ a → (m.write a b).read c = m.read c) ∧ (m.write a b).wf = true ∧
    ∀ m' : Memory, m'.wf = true → (∀ c, m.read c = m'.read c) → m = m'

/-! ### Encodings -/

/-- Every well-formed instruction's word decodes to it (rules R82 to R90). -/
def Obligations.DecodeOfEncode : Prop := ∀ i : Instr, i.wf = true → decode (encode i) = .instr i

/-- Every word that decodes to an instruction is that instruction's word, and the instruction is well formed: no two words
mean the same instruction and no bit of a word is dropped. -/
def Obligations.EncodeOfDecode : Prop := ∀ (w : InstrWord) (i : Instr), decode w = .instr i → encode i = w ∧ i.wf = true

/-- One word of each family, written out from the spec's encodings and examples. -/
def Obligations.WrittenOutWords : Prop :=
  HasWord (.auipc 5 0xFFFFF) 0xFFFFF297#32 ∧ HasWord (.lui 5 0x12345) 0x123452B7#32 ∧
    HasWord (.beq 5 6 8) 0x00628463#32 ∧ HasWord (.jal 0 0x1FFFF8) 0xFF9FF06F#32 ∧ HasWord (.jalr 5 5 0xFFC) 0xFFC282E7#32 ∧
    HasWord (.lb 6 10 0) 0x00050303#32 ∧ HasWord (.sb 10 5 0) 0x00550023#32 ∧ HasWord (.fence 0xF 0xF) 0x0FF0000F#32 ∧
    HasWord (.sub 7 5 6) 0x406283B3#32 ∧ HasWord (.sraw 7 5 6) 0x4062D3BB#32 ∧ HasWord (.xorW 7 5 6) 0x0062C3BB#32 ∧
    HasWord (.xori 6 5 0xFFF) 0xFFF2C313#32 ∧ HasWord (.srai 6 5 4) 0x4042D313#32 ∧ HasWord (.addiw 6 5 1) 0x0012831B#32 ∧
    HasWord (.csrrw 6 5 0x340) 0x34029373#32 ∧ HasWord (.csrrci 6 8 0x300) 0x30047373#32 ∧ HasWord .mret 0x30200073#32

/-- The words of the loads, the stores, the ten unnamed `w` forms and the CSR instructions, field by field (rules R85 to R87,
R130, R173, R197, R205, R215); the other instructions' words stand in the statements of their results. -/
def Obligations.EncodingTables : Prop := ∀ (rd rs1 rs2 f : BitVec 5) (imm csr : BitVec 12),
  (∀ l ∈ [(Instr.lb rd rs1 imm, 0b000), (.lh rd rs1 imm, 0b001), (.lw rd rs1 imm, 0b010), (.ld rd rs1 imm, 0b011),
      (.lbu rd rs1 imm, 0b100), (.lhu rd rs1 imm, 0b101), (.lwu rd rs1 imm, 0b110), (.ldu rd rs1 imm, 0b111)],
      EncodedAs l.1 (fieldsI l.2 0b0000011 rd rs1 imm)) ∧
    (∀ l ∈ [(Instr.sb rs1 rs2 imm, 0b000), (.sh rs1 rs2 imm, 0b001), (.sw rs1 rs2 imm, 0b010), (.sd rs1 rs2 imm, 0b011)],
      EncodedAs l.1 (fieldsS l.2 0b0100011 rs1 rs2 imm)) ∧
    (∀ l ∈ [(Instr.sltW rd rs1 rs2, 0b010), (.sltuW rd rs1 rs2, 0b011), (.xorW rd rs1 rs2, 0b100),
        (.orW rd rs1 rs2, 0b110), (.andW rd rs1 rs2, 0b111)], EncodedAs l.1 (fieldsR 0 l.2 0b0111011 rd rs1 rs2)) ∧
    (∀ l ∈ [(Instr.sltiW rd rs1 imm, 0b010), (.sltiuW rd rs1 imm, 0b011), (.xoriW rd rs1 imm, 0b100),
        (.oriW rd rs1 imm, 0b110), (.andiW rd rs1 imm, 0b111)], EncodedAs l.1 (fieldsI l.2 0b0011011 rd rs1 imm)) ∧
    ∀ l ∈ [(Instr.csrrw rd f csr, 0b001), (.csrrs rd f csr, 0b010), (.csrrc rd f csr, 0b011), (.csrrwi rd f csr, 0b101),
        (.csrrsi rd f csr, 0b110), (.csrrci rd f csr, 0b111)], EncodedAs l.1 (fieldsI l.2 0b1110011 rd f csr)

/-- The undefined encodings are exactly those of rule R91, read with rule R92 (e) and (f) on the bits above. -/
def Obligations.UndefinedEncodings : Prop := ∀ w : InstrWord, decode w = .undefined ↔
  (opcodeOf w = 0b1100011#7 ∧ (fn3Of w = 0b010#3 ∨ fn3Of w = 0b011#3)) ∨
    ((opcodeOf w = 0b0110011#7 ∨ opcodeOf w = 0b0111011#7) ∧ fn7Of w = 0b0100000#7 ∧
      fn3Of w ≠ 0b000#3 ∧ fn3Of w ≠ 0b101#3) ∨
    (opcodeOf w = 0b0100011#7 ∧ 4 ≤ (fn3Of w).toNat) ∨
    ((opcodeOf w = 0b0010011#7 ∨ opcodeOf w = 0b0011011#7) ∧ fn3Of w = 0b001#3 ∧ fn6Of w = 0b010000#6)

/-- The unlisted encodings are exactly those of rule R92 (a) to (g). -/
def Obligations.UnlistedEncodings : Prop := ∀ w : InstrWord, decode w = .unlisted ↔
  opcodeOf w ∉ [0b0010111#7, 0b0110111#7, 0b1101111#7, 0b1100111#7, 0b1100011#7, 0b0000011#7, 0b0100011#7, 0b0001111#7,
      0b0110011#7, 0b0111011#7, 0b0010011#7, 0b0011011#7, 0b1110011#7] ∨
    (opcodeOf w = 0b1100111#7 ∧ fn3Of w ≠ 0#3) ∨
    (opcodeOf w = 0b0001111#7 ∧ (rs1Of w ≠ 0#5 ∨ rdOf w ≠ 0#5 ∨ 1 < (fn3Of w).toNat ∨
      (fn3Of w = 0#3 ∧ 256 ≤ (immIOf w).toNat) ∨ (fn3Of w = 1#3 ∧ immIOf w ≠ 0#12))) ∨
    ((opcodeOf w = 0b0110011#7 ∨ opcodeOf w = 0b0111011#7) ∧ fn7Of w ≠ 0#7 ∧ fn7Of w ≠ 0b0100000#7) ∨
    ((opcodeOf w = 0b0010011#7 ∨ opcodeOf w = 0b0011011#7) ∧ (fn3Of w = 0b001#3 ∨ fn3Of w = 0b101#3) ∧ fn6Of w ≠ 0#6 ∧
      fn6Of w ≠ 0b010000#6) ∨
    (opcodeOf w = 0b1110011#7 ∧ (fn3Of w = 0b100#3 ∨ (fn3Of w = 0b000#3 ∧
      (rs1Of w ≠ 0#5 ∨ rdOf w ≠ 0#5 ∨ immIOf w ∉ [0x000#12, 0x001#12, 0x302#12, 0x105#12]))))

/-! ### What no instruction does: rules over all of them -/

/-- Only the control-flow instructions and traps assign `pc` (rule R26), and an instruction that raises an exception changes
nothing but what trap entry writes (rules R241, R242): whatever instruction completes, its `pc` is the successor in line, or
it is a branch, JAL, JALR or MRET, or the whole outcome is a trap entry with `irq` 0 and `ia` in `mepc`. `ia` stays. -/
def Obligations.OnlyControlFlowAndTrapsSetPc : Prop := ∀ (i : Instr) (s t : State), exec i s = .next t →
  t.ia = s.ia ∧
    (t.pc = s.pc ∨ (∃ rs1 rs2 d, ∃ b ∈ branchForms s rs1 rs2 d, i = b.1) ∨ (∃ rd d, i = .jal rd d) ∨
      (∃ rd rs1 imm, i = .jalr rd rs1 imm) ∨ i = .mret ∨ ∃ c, TrapTaken s t c false s.ia)

/-- Memory changes only by SB, SH, SW, SD (rules R41, R54). -/
def Obligations.OnlyStoresChangeMemory : Prop := ∀ (i : Instr) (s t : State), exec i s = .next t →
  t.mem = s.mem ∨ ∃ rs1 rs2 imm, ∃ l ∈ storeForms rs1 rs2 imm, i = l.1

/-- `mtvec`, `mie` and `mscratch` change only by a CSR instruction that names them with a non-zero `rs1` field, and `mip` by
no instruction at all (rules R34 to R37; the dropped write is decision D23). -/
def Obligations.OnlyCsrInstructionsChangeMtvecMieMscratch : Prop := ∀ (i : Instr) (s t : State), exec i s = .next t →
  t.mip = s.mip ∧
    (t.mtvec = s.mtvec ∨ s.cfg.mtvecWritable = true ∧ ∃ rd f, f ≠ 0#5 ∧ ∃ p ∈ csrForms s rd f s.cfg.csrNum.mtvec, i = p.1) ∧
    (t.mie = s.mie ∨ ∃ rd f, f ≠ 0#5 ∧ ∃ p ∈ csrForms s rd f s.cfg.csrNum.mie, i = p.1) ∧
    (t.mscratch = s.mscratch ∨ ∃ rd f, f ≠ 0#5 ∧ ∃ p ∈ csrForms s rd f s.cfg.csrNum.mscratch, i = p.1)

/-- `mstatus`, `mepc` and `mcause` change only by a trap entry, by MRET (`mstatus` alone) or by a CSR instruction that names
them with a non-zero `rs1` field (rules R31 to R33). -/
def Obligations.WhatChangesMstatusMepcMcause : Prop := ∀ (i : Instr) (s t : State), exec i s = .next t →
  (∃ c, TrapTaken s t c false s.ia) ∨
    ((SameMstatus s t ∨ i = .mret ∨ ∃ rd f, f ≠ 0#5 ∧ ∃ p ∈ csrForms s rd f s.cfg.csrNum.mstatus, i = p.1) ∧
      (t.mepc = s.mepc ∨ ∃ rd f, f ≠ 0#5 ∧ ∃ p ∈ csrForms s rd f s.cfg.csrNum.mepc, i = p.1) ∧
      (SameMcause s t ∨ ∃ rd f, f ≠ 0#5 ∧ ∃ p ∈ csrForms s rd f s.cfg.csrNum.mcause, i = p.1))

/-- An `rs1` field of 0 never writes a CSR, in any of the six CSR instructions: the seven stay, and no write is handed to the
C port, at most the read (rules R215, R216). -/
def Obligations.ZeroFieldNeverWritesACsr : Prop := ∀ (s t : State) (rd : RegIdx) (n : CsrIdx),
  ∀ p ∈ csrForms s rd 0#5 n, exec p.1 s = .next t →
    (SameCsrs s t ∧ t.pc = s.pc ∧ (t.deviceLog = s.deviceLog ∨ t.deviceLog = s.deviceLog ++ [.csrReadAction n])) ∨
      TrapTaken s t s.cfg.causeIllegal false s.ia

/-! ### AUIPC, LUI, BRANCH, JAL, JALR -/

/-- AUIPC: `ia` plus the field times 4096 as a signed 32-bit number, modulo 2^64, to `rd` (rule R110). -/
def Obligations.AuipcResult : Prop := ∀ (s : State) (rd : RegIdx) (imm : BitVec 20),
  Computes s (.auipc rd imm) rd (BitVec.ofInt 64 (s.ia.toInt + imm.toInt * 4096)) ∧
    EncodedAs (.auipc rd imm) (fieldsU 0b0010111 rd imm)

/-- LUI: the field times 4096 as a signed 32-bit number to `rd` (rule R145). -/
def Obligations.LuiResult : Prop := ∀ (s : State) (rd : RegIdx) (imm : BitVec 20),
  Computes s (.lui rd imm) rd (BitVec.ofInt 64 (imm.toInt * 4096)) ∧ EncodedAs (.lui rd imm) (fieldsU 0b0110111 rd imm)

/-- The six branches: `pc` to `ia` plus the signed displacement where the condition holds, else to `ia + 4`, modulo 2^64,
and nothing else changes (rules R115 to R121). -/
def Obligations.Branches : Prop := ∀ (s : State) (rs1 rs2 : RegIdx) (d : BitVec 13),
  ∀ b ∈ branchForms s rs1 rs2 d,
    JumpsTo s b.1 0#5 0#64
        (if b.2.2 then BitVec.ofInt 64 (s.ia.toInt + d.toInt) else BitVec.ofInt 64 (s.ia.toInt + 4)) ∧
      (d.getLsbD 0 = false → EncodedAs b.1 (fieldsB b.2.1 0b1100011 rs1 rs2 d))

/-- JAL: `ia + 4` to `rd`, `pc` to `ia` plus the signed displacement (rule R125). -/
def Obligations.JalLinksAndJumps : Prop := ∀ (s : State) (rd : RegIdx) (d : BitVec 21),
  JumpsTo s (.jal rd d) rd (BitVec.ofInt 64 (s.ia.toInt + 4)) (BitVec.ofInt 64 (s.ia.toInt + d.toInt)) ∧
    (d.getLsbD 0 = false → EncodedAs (.jal rd d) (fieldsJ 0b1101111 rd d))

/-- JALR: `pc` to the OLD `x[rs1]` plus the signed displacement, all 64 bits of it, and `ia + 4` to `rd`, also where `rd` is
`rs1` (rule R126; decisions D7, D8, D9). -/
def Obligations.JalrLinksAndJumps : Prop := ∀ (s : State) (rd rs1 : RegIdx) (imm : BitVec 12),
  JumpsTo s (.jalr rd rs1 imm) rd (BitVec.ofInt 64 (s.ia.toInt + 4)) (BitVec.ofInt 64 ((s.x rs1).toInt + imm.toInt)) ∧
    EncodedAs (.jalr rd rs1 imm) (fieldsI 0b000 0b1100111 rd rs1 imm)

/-! ### LOAD and STORE -/

/-- The address of a load or a store is `x[rs1]` plus the signed 12-bit displacement, modulo 2^64 (rules R130, R205). -/
def Obligations.EffectiveAddress : Prop := ∀ (s : State) (rs1 : RegIdx) (imm : BitVec 12),
  baseDisp s rs1 imm = BitVec.ofInt 64 ((s.x rs1).toInt + imm.toInt)

/-- An aligned load from ordinary memory puts the value, its lowest byte at the address, sign- or zero-extended, in `rd`, and
changes nothing else (rules R53, R130 to R138). -/
def Obligations.AlignedLoads : Prop := ∀ (s : State) (rd rs1 : RegIdx) (imm : BitVec 12),
  ∀ l ∈ loadForms rd rs1 imm, rd ≠ 0#5 → (baseDisp s rs1 imm).toNat % l.2.1 = 0 →
    OrdinaryAccess s (baseDisp s rs1 imm) l.2.1 .read → LoadsFrom s l.1 rd (baseDisp s rs1 imm) l.2.1 l.2.2

/-- An aligned store to ordinary memory changes exactly its bytes, to the low bytes of `x[rs2]`, the lowest at the address
(rules R54, R205 to R209). -/
def Obligations.AlignedStores : Prop := ∀ (s : State) (rs1 rs2 : RegIdx) (imm : BitVec 12),
  ∀ l ∈ storeForms rs1 rs2 imm, s.mem.wf = true → (baseDisp s rs1 imm).toNat % l.2 = 0 →
    OrdinaryAccess s (baseDisp s rs1 imm) l.2 .write → StoresTo s l.1 (baseDisp s rs1 imm) l.2 (s.x rs2)

/-- Under `MISALIGN_POLICY = trap` a misaligned load or store raises its alignment exception: no register is written and no
byte of memory changes (rule R57). -/
def Obligations.MisalignedTraps : Prop := ∀ s : State, s.cfg.misalign = .trap →
  (∀ rd rs1 imm, ∀ l ∈ loadForms rd rs1 imm, rd ≠ 0#5 → (baseDisp s rs1 imm).toNat % l.2.1 ≠ 0 →
      Raises s l.1 s.cfg.causeLoadMisaligned) ∧
    ∀ rs1 rs2 imm, ∀ l ∈ storeForms rs1 rs2 imm, (baseDisp s rs1 imm).toNat % l.2 ≠ 0 →
      Raises s l.1 s.cfg.causeStoreMisaligned

/-- Under `MISALIGN_POLICY = mask` a misaligned load or store is performed at the address rounded down to a multiple of its
size (rule R58). -/
def Obligations.MisalignedMasks : Prop := ∀ s : State, s.cfg.misalign = .mask → s.mem.wf = true →
  (∀ rd rs1 imm, ∀ l ∈ loadForms rd rs1 imm, ∀ p : Word, rd ≠ 0#5 → (baseDisp s rs1 imm).toNat % l.2.1 ≠ 0 →
      p.toNat = (baseDisp s rs1 imm).toNat - (baseDisp s rs1 imm).toNat % l.2.1 → OrdinaryAccess s p l.2.1 .read →
      LoadsFrom s l.1 rd p l.2.1 l.2.2) ∧
    ∀ rs1 rs2 imm, ∀ l ∈ storeForms rs1 rs2 imm, ∀ p : Word, (baseDisp s rs1 imm).toNat % l.2 ≠ 0 →
      p.toNat = (baseDisp s rs1 imm).toNat - (baseDisp s rs1 imm).toNat % l.2 → OrdinaryAccess s p l.2 .write →
      StoresTo s l.1 p l.2 (s.x rs2)

/-- Under `MISALIGN_POLICY = split` a misaligned load or store is performed at the address as it is (rule R59). -/
def Obligations.MisalignedSplits : Prop := ∀ s : State, s.cfg.misalign = .split → s.mem.wf = true →
  (∀ rd rs1 imm, ∀ l ∈ loadForms rd rs1 imm, rd ≠ 0#5 → (baseDisp s rs1 imm).toNat % l.2.1 ≠ 0 →
      OrdinaryAccess s (baseDisp s rs1 imm) l.2.1 .read → LoadsFrom s l.1 rd (baseDisp s rs1 imm) l.2.1 l.2.2) ∧
    ∀ rs1 rs2 imm, ∀ l ∈ storeForms rs1 rs2 imm, (baseDisp s rs1 imm).toNat % l.2 ≠ 0 →
      OrdinaryAccess s (baseDisp s rs1 imm) l.2 .write → StoresTo s l.1 (baseDisp s rs1 imm) l.2 (s.x rs2)

/-- A load with `rd` 0 does nothing but advance `pc` (rule R139, decision D24); under the cautious reading of that rule's last
sentences, a setting of the MODEL (assumption log 14), it is refused where the address is misaligned or a device. -/
def Obligations.LoadIntoX0 : Prop := ∀ (s : State) (rs1 : RegIdx) (imm : BitVec 12), ∀ l ∈ loadForms 0#5 rs1 imm,
  (s.cfg.x0Load = .noAccess → exec l.1 s = .next s) ∧
    (s.cfg.x0Load = .refuseWhereItMatters →
      exec l.1 s =
        if (baseDisp s rs1 imm).toNat % l.2.1 = 0 ∧ touchesDevice s.cfg l.2.1 (baseDisp s rs1 imm) = false then .next s
        else .refused .ambiguousX0Load)

/-- A load that touches a device register completes with any value in the device's bytes, the memory's in the others;
memory, CSRs and the other registers stay (rules R52, R63). An aligned load hands the devices one read; a misaligned one,
under `split`, a read of each device byte, in some order (rule R62). The event list and the count of free values are the
MODEL's, assumption log 12 and 2. -/
def Obligations.DeviceLoads : Prop := ∀ (s : State) (rd rs1 : RegIdx) (imm : BitVec 12),
  ∀ l ∈ loadForms rd rs1 imm, ∀ p, rd ≠ 0#5 → PerformedAt s (baseDisp s rs1 imm) l.2.1 p →
    memAdmit s.cfg p l.2.1 .read = true → touchesDevice s.cfg l.2.1 p = true →
    ∃ t v es, exec l.1 s = .next t ∧ RegsWith s t rd v ∧
      (∀ j, j < l.2.1 → isDevice s.cfg (plus p j) = false → v.extractLsb' (8 * j) 8 = s.mem.read (plus p j).toNat) ∧
      (∀ j, 8 * l.2.1 ≤ j → j < 64 → v.getLsbD j = (l.2.2 && v.getLsbD (8 * l.2.1 - 1))) ∧
      t.deviceLog = s.deviceLog ++ es ∧ (p.toNat % l.2.1 = 0 → es = [.memRead p l.2.1] ∧ t.draws = s.draws + 1) ∧
      (p.toNat % l.2.1 ≠ 0 → es.Perm (deviceByteReads s p l.2.1) ∧ t.draws = s.draws + 2) ∧ t.cfg = s.cfg ∧
      t.mipInputs = s.mipInputs ∧ SameAddresses s t ∧ SameCsrs s t ∧ SameMemory s t

/-- A store that touches a device register: the device's bytes are not in memory, the other bytes of the access are stored,
and nothing else changes (rules R52, R54, R63). An aligned store hands the devices one write of the value; a misaligned one,
under `split`, a write of each device byte, in some order (rule R62). The event list and the count of free values are the
MODEL's, assumption log 12 and 2. -/
def Obligations.DeviceStores : Prop := ∀ (s : State) (rs1 rs2 : RegIdx) (imm : BitVec 12),
  ∀ l ∈ storeForms rs1 rs2 imm, ∀ p, s.mem.wf = true → PerformedAt s (baseDisp s rs1 imm) l.2 p →
    memAdmit s.cfg p l.2 .write = true → touchesDevice s.cfg l.2 p = true →
    ∃ t v es, exec l.1 s = .next t ∧ v.toNat = (s.x rs2).toNat % 2 ^ (8 * l.2) ∧ t.deviceLog = s.deviceLog ++ es ∧
      (p.toNat % l.2 = 0 → es = [.memWrite p l.2 v] ∧ t.draws = s.draws) ∧
      (p.toNat % l.2 ≠ 0 → es.Perm (deviceByteWrites s p l.2 (s.x rs2)) ∧ t.draws = s.draws + 1) ∧
      (∀ j, j < l.2 → t.mem.read (plus p j).toNat =
        if isDevice s.cfg (plus p j) then s.mem.read (plus p j).toNat else (s.x rs2).extractLsb' (8 * j) 8) ∧
      (∀ b : Nat, (∀ j, j < l.2 → b ≠ (plus p j).toNat) → t.mem.read b = s.mem.read b) ∧
      SameRegs s t ∧ SameAddresses s t ∧ SameCsrs s t ∧ t.cfg = s.cfg ∧ t.mipInputs = s.mipInputs

/-- A byte load at `a + k` after a double-word store of `v` at an 8-aligned `a` returns byte `k` of `v` (rule R51). -/
def Obligations.ByteLoadAfterDoubleStore : Prop :=
  ∀ (s : State) (rs1 rs2 rd rs3 : RegIdx) (imm imm' : BitVec 12) (k : Nat), s.mem.wf = true → k < 8 → rd ≠ 0#5 →
    (baseDisp s rs1 imm).toNat % 8 = 0 → OrdinaryAccess s (baseDisp s rs1 imm) 8 .write →
    baseDisp s rs3 imm' = plus (baseDisp s rs1 imm) k → OrdinaryAccess s (baseDisp s rs3 imm') 1 .read →
    ∃ t u, exec (.sd rs1 rs2 imm) s = .next t ∧ exec (.lbu rd rs3 imm') t = .next u ∧
      (u.x rd).toNat = (s.x rs2).toNat / 2 ^ (8 * k) % 2 ^ 8

/-- A store is seen by every later fetch from its address, with no fence (rule R69, decision D20): after SW of a word that
decodes to `i`, any later boundary with that memory and configuration and `pc` at the address runs `i`. -/
def Obligations.StoreIsSeenByFetch : Prop :=
  ∀ (s : State) (rs1 rs2 : RegIdx) (imm : BitVec 12) (i : Instr), s.mem.wf = true →
    (baseDisp s rs1 imm).toNat % 4 = 0 → OrdinaryAccess s (baseDisp s rs1 imm) 4 .write →
    OrdinaryAccess s (baseDisp s rs1 imm) 4 .fetch → decode ((s.x rs2).setWidth 32) = .instr i →
    ∃ t, exec (.sw rs1 rs2 imm) s = .next t ∧
      ∀ u : State, u.mem = t.mem → u.cfg = t.cfg → u.pc = baseDisp s rs1 imm → NoInterrupt u.sampleMip →
        step u = exec i u.sampleMip.atInstr

/-! ### MISC and WFI -/

/-- FENCE (all 256 values of its fields), FENCE.I and WFI change nothing: `pc` goes on in line (rules R150, R151, R225). -/
def Obligations.FencesAndWfi : Prop := ∀ s : State,
  (∀ pppp ssss, exec (.fence pppp ssss) s = .next s ∧
      EncodedAs (.fence pppp ssss)
        [(28, 4, 0), (24, 4, pppp.toNat), (20, 4, ssss.toNat), (15, 5, 0), (12, 3, 0), (7, 5, 0), (0, 7, 0b0001111)]) ∧
    exec .fenceI s = .next s ∧ HasWord .fenceI 0x0000100F#32 ∧ exec .wfi s = .next s ∧ HasWord .wfi 0x10500073#32

/-! ### OP and OP-IMM -/

/-- ADD and SUB modulo 2^64, SLT signed and SLTU unsigned, XOR, OR and AND bit by bit (rules R157, R159 to R161, R163 to
R165). -/
def Obligations.RegisterArithmetic : Prop := ∀ (s : State) (rd rs1 rs2 : RegIdx),
  (Computes s (.add rd rs1 rs2) rd (BitVec.ofNat 64 ((s.x rs1).toNat + (s.x rs2).toNat)) ∧
      EncodedAs (.add rd rs1 rs2) (fieldsR 0 0b000 0b0110011 rd rs1 rs2)) ∧
    (Computes s (.sub rd rs1 rs2) rd (BitVec.ofInt 64 ((s.x rs1).toInt - (s.x rs2).toInt)) ∧
      EncodedAs (.sub rd rs1 rs2) (fieldsR 0b0100000 0b000 0b0110011 rd rs1 rs2)) ∧
    (Computes s (.slt rd rs1 rs2) rd (if (s.x rs1).toInt < (s.x rs2).toInt then 1#64 else 0#64) ∧
      EncodedAs (.slt rd rs1 rs2) (fieldsR 0 0b010 0b0110011 rd rs1 rs2)) ∧
    (Computes s (.sltu rd rs1 rs2) rd (if (s.x rs1).toNat < (s.x rs2).toNat then 1#64 else 0#64) ∧
      EncodedAs (.sltu rd rs1 rs2) (fieldsR 0 0b011 0b0110011 rd rs1 rs2)) ∧
    (ComputesBits s (.xor rd rs1 rs2) rd (fun j => (s.x rs1).getLsbD j != (s.x rs2).getLsbD j) ∧
      EncodedAs (.xor rd rs1 rs2) (fieldsR 0 0b100 0b0110011 rd rs1 rs2)) ∧
    (ComputesBits s (.or rd rs1 rs2) rd (fun j => (s.x rs1).getLsbD j || (s.x rs2).getLsbD j) ∧
      EncodedAs (.or rd rs1 rs2) (fieldsR 0 0b110 0b0110011 rd rs1 rs2)) ∧
    (ComputesBits s (.and rd rs1 rs2) rd (fun j => (s.x rs1).getLsbD j && (s.x rs2).getLsbD j) ∧
      EncodedAs (.and rd rs1 rs2) (fieldsR 0 0b111 0b0110011 rd rs1 rs2))

/-- SLL, SRL and SRA by the low 6 bits of `x[rs2]`: zeros enter, or copies of bit 63 (rules R158, R162, R166; the count is
decision D10). -/
def Obligations.RegisterShifts : Prop := ∀ (s : State) (rd rs1 rs2 : RegIdx) (k : Nat), k = (s.x rs2).toNat % 64 →
  (ComputesBits s (.sll rd rs1 rs2) rd (fun j => decide (k ≤ j) && (s.x rs1).getLsbD (j - k)) ∧
      EncodedAs (.sll rd rs1 rs2) (fieldsR 0 0b001 0b0110011 rd rs1 rs2)) ∧
    (ComputesBits s (.srl rd rs1 rs2) rd (fun j => decide (j + k < 64) && (s.x rs1).getLsbD (j + k)) ∧
      EncodedAs (.srl rd rs1 rs2) (fieldsR 0 0b101 0b0110011 rd rs1 rs2)) ∧
    (ComputesBits s (.sra rd rs1 rs2) rd (fun j => (s.x rs1).getLsbD (min (j + k) 63)) ∧
      EncodedAs (.sra rd rs1 rs2) (fieldsR 0b0100000 0b101 0b0110011 rd rs1 rs2))

/-- ADDW, SUBW and ADDIW: the sum or difference read as a signed 32-bit number, under either value of `W_SEMANTICS` (rules
R168, R169, R192). -/
def Obligations.WordArithmetic : Prop := ∀ (s : State) (rd rs1 rs2 : RegIdx) (imm : BitVec 12),
  (Computes s (.addw rd rs1 rs2) rd (BitVec.ofInt 64 (((s.x rs1).toInt + (s.x rs2).toInt).bmod (2 ^ 32))) ∧
      EncodedAs (.addw rd rs1 rs2) (fieldsR 0 0b000 0b0111011 rd rs1 rs2)) ∧
    (Computes s (.subw rd rs1 rs2) rd (BitVec.ofInt 64 (((s.x rs1).toInt - (s.x rs2).toInt).bmod (2 ^ 32))) ∧
      EncodedAs (.subw rd rs1 rs2) (fieldsR 0b0100000 0b000 0b0111011 rd rs1 rs2)) ∧
    (Computes s (.addiw rd rs1 imm) rd (BitVec.ofInt 64 (((s.x rs1).toInt + imm.toInt).bmod (2 ^ 32))) ∧
      EncodedAs (.addiw rd rs1 imm) (fieldsI 0b000 0b0011011 rd rs1 imm))

/-- The `w` shifts under `W_SEMANTICS = source_literal`: the whole register is shifted by a 6-bit count, then bit 31 of the
result is copied into bits 63:32 (rules R167, R170 to R172, R191, R193 to R195; decision D11). -/
def Obligations.WordShiftsSourceLiteral : Prop :=
  ∀ (s : State) (rd rs1 rs2 : RegIdx) (sh : BitVec 6), s.cfg.wSemantics = .sourceLiteral →
    (∀ k, k = (s.x rs2).toNat % 64 →
      (ComputesBits s (.sllw rd rs1 rs2) rd (fun j => decide (k ≤ min j 31) && (s.x rs1).getLsbD (min j 31 - k)) ∧
          EncodedAs (.sllw rd rs1 rs2) (fieldsR 0 0b001 0b0111011 rd rs1 rs2)) ∧
        (ComputesBits s (.srlw rd rs1 rs2) rd (fun j => decide (min j 31 + k < 64) && (s.x rs1).getLsbD (min j 31 + k)) ∧
          EncodedAs (.srlw rd rs1 rs2) (fieldsR 0 0b101 0b0111011 rd rs1 rs2)) ∧
        (ComputesBits s (.sraw rd rs1 rs2) rd (fun j => (s.x rs1).getLsbD (min (min j 31 + k) 63)) ∧
          EncodedAs (.sraw rd rs1 rs2) (fieldsR 0b0100000 0b101 0b0111011 rd rs1 rs2))) ∧
      ∀ k, k = sh.toNat →
        (ComputesBits s (.slliw rd rs1 sh) rd (fun j => decide (k ≤ min j 31) && (s.x rs1).getLsbD (min j 31 - k)) ∧
            EncodedAs (.slliw rd rs1 sh) (fieldsShift 0 0b001 0b0011011 rd rs1 sh)) ∧
          (ComputesBits s (.srliw rd rs1 sh) rd (fun j => decide (min j 31 + k < 64) && (s.x rs1).getLsbD (min j 31 + k)) ∧
            EncodedAs (.srliw rd rs1 sh) (fieldsShift 0 0b101 0b0011011 rd rs1 sh)) ∧
          (ComputesBits s (.sraiw rd rs1 sh) rd (fun j => (s.x rs1).getLsbD (min (min j 31 + k) 63)) ∧
            EncodedAs (.sraiw rd rs1 sh) (fieldsShift 0b010000 0b101 0b0011011 rd rs1 sh))

/-- The `w` shifts under `W_SEMANTICS = rv64i_standard`: the low word is shifted by a 5-bit count (rules R167, R170 to R172,
R191; decision D11). With `imm[5]` 1 RV64I has no such instruction and the MODEL treats the word as an unlisted encoding
(assumption log 13). -/
def Obligations.WordShiftsStandard : Prop :=
  ∀ (s : State) (rd rs1 rs2 : RegIdx) (sh : BitVec 6), s.cfg.wSemantics = .rv64iStandard →
    (∀ k, k = (s.x rs2).toNat % 32 →
      ComputesBits s (.sllw rd rs1 rs2) rd (fun j => decide (k ≤ min j 31) && (s.x rs1).getLsbD (min j 31 - k)) ∧
        ComputesBits s (.srlw rd rs1 rs2) rd (fun j => decide (min j 31 + k < 32) && (s.x rs1).getLsbD (min j 31 + k)) ∧
        ComputesBits s (.sraw rd rs1 rs2) rd (fun j => (s.x rs1).getLsbD (min (min j 31 + k) 31))) ∧
      (∀ k, k = sh.toNat → k < 32 →
        ComputesBits s (.slliw rd rs1 sh) rd (fun j => decide (k ≤ min j 31) && (s.x rs1).getLsbD (min j 31 - k)) ∧
          ComputesBits s (.srliw rd rs1 sh) rd (fun j => decide (min j 31 + k < 32) && (s.x rs1).getLsbD (min j 31 + k)) ∧
          ComputesBits s (.sraiw rd rs1 sh) rd (fun j => (s.x rs1).getLsbD (min (min j 31 + k) 31))) ∧
      (32 ≤ sh.toNat →
        RejectedAs (exec (.slliw rd rs1 sh) s) s .reservedWideShift ∧
          RejectedAs (exec (.srliw rd rs1 sh) s) s .reservedWideShift ∧
          RejectedAs (exec (.sraiw rd rs1 sh) s) s .reservedWideShift)

/-- Where the two readings of the `w` shifts by a register give one result, for counts up to 31 (rules R170 to R172): SLLW
always; SRLW exactly when bits `31+k : 32` of `x[rs1]` are 0, SRAW exactly when they all equal bit 31. For a count of 32 or
more it says only that SLLW's literal result is 0, and nothing of SRLW and SRAW. -/
def Obligations.WordShiftReadingsAgree : Prop := ∀ (s lit std : State) (rd rs1 rs2 : RegIdx) (k : Nat), rd ≠ 0#5 →
  k = (s.x rs2).toNat % 64 → lit = { s with cfg := { s.cfg with wSemantics := .sourceLiteral } } →
  std = { s with cfg := { s.cfg with wSemantics := .rv64iStandard } } →
    (k < 32 → ∃ v, Computes lit (.sllw rd rs1 rs2) rd v ∧ Computes std (.sllw rd rs1 rs2) rd v) ∧
      (32 ≤ k → Computes lit (.sllw rd rs1 rs2) rd 0#64) ∧
      (k < 32 → ((∃ v, Computes lit (.srlw rd rs1 rs2) rd v ∧ Computes std (.srlw rd rs1 rs2) rd v) ↔
        ∀ j, 32 ≤ j → j ≤ 31 + k → (s.x rs1).getLsbD j = false)) ∧
      (k < 32 → ((∃ v, Computes lit (.sraw rd rs1 rs2) rd v ∧ Computes std (.sraw rd rs1 rs2) rd v) ↔
        ∀ j, 32 ≤ j → j ≤ 31 + k → (s.x rs1).getLsbD j = (s.x rs1).getLsbD 31))

/-- The ten `w` forms without a standard name: under `W_UNNAMED = source_literal` the source's formula, under `refuse` an
encoding without a meaning (rules R173, R197; decision D12). -/
def Obligations.UnnamedWordForms : Prop :=
  ∀ (s : State) (rd rs1 rs2 : RegIdx) (imm : BitVec 12) (y : Word), y = BitVec.ofInt 64 imm.toInt →
    (s.cfg.wUnnamed = .sourceLiteral →
      Computes s (.sltW rd rs1 rs2) rd (if (s.x rs1).toInt < (s.x rs2).toInt then 1#64 else 0#64) ∧
        Computes s (.sltuW rd rs1 rs2) rd (if (s.x rs1).toNat < (s.x rs2).toNat then 1#64 else 0#64) ∧
        ComputesBits s (.xorW rd rs1 rs2) rd (fun j => (s.x rs1).getLsbD (min j 31) != (s.x rs2).getLsbD (min j 31)) ∧
        ComputesBits s (.orW rd rs1 rs2) rd (fun j => (s.x rs1).getLsbD (min j 31) || (s.x rs2).getLsbD (min j 31)) ∧
        ComputesBits s (.andW rd rs1 rs2) rd (fun j => (s.x rs1).getLsbD (min j 31) && (s.x rs2).getLsbD (min j 31)) ∧
        Computes s (.sltiW rd rs1 imm) rd (if (s.x rs1).toInt < imm.toInt then 1#64 else 0#64) ∧
        Computes s (.sltiuW rd rs1 imm) rd (if (s.x rs1).toNat < y.toNat then 1#64 else 0#64) ∧
        ComputesBits s (.xoriW rd rs1 imm) rd (fun j => (s.x rs1).getLsbD (min j 31) != y.getLsbD (min j 31)) ∧
        ComputesBits s (.oriW rd rs1 imm) rd (fun j => (s.x rs1).getLsbD (min j 31) || y.getLsbD (min j 31)) ∧
        ComputesBits s (.andiW rd rs1 imm) rd (fun j => (s.x rs1).getLsbD (min j 31) && y.getLsbD (min j 31))) ∧
      (s.cfg.wUnnamed = .refuse →
        ∀ i ∈ [Instr.sltW rd rs1 rs2, .sltuW rd rs1 rs2, .xorW rd rs1 rs2, .orW rd rs1 rs2, .andW rd rs1 rs2,
          .sltiW rd rs1 imm, .sltiuW rd rs1 imm, .xoriW rd rs1 imm, .oriW rd rs1 imm, .andiW rd rs1 imm],
          RejectedAs (exec i s) s .unnamedWForm)

/-- ADDI, SLTI, SLTIU, XORI, ORI, ANDI with the immediate sign-extended, for SLTIU too (rules R181 to R186). -/
def Obligations.ImmediateArithmetic : Prop :=
  ∀ (s : State) (rd rs1 : RegIdx) (imm : BitVec 12) (y : Word), y = BitVec.ofInt 64 imm.toInt →
    (Computes s (.addi rd rs1 imm) rd (BitVec.ofInt 64 ((s.x rs1).toInt + imm.toInt)) ∧
        EncodedAs (.addi rd rs1 imm) (fieldsI 0b000 0b0010011 rd rs1 imm)) ∧
      (Computes s (.slti rd rs1 imm) rd (if (s.x rs1).toInt < imm.toInt then 1#64 else 0#64) ∧
        EncodedAs (.slti rd rs1 imm) (fieldsI 0b010 0b0010011 rd rs1 imm)) ∧
      (Computes s (.sltiu rd rs1 imm) rd (if (s.x rs1).toNat < y.toNat then 1#64 else 0#64) ∧
        EncodedAs (.sltiu rd rs1 imm) (fieldsI 0b011 0b0010011 rd rs1 imm)) ∧
      (ComputesBits s (.xori rd rs1 imm) rd (fun j => (s.x rs1).getLsbD j != y.getLsbD j) ∧
        EncodedAs (.xori rd rs1 imm) (fieldsI 0b100 0b0010011 rd rs1 imm)) ∧
      (ComputesBits s (.ori rd rs1 imm) rd (fun j => (s.x rs1).getLsbD j || y.getLsbD j) ∧
        EncodedAs (.ori rd rs1 imm) (fieldsI 0b110 0b0010011 rd rs1 imm)) ∧
      (ComputesBits s (.andi rd rs1 imm) rd (fun j => (s.x rs1).getLsbD j && y.getLsbD j) ∧
        EncodedAs (.andi rd rs1 imm) (fieldsI 0b111 0b0010011 rd rs1 imm))

/-- SLLI, SRLI and SRAI by the 6-bit count of the word (rules R188 to R190). -/
def Obligations.ImmediateShifts : Prop := ∀ (s : State) (rd rs1 : RegIdx) (sh : BitVec 6) (k : Nat), k = sh.toNat →
  (ComputesBits s (.slli rd rs1 sh) rd (fun j => decide (k ≤ j) && (s.x rs1).getLsbD (j - k)) ∧
      EncodedAs (.slli rd rs1 sh) (fieldsShift 0 0b001 0b0010011 rd rs1 sh)) ∧
    (ComputesBits s (.srli rd rs1 sh) rd (fun j => decide (j + k < 64) && (s.x rs1).getLsbD (j + k)) ∧
      EncodedAs (.srli rd rs1 sh) (fieldsShift 0 0b101 0b0010011 rd rs1 sh)) ∧
    (ComputesBits s (.srai rd rs1 sh) rd (fun j => (s.x rs1).getLsbD (min (j + k) 63)) ∧
      EncodedAs (.srai rd rs1 sh) (fieldsShift 0b010000 0b101 0b0010011 rd rs1 sh))

/-! ### SYSTEM -/

/-- The six CSR instructions on `mscratch`, `mepc` and `mie`: the old value to `rd`, the new one to the CSR where the `rs1`
field is not 0, both with all 64 bits, and nothing else (rules R32, R36, R37, R215 to R221; decision D22). -/
def Obligations.CsrPlainRegisters : Prop := ∀ (s : State) (rd : RegIdx) (f : BitVec 5), s.cfg.wf = true →
  (∀ p ∈ csrForms s rd f s.cfg.csrNum.mscratch, ∃ t, exec p.1 s = .next t ∧ RegsWith s t rd s.mscratch ∧
      t.mscratch = (if f = 0#5 then s.mscratch else p.2 s.mscratch) ∧ SameTrapCsrs s t ∧ t.mtvec = s.mtvec ∧
      t.mip = s.mip ∧ t.mie = s.mie ∧ SameAddresses s t ∧ SameEnvironment s t ∧ SameMemory s t) ∧
    (∀ p ∈ csrForms s rd f s.cfg.csrNum.mepc, ∃ t, exec p.1 s = .next t ∧ RegsWith s t rd s.mepc ∧
      t.mepc = (if f = 0#5 then s.mepc else p.2 s.mepc) ∧ SameMstatus s t ∧ SameMcause s t ∧ SameOtherCsrs s t ∧
      SameAddresses s t ∧ SameEnvironment s t ∧ SameMemory s t) ∧
    ∀ p ∈ csrForms s rd f s.cfg.csrNum.mie, ∃ t, exec p.1 s = .next t ∧ RegsWith s t rd s.mie ∧
      t.mie = (if f = 0#5 then s.mie else p.2 s.mie) ∧ SameTrapCsrs s t ∧ t.mtvec = s.mtvec ∧ t.mip = s.mip ∧
      t.mscratch = s.mscratch ∧ SameAddresses s t ∧ SameEnvironment s t ∧ SameMemory s t

/-- The six CSR instructions on `mtvec`, written only where `MTVEC_WRITABLE`, and on `mip`, never written (rules R34, R35,
R215; decision D23). -/
def Obligations.CsrMtvecAndMip : Prop := ∀ (s : State) (rd : RegIdx) (f : BitVec 5), s.cfg.wf = true →
  (∀ p ∈ csrForms s rd f s.cfg.csrNum.mtvec, ∃ t, exec p.1 s = .next t ∧ RegsWith s t rd s.mtvec ∧
      t.mtvec = (if f = 0#5 ∨ s.cfg.mtvecWritable = false then s.mtvec else p.2 s.mtvec) ∧ SameTrapCsrs s t ∧
      t.mip = s.mip ∧ t.mie = s.mie ∧ t.mscratch = s.mscratch ∧ SameAddresses s t ∧ SameEnvironment s t ∧
      SameMemory s t) ∧
    ∀ p ∈ csrForms s rd f s.cfg.csrNum.mip, Computes s p.1 rd s.mip

/-- The six CSR instructions on `mcause`: `irq` and `cause` read and written at their places, all 64 bits held (rules R33,
R215; decision D23). The rules give `irq` at bit 63; that for another position `cause` is the other 63 bits in order is the
MODEL's reading (assumption log 19). -/
def Obligations.CsrMcause : Prop := ∀ (s : State) (rd : RegIdx) (f : BitVec 5), s.cfg.wf = true →
  ∀ p ∈ csrForms s rd f s.cfg.csrNum.mcause, ∃ t old, exec p.1 s = .next t ∧ McauseReads s old ∧ RegsWith s t rd old ∧
    McauseReads t (if f = 0#5 then old else p.2 old) ∧ SameMstatus s t ∧ t.mepc = s.mepc ∧ SameOtherCsrs s t ∧
    SameAddresses s t ∧ SameEnvironment s t ∧ SameMemory s t

/-- The six CSR instructions on `mstatus`: `mie` and `mpie` read and written at their places; the other bits read as the
configuration fixes them or as any value, and writes to them are dropped (rules R31, R215; decision D23; the count of free
values is the MODEL's, assumption log 2). -/
def Obligations.CsrMstatus : Prop := ∀ (s : State) (rd : RegIdx) (f : BitVec 5), s.cfg.wf = true →
  ∀ p ∈ csrForms s rd f s.cfg.csrNum.mstatus, ∃ t old, exec p.1 s = .next t ∧ MstatusReads s old ∧ RegsWith s t rd old ∧
    (f = 0#5 → SameMstatus s t) ∧
    (f ≠ 0#5 → t.mstatusMie = (p.2 old).getLsbD s.cfg.layout.mieBit.val ∧
      t.mstatusMpie = (p.2 old).getLsbD s.cfg.layout.mpieBit.val) ∧
    t.mepc = s.mepc ∧ SameMcause s t ∧ SameOtherCsrs s t ∧ SameAddresses s t ∧ t.cfg = s.cfg ∧ t.mipInputs = s.mipInputs ∧
    t.deviceLog = s.deviceLog ∧ t.draws = s.draws + (if s.cfg.mstatusOther = none then 1 else 0) ∧ SameMemory s t

/-- A CSR number that is none of the seven and none of the C port's raises the illegal instruction trap, whatever `rd` and
the `rs1` field are and whatever `ENC_POLICY` is, before anything is written (rules R38, R94, R244; decision D15). -/
def Obligations.UnsupportedCsrTraps : Prop := ∀ (s : State) (rd : RegIdx) (f : BitVec 5) (n : CsrIdx),
  n ∉ s.cfg.csrNum.all → (∀ e ∈ s.cfg.extraCsrs, e.num ≠ n) →
    ∀ p ∈ csrForms s rd f n, Raises s p.1 s.cfg.causeIllegal

/-- The six CSR instructions on a CSR of the C port: any value to `rd`; the device is told of the read only where `rd` is not
0, and of the write only where the `rs1` field is not 0 and writes are performed; a CSR whose writes trap traps where a write
is asked for (rules R39, R215; decisions D25, D26; assumption log 2 and 12). That this trap is the illegal instruction trap,
before the read and its action, and that the first entry listed with a number counts, is the MODEL's choice (assumption
log 9). -/
def Obligations.CPortCsrs : Prop :=
  ∀ (s : State) (rd : RegIdx) (f : BitVec 5) (e : ExtraCsr) (before after : List ExtraCsr), s.cfg.wf = true →
    s.cfg.extraCsrs = before ++ e :: after → (∀ b ∈ before, b.num ≠ e.num) →
    ∀ p ∈ csrForms s rd f e.num,
      (f ≠ 0#5 ∧ e.onWrite = .trap → Raises s p.1 s.cfg.causeIllegal) ∧
        (f = 0#5 ∨ e.onWrite ≠ .trap → ∃ t old, exec p.1 s = .next t ∧ RegsWith s t rd old ∧
          t.deviceLog = s.deviceLog ++ (if rd = 0#5 then [] else [.csrReadAction e.num]) ++
            (if f ≠ 0#5 ∧ e.onWrite = .performed then [.csrWrite e.num (p.2 old)] else []) ∧
          t.draws = s.draws + 1 ∧ t.cfg = s.cfg ∧ t.mipInputs = s.mipInputs ∧ SameAddresses s t ∧ SameCsrs s t ∧
          SameMemory s t)

/-- ECALL enters the trap with cause 2 and EBREAK with cause 3, `irq` 0 and `ia` in `mepc`, unconditionally (rules R222,
R223, R243). -/
def Obligations.EcallAndEbreak : Prop := ∀ s : State,
  Raises s .ecall 2#63 ∧ HasWord .ecall 0x00000073#32 ∧ Raises s .ebreak 3#63 ∧ HasWord .ebreak 0x00100073#32

/-- MRET: `mie` from `mpie`, `mpie` 1, `pc` to `mepc`, all 64 bits, and nothing else (rule R224). -/
def Obligations.MretReturns : Prop := ∀ s : State, HasWord .mret 0x30200073#32 ∧
  ∃ t, exec .mret s = .next t ∧ t.mstatusMie = s.mstatusMpie ∧ t.mstatusMpie = true ∧ t.pc = s.mepc ∧ t.ia = s.ia ∧
    t.mepc = s.mepc ∧ SameMcause s t ∧ SameOtherCsrs s t ∧ SameRegs s t ∧ SameEnvironment s t ∧ SameMemory s t

/-- A trap, and an MRET with nothing changed in between but the addresses of the cycle: `mie` as before the trap, `mpie` 1,
`mepc` and `mcause` the trap's, `pc` at `mepc` (rule R255). -/
def Obligations.TrapThenReturn : Prop := ∀ (s t : State) (c : Cause) (irq : Bool) (epc pc ia : Word),
  TrapTaken s t c irq epc →
    ∃ u, exec .mret { t with pc := pc, ia := ia } = .next u ∧ u.mstatusMie = s.mstatusMie ∧ u.mstatusMpie = true ∧
      u.mepc = epc ∧ u.mcauseCause = c ∧ u.mcauseIrq = irq ∧ u.pc = epc
end

