-- ==== Sys2Proof/Laws/State.lean ====
section
/-! SUPPORT. For each update of the state, one lemma per field: what it makes of that field. -/

namespace Sys2Proof.Machine

/-! ### `setPc` -/

@[simp] theorem setPc_cfg (s : State) (t : Word) : (s.setPc t).cfg = s.cfg := rfl
@[simp] theorem setPc_xs (s : State) (t : Word) : (s.setPc t).xs = s.xs := rfl
@[simp] theorem setPc_pc (s : State) (t : Word) : (s.setPc t).pc = t := rfl
@[simp] theorem setPc_ia (s : State) (t : Word) : (s.setPc t).ia = s.ia := rfl
@[simp] theorem setPc_mstatusMie (s : State) (t : Word) : (s.setPc t).mstatusMie = s.mstatusMie := rfl
@[simp] theorem setPc_mstatusMpie (s : State) (t : Word) : (s.setPc t).mstatusMpie = s.mstatusMpie := rfl
@[simp] theorem setPc_mepc (s : State) (t : Word) : (s.setPc t).mepc = s.mepc := rfl
@[simp] theorem setPc_mcauseCause (s : State) (t : Word) : (s.setPc t).mcauseCause = s.mcauseCause := rfl
@[simp] theorem setPc_mcauseIrq (s : State) (t : Word) : (s.setPc t).mcauseIrq = s.mcauseIrq := rfl
@[simp] theorem setPc_mtvec (s : State) (t : Word) : (s.setPc t).mtvec = s.mtvec := rfl
@[simp] theorem setPc_mip (s : State) (t : Word) : (s.setPc t).mip = s.mip := rfl
@[simp] theorem setPc_mie (s : State) (t : Word) : (s.setPc t).mie = s.mie := rfl
@[simp] theorem setPc_mscratch (s : State) (t : Word) : (s.setPc t).mscratch = s.mscratch := rfl
@[simp] theorem setPc_mem (s : State) (t : Word) : (s.setPc t).mem = s.mem := rfl
@[simp] theorem setPc_mipInputs (s : State) (t : Word) : (s.setPc t).mipInputs = s.mipInputs := rfl
@[simp] theorem setPc_deviceLog (s : State) (t : Word) : (s.setPc t).deviceLog = s.deviceLog := rfl
@[simp] theorem setPc_draws (s : State) (t : Word) : (s.setPc t).draws = s.draws := rfl
@[simp] theorem setPc_x (s : State) (t : Word) (i : RegIdx) : (s.setPc t).x i = s.x i := by simp [State.x]

/-! ### `drawn` -/

@[simp] theorem drawn_cfg (s : State) : (s.drawn).cfg = s.cfg := rfl
@[simp] theorem drawn_xs (s : State) : (s.drawn).xs = s.xs := rfl
@[simp] theorem drawn_pc (s : State) : (s.drawn).pc = s.pc := rfl
@[simp] theorem drawn_ia (s : State) : (s.drawn).ia = s.ia := rfl
@[simp] theorem drawn_mstatusMie (s : State) : (s.drawn).mstatusMie = s.mstatusMie := rfl
@[simp] theorem drawn_mstatusMpie (s : State) : (s.drawn).mstatusMpie = s.mstatusMpie := rfl
@[simp] theorem drawn_mepc (s : State) : (s.drawn).mepc = s.mepc := rfl
@[simp] theorem drawn_mcauseCause (s : State) : (s.drawn).mcauseCause = s.mcauseCause := rfl
@[simp] theorem drawn_mcauseIrq (s : State) : (s.drawn).mcauseIrq = s.mcauseIrq := rfl
@[simp] theorem drawn_mtvec (s : State) : (s.drawn).mtvec = s.mtvec := rfl
@[simp] theorem drawn_mip (s : State) : (s.drawn).mip = s.mip := rfl
@[simp] theorem drawn_mie (s : State) : (s.drawn).mie = s.mie := rfl
@[simp] theorem drawn_mscratch (s : State) : (s.drawn).mscratch = s.mscratch := rfl
@[simp] theorem drawn_mem (s : State) : (s.drawn).mem = s.mem := rfl
@[simp] theorem drawn_mipInputs (s : State) : (s.drawn).mipInputs = s.mipInputs := rfl
@[simp] theorem drawn_deviceLog (s : State) : (s.drawn).deviceLog = s.deviceLog := rfl
@[simp] theorem drawn_draws (s : State) : (s.drawn).draws = s.draws + 1 := rfl
@[simp] theorem drawn_x (s : State) (i : RegIdx) : (s.drawn).x i = s.x i := by simp [State.x]

/-! ### `tellDevices` -/

@[simp] theorem tellDevices_cfg (s : State) (es : List DeviceEvent) : (s.tellDevices es).cfg = s.cfg := rfl
@[simp] theorem tellDevices_xs (s : State) (es : List DeviceEvent) : (s.tellDevices es).xs = s.xs := rfl
@[simp] theorem tellDevices_pc (s : State) (es : List DeviceEvent) : (s.tellDevices es).pc = s.pc := rfl
@[simp] theorem tellDevices_ia (s : State) (es : List DeviceEvent) : (s.tellDevices es).ia = s.ia := rfl
@[simp] theorem tellDevices_mstatusMie (s : State) (es : List DeviceEvent) : (s.tellDevices es).mstatusMie = s.mstatusMie := rfl
@[simp] theorem tellDevices_mstatusMpie (s : State) (es : List DeviceEvent) : (s.tellDevices es).mstatusMpie = s.mstatusMpie := rfl
@[simp] theorem tellDevices_mepc (s : State) (es : List DeviceEvent) : (s.tellDevices es).mepc = s.mepc := rfl
@[simp] theorem tellDevices_mcauseCause (s : State) (es : List DeviceEvent) : (s.tellDevices es).mcauseCause = s.mcauseCause := rfl
@[simp] theorem tellDevices_mcauseIrq (s : State) (es : List DeviceEvent) : (s.tellDevices es).mcauseIrq = s.mcauseIrq := rfl
@[simp] theorem tellDevices_mtvec (s : State) (es : List DeviceEvent) : (s.tellDevices es).mtvec = s.mtvec := rfl
@[simp] theorem tellDevices_mip (s : State) (es : List DeviceEvent) : (s.tellDevices es).mip = s.mip := rfl
@[simp] theorem tellDevices_mie (s : State) (es : List DeviceEvent) : (s.tellDevices es).mie = s.mie := rfl
@[simp] theorem tellDevices_mscratch (s : State) (es : List DeviceEvent) : (s.tellDevices es).mscratch = s.mscratch := rfl
@[simp] theorem tellDevices_mem (s : State) (es : List DeviceEvent) : (s.tellDevices es).mem = s.mem := rfl
@[simp] theorem tellDevices_mipInputs (s : State) (es : List DeviceEvent) : (s.tellDevices es).mipInputs = s.mipInputs := rfl
@[simp] theorem tellDevices_deviceLog (s : State) (es : List DeviceEvent) : (s.tellDevices es).deviceLog = s.deviceLog ++ es := rfl
@[simp] theorem tellDevices_draws (s : State) (es : List DeviceEvent) : (s.tellDevices es).draws = s.draws := rfl
@[simp] theorem tellDevices_x (s : State) (es : List DeviceEvent) (i : RegIdx) : (s.tellDevices es).x i = s.x i := by simp [State.x]

/-! ### `trapEnter` -/

@[simp] theorem trapEnter_cfg (s : State) (c : Cause) (q : Bool) (e : Word) : (s.trapEnter c q e).cfg = s.cfg := rfl
@[simp] theorem trapEnter_xs (s : State) (c : Cause) (q : Bool) (e : Word) : (s.trapEnter c q e).xs = s.xs := rfl
@[simp] theorem trapEnter_pc (s : State) (c : Cause) (q : Bool) (e : Word) : (s.trapEnter c q e).pc = s.mtvec := rfl
@[simp] theorem trapEnter_ia (s : State) (c : Cause) (q : Bool) (e : Word) : (s.trapEnter c q e).ia = s.ia := rfl
@[simp] theorem trapEnter_mstatusMie (s : State) (c : Cause) (q : Bool) (e : Word) : (s.trapEnter c q e).mstatusMie = false := rfl
@[simp] theorem trapEnter_mstatusMpie (s : State) (c : Cause) (q : Bool) (e : Word) : (s.trapEnter c q e).mstatusMpie = s.mstatusMie := rfl
@[simp] theorem trapEnter_mepc (s : State) (c : Cause) (q : Bool) (e : Word) : (s.trapEnter c q e).mepc = e := rfl
@[simp] theorem trapEnter_mcauseCause (s : State) (c : Cause) (q : Bool) (e : Word) : (s.trapEnter c q e).mcauseCause = c := rfl
@[simp] theorem trapEnter_mcauseIrq (s : State) (c : Cause) (q : Bool) (e : Word) : (s.trapEnter c q e).mcauseIrq = q := rfl
@[simp] theorem trapEnter_mtvec (s : State) (c : Cause) (q : Bool) (e : Word) : (s.trapEnter c q e).mtvec = s.mtvec := rfl
@[simp] theorem trapEnter_mip (s : State) (c : Cause) (q : Bool) (e : Word) : (s.trapEnter c q e).mip = s.mip := rfl
@[simp] theorem trapEnter_mie (s : State) (c : Cause) (q : Bool) (e : Word) : (s.trapEnter c q e).mie = s.mie := rfl
@[simp] theorem trapEnter_mscratch (s : State) (c : Cause) (q : Bool) (e : Word) : (s.trapEnter c q e).mscratch = s.mscratch := rfl
@[simp] theorem trapEnter_mem (s : State) (c : Cause) (q : Bool) (e : Word) : (s.trapEnter c q e).mem = s.mem := rfl
@[simp] theorem trapEnter_mipInputs (s : State) (c : Cause) (q : Bool) (e : Word) : (s.trapEnter c q e).mipInputs = s.mipInputs := rfl
@[simp] theorem trapEnter_deviceLog (s : State) (c : Cause) (q : Bool) (e : Word) : (s.trapEnter c q e).deviceLog = s.deviceLog := rfl
@[simp] theorem trapEnter_draws (s : State) (c : Cause) (q : Bool) (e : Word) : (s.trapEnter c q e).draws = s.draws := rfl
@[simp] theorem trapEnter_x (s : State) (c : Cause) (q : Bool) (e : Word) (i : RegIdx) : (s.trapEnter c q e).x i = s.x i := by simp [State.x]

/-! ### `trapReturn` -/

@[simp] theorem trapReturn_cfg (s : State) : (s.trapReturn).cfg = s.cfg := rfl
@[simp] theorem trapReturn_xs (s : State) : (s.trapReturn).xs = s.xs := rfl
@[simp] theorem trapReturn_pc (s : State) : (s.trapReturn).pc = s.mepc := rfl
@[simp] theorem trapReturn_ia (s : State) : (s.trapReturn).ia = s.ia := rfl
@[simp] theorem trapReturn_mstatusMie (s : State) : (s.trapReturn).mstatusMie = s.mstatusMpie := rfl
@[simp] theorem trapReturn_mstatusMpie (s : State) : (s.trapReturn).mstatusMpie = true := rfl
@[simp] theorem trapReturn_mepc (s : State) : (s.trapReturn).mepc = s.mepc := rfl
@[simp] theorem trapReturn_mcauseCause (s : State) : (s.trapReturn).mcauseCause = s.mcauseCause := rfl
@[simp] theorem trapReturn_mcauseIrq (s : State) : (s.trapReturn).mcauseIrq = s.mcauseIrq := rfl
@[simp] theorem trapReturn_mtvec (s : State) : (s.trapReturn).mtvec = s.mtvec := rfl
@[simp] theorem trapReturn_mip (s : State) : (s.trapReturn).mip = s.mip := rfl
@[simp] theorem trapReturn_mie (s : State) : (s.trapReturn).mie = s.mie := rfl
@[simp] theorem trapReturn_mscratch (s : State) : (s.trapReturn).mscratch = s.mscratch := rfl
@[simp] theorem trapReturn_mem (s : State) : (s.trapReturn).mem = s.mem := rfl
@[simp] theorem trapReturn_mipInputs (s : State) : (s.trapReturn).mipInputs = s.mipInputs := rfl
@[simp] theorem trapReturn_deviceLog (s : State) : (s.trapReturn).deviceLog = s.deviceLog := rfl
@[simp] theorem trapReturn_draws (s : State) : (s.trapReturn).draws = s.draws := rfl
@[simp] theorem trapReturn_x (s : State) (i : RegIdx) : (s.trapReturn).x i = s.x i := by simp [State.x]

/-! ### `setX` -/

@[simp] theorem setX_cfg (s : State) (r : RegIdx) (v : Word) : (s.setX r v).cfg = s.cfg := by unfold State.setX; split <;> rfl
@[simp] theorem setX_pc (s : State) (r : RegIdx) (v : Word) : (s.setX r v).pc = s.pc := by unfold State.setX; split <;> rfl
@[simp] theorem setX_ia (s : State) (r : RegIdx) (v : Word) : (s.setX r v).ia = s.ia := by unfold State.setX; split <;> rfl
@[simp] theorem setX_mstatusMie (s : State) (r : RegIdx) (v : Word) : (s.setX r v).mstatusMie = s.mstatusMie := by unfold State.setX; split <;> rfl
@[simp] theorem setX_mstatusMpie (s : State) (r : RegIdx) (v : Word) : (s.setX r v).mstatusMpie = s.mstatusMpie := by unfold State.setX; split <;> rfl
@[simp] theorem setX_mepc (s : State) (r : RegIdx) (v : Word) : (s.setX r v).mepc = s.mepc := by unfold State.setX; split <;> rfl
@[simp] theorem setX_mcauseCause (s : State) (r : RegIdx) (v : Word) : (s.setX r v).mcauseCause = s.mcauseCause := by unfold State.setX; split <;> rfl
@[simp] theorem setX_mcauseIrq (s : State) (r : RegIdx) (v : Word) : (s.setX r v).mcauseIrq = s.mcauseIrq := by unfold State.setX; split <;> rfl
@[simp] theorem setX_mtvec (s : State) (r : RegIdx) (v : Word) : (s.setX r v).mtvec = s.mtvec := by unfold State.setX; split <;> rfl
@[simp] theorem setX_mip (s : State) (r : RegIdx) (v : Word) : (s.setX r v).mip = s.mip := by unfold State.setX; split <;> rfl
@[simp] theorem setX_mie (s : State) (r : RegIdx) (v : Word) : (s.setX r v).mie = s.mie := by unfold State.setX; split <;> rfl
@[simp] theorem setX_mscratch (s : State) (r : RegIdx) (v : Word) : (s.setX r v).mscratch = s.mscratch := by unfold State.setX; split <;> rfl
@[simp] theorem setX_mem (s : State) (r : RegIdx) (v : Word) : (s.setX r v).mem = s.mem := by unfold State.setX; split <;> rfl
@[simp] theorem setX_mipInputs (s : State) (r : RegIdx) (v : Word) : (s.setX r v).mipInputs = s.mipInputs := by unfold State.setX; split <;> rfl
@[simp] theorem setX_deviceLog (s : State) (r : RegIdx) (v : Word) : (s.setX r v).deviceLog = s.deviceLog := by unfold State.setX; split <;> rfl
@[simp] theorem setX_draws (s : State) (r : RegIdx) (v : Word) : (s.setX r v).draws = s.draws := by unfold State.setX; split <;> rfl

@[simp] theorem x_zero (s : State) : s.x 0#5 = 0#64 := by simp [State.x]

@[simp] theorem setX_zero (s : State) (v : Word) : s.setX 0#5 v = s := by simp [State.setX]

/-- What `setX` does to every register (rule R21). -/
theorem setX_x (s : State) (r : RegIdx) (v : Word) (i : RegIdx) :
    (s.setX r v).x i = if i = 0#5 then 0#64 else if i = r then v else s.x i := by
  by_cases hi : i = 0#5
  · simp [hi]
  · by_cases hr : r = 0#5
    · subst hr; simp [hi]
    · simp only [State.x, State.setX, hi, hr, if_false]
      by_cases h : i = r
      · subst h; simp
      · have h1 : i.toNat ≠ r.toNat := fun e => h (BitVec.eq_of_toNat_eq e)
        have h2 : i.toNat ≠ 0 := fun e => hi (BitVec.eq_of_toNat_eq e)
        have h3 : r.toNat ≠ 0 := fun e => hr (BitVec.eq_of_toNat_eq e)
        simp only [h, if_false]
        rw [Vector.getElem_set_ne]
        omega

/-! ### `afterRead` -/

@[simp] theorem afterRead_cfg (s : State) (a : Word) (n : Nat) : (afterRead s a n).cfg = s.cfg := by unfold afterRead; (repeat' split) <;> rfl
@[simp] theorem afterRead_xs (s : State) (a : Word) (n : Nat) : (afterRead s a n).xs = s.xs := by unfold afterRead; (repeat' split) <;> rfl
@[simp] theorem afterRead_pc (s : State) (a : Word) (n : Nat) : (afterRead s a n).pc = s.pc := by unfold afterRead; (repeat' split) <;> rfl
@[simp] theorem afterRead_ia (s : State) (a : Word) (n : Nat) : (afterRead s a n).ia = s.ia := by unfold afterRead; (repeat' split) <;> rfl
@[simp] theorem afterRead_mstatusMie (s : State) (a : Word) (n : Nat) : (afterRead s a n).mstatusMie = s.mstatusMie := by unfold afterRead; (repeat' split) <;> rfl
@[simp] theorem afterRead_mstatusMpie (s : State) (a : Word) (n : Nat) : (afterRead s a n).mstatusMpie = s.mstatusMpie := by unfold afterRead; (repeat' split) <;> rfl
@[simp] theorem afterRead_mepc (s : State) (a : Word) (n : Nat) : (afterRead s a n).mepc = s.mepc := by unfold afterRead; (repeat' split) <;> rfl
@[simp] theorem afterRead_mcauseCause (s : State) (a : Word) (n : Nat) : (afterRead s a n).mcauseCause = s.mcauseCause := by unfold afterRead; (repeat' split) <;> rfl
@[simp] theorem afterRead_mcauseIrq (s : State) (a : Word) (n : Nat) : (afterRead s a n).mcauseIrq = s.mcauseIrq := by unfold afterRead; (repeat' split) <;> rfl
@[simp] theorem afterRead_mtvec (s : State) (a : Word) (n : Nat) : (afterRead s a n).mtvec = s.mtvec := by unfold afterRead; (repeat' split) <;> rfl
@[simp] theorem afterRead_mip (s : State) (a : Word) (n : Nat) : (afterRead s a n).mip = s.mip := by unfold afterRead; (repeat' split) <;> rfl
@[simp] theorem afterRead_mie (s : State) (a : Word) (n : Nat) : (afterRead s a n).mie = s.mie := by unfold afterRead; (repeat' split) <;> rfl
@[simp] theorem afterRead_mscratch (s : State) (a : Word) (n : Nat) : (afterRead s a n).mscratch = s.mscratch := by unfold afterRead; (repeat' split) <;> rfl
@[simp] theorem afterRead_mem (s : State) (a : Word) (n : Nat) : (afterRead s a n).mem = s.mem := by unfold afterRead; (repeat' split) <;> rfl
@[simp] theorem afterRead_mipInputs (s : State) (a : Word) (n : Nat) : (afterRead s a n).mipInputs = s.mipInputs := by unfold afterRead; (repeat' split) <;> rfl
@[simp] theorem afterRead_x (s : State) (a : Word) (n : Nat) (i : RegIdx) : (afterRead s a n).x i = s.x i := by simp [State.x]

theorem afterRead_memory (s : State) (a : Word) (n : Nat) (h : touchesDevice s.cfg n a = false) : afterRead s a n = s := by
  simp [afterRead, h]

/-- An aligned read of a device register is one event (rule R62). -/
theorem afterRead_device (s : State) (a : Word) (n : Nat) (h : touchesDevice s.cfg n a = true) (ha : aligned a n = true) :
    afterRead s a n = s.drawn.tellDevices [.memRead a n] := by
  simp [afterRead, h, ha]

/-- A misaligned one is byte accesses in a free order (rule R62). -/
theorem afterRead_device_misaligned (s : State) (a : Word) (n : Nat) (h : touchesDevice s.cfg n a = true)
    (ha : aligned a n = false) :
    afterRead s a n = s.drawn.drawn.tellDevices (pickOrder s.drawn.freshWord.toNat (byteReads s.cfg n a)) := by
  simp [afterRead, h, ha]

/-! ### `afterWrite` -/

@[simp] theorem afterWrite_cfg (s : State) (a : Word) (n : Nat) (v : Word) : (afterWrite s a n v).cfg = s.cfg := by unfold afterWrite; (repeat' split) <;> rfl
@[simp] theorem afterWrite_xs (s : State) (a : Word) (n : Nat) (v : Word) : (afterWrite s a n v).xs = s.xs := by unfold afterWrite; (repeat' split) <;> rfl

/-- An aligned write to a device register is one event (rule R62). -/
theorem afterWrite_device (s : State) (a : Word) (n : Nat) (v : Word) (h : touchesDevice s.cfg n a = true)
    (ha : aligned a n = true) :
    afterWrite s a n v = { s with mem := writtenMem s.cfg n s.mem a v }.tellDevices [.memWrite a n (lowBytes n v)] := by
  simp [afterWrite, h, ha]

/-- A misaligned one is byte accesses in a free order (rule R62). -/
theorem afterWrite_device_misaligned (s : State) (a : Word) (n : Nat) (v : Word) (h : touchesDevice s.cfg n a = true)
    (ha : aligned a n = false) :
    afterWrite s a n v = { s with mem := writtenMem s.cfg n s.mem a v }.drawn.tellDevices
      (pickOrder s.freshWord.toNat (byteWrites s.cfg n a v)) := by
  simp [afterWrite, h, ha]
@[simp] theorem afterWrite_pc (s : State) (a : Word) (n : Nat) (v : Word) : (afterWrite s a n v).pc = s.pc := by unfold afterWrite; (repeat' split) <;> rfl
@[simp] theorem afterWrite_ia (s : State) (a : Word) (n : Nat) (v : Word) : (afterWrite s a n v).ia = s.ia := by unfold afterWrite; (repeat' split) <;> rfl
@[simp] theorem afterWrite_mstatusMie (s : State) (a : Word) (n : Nat) (v : Word) : (afterWrite s a n v).mstatusMie = s.mstatusMie := by unfold afterWrite; (repeat' split) <;> rfl
@[simp] theorem afterWrite_mstatusMpie (s : State) (a : Word) (n : Nat) (v : Word) : (afterWrite s a n v).mstatusMpie = s.mstatusMpie := by unfold afterWrite; (repeat' split) <;> rfl
@[simp] theorem afterWrite_mepc (s : State) (a : Word) (n : Nat) (v : Word) : (afterWrite s a n v).mepc = s.mepc := by unfold afterWrite; (repeat' split) <;> rfl
@[simp] theorem afterWrite_mcauseCause (s : State) (a : Word) (n : Nat) (v : Word) : (afterWrite s a n v).mcauseCause = s.mcauseCause := by unfold afterWrite; (repeat' split) <;> rfl
@[simp] theorem afterWrite_mcauseIrq (s : State) (a : Word) (n : Nat) (v : Word) : (afterWrite s a n v).mcauseIrq = s.mcauseIrq := by unfold afterWrite; (repeat' split) <;> rfl
@[simp] theorem afterWrite_mtvec (s : State) (a : Word) (n : Nat) (v : Word) : (afterWrite s a n v).mtvec = s.mtvec := by unfold afterWrite; (repeat' split) <;> rfl
@[simp] theorem afterWrite_mip (s : State) (a : Word) (n : Nat) (v : Word) : (afterWrite s a n v).mip = s.mip := by unfold afterWrite; (repeat' split) <;> rfl
@[simp] theorem afterWrite_mie (s : State) (a : Word) (n : Nat) (v : Word) : (afterWrite s a n v).mie = s.mie := by unfold afterWrite; (repeat' split) <;> rfl
@[simp] theorem afterWrite_mscratch (s : State) (a : Word) (n : Nat) (v : Word) : (afterWrite s a n v).mscratch = s.mscratch := by unfold afterWrite; (repeat' split) <;> rfl
@[simp] theorem afterWrite_mipInputs (s : State) (a : Word) (n : Nat) (v : Word) : (afterWrite s a n v).mipInputs = s.mipInputs := by unfold afterWrite; (repeat' split) <;> rfl
@[simp] theorem afterWrite_x (s : State) (a : Word) (n : Nat) (v : Word) (i : RegIdx) : (afterWrite s a n v).x i = s.x i := by simp [State.x]

/-! ### `afterCsrRead` -/

@[simp] theorem afterCsrRead_cfg (s : State) (n : CsrIdx) : (afterCsrRead s n).cfg = s.cfg := by unfold afterCsrRead; split <;> rfl
@[simp] theorem afterCsrRead_xs (s : State) (n : CsrIdx) : (afterCsrRead s n).xs = s.xs := by unfold afterCsrRead; split <;> rfl
@[simp] theorem afterCsrRead_pc (s : State) (n : CsrIdx) : (afterCsrRead s n).pc = s.pc := by unfold afterCsrRead; split <;> rfl
@[simp] theorem afterCsrRead_ia (s : State) (n : CsrIdx) : (afterCsrRead s n).ia = s.ia := by unfold afterCsrRead; split <;> rfl
@[simp] theorem afterCsrRead_mstatusMie (s : State) (n : CsrIdx) : (afterCsrRead s n).mstatusMie = s.mstatusMie := by unfold afterCsrRead; split <;> rfl
@[simp] theorem afterCsrRead_mstatusMpie (s : State) (n : CsrIdx) : (afterCsrRead s n).mstatusMpie = s.mstatusMpie := by unfold afterCsrRead; split <;> rfl
@[simp] theorem afterCsrRead_mepc (s : State) (n : CsrIdx) : (afterCsrRead s n).mepc = s.mepc := by unfold afterCsrRead; split <;> rfl
@[simp] theorem afterCsrRead_mcauseCause (s : State) (n : CsrIdx) : (afterCsrRead s n).mcauseCause = s.mcauseCause := by unfold afterCsrRead; split <;> rfl
@[simp] theorem afterCsrRead_mcauseIrq (s : State) (n : CsrIdx) : (afterCsrRead s n).mcauseIrq = s.mcauseIrq := by unfold afterCsrRead; split <;> rfl
@[simp] theorem afterCsrRead_mtvec (s : State) (n : CsrIdx) : (afterCsrRead s n).mtvec = s.mtvec := by unfold afterCsrRead; split <;> rfl
@[simp] theorem afterCsrRead_mip (s : State) (n : CsrIdx) : (afterCsrRead s n).mip = s.mip := by unfold afterCsrRead; split <;> rfl
@[simp] theorem afterCsrRead_mie (s : State) (n : CsrIdx) : (afterCsrRead s n).mie = s.mie := by unfold afterCsrRead; split <;> rfl
@[simp] theorem afterCsrRead_mscratch (s : State) (n : CsrIdx) : (afterCsrRead s n).mscratch = s.mscratch := by unfold afterCsrRead; split <;> rfl
@[simp] theorem afterCsrRead_mem (s : State) (n : CsrIdx) : (afterCsrRead s n).mem = s.mem := by unfold afterCsrRead; split <;> rfl
@[simp] theorem afterCsrRead_mipInputs (s : State) (n : CsrIdx) : (afterCsrRead s n).mipInputs = s.mipInputs := by unfold afterCsrRead; split <;> rfl
@[simp] theorem afterCsrRead_deviceLog (s : State) (n : CsrIdx) : (afterCsrRead s n).deviceLog = s.deviceLog := by unfold afterCsrRead; split <;> rfl
@[simp] theorem afterCsrRead_x (s : State) (n : CsrIdx) (i : RegIdx) : (afterCsrRead s n).x i = s.x i := by simp [State.x]

/-! ### `readAction` -/

@[simp] theorem readAction_cfg (s : State) (n : CsrIdx) : (readAction s n).cfg = s.cfg := by unfold readAction; split <;> rfl
@[simp] theorem readAction_xs (s : State) (n : CsrIdx) : (readAction s n).xs = s.xs := by unfold readAction; split <;> rfl
@[simp] theorem readAction_pc (s : State) (n : CsrIdx) : (readAction s n).pc = s.pc := by unfold readAction; split <;> rfl
@[simp] theorem readAction_ia (s : State) (n : CsrIdx) : (readAction s n).ia = s.ia := by unfold readAction; split <;> rfl
@[simp] theorem readAction_mstatusMie (s : State) (n : CsrIdx) : (readAction s n).mstatusMie = s.mstatusMie := by unfold readAction; split <;> rfl
@[simp] theorem readAction_mstatusMpie (s : State) (n : CsrIdx) : (readAction s n).mstatusMpie = s.mstatusMpie := by unfold readAction; split <;> rfl
@[simp] theorem readAction_mepc (s : State) (n : CsrIdx) : (readAction s n).mepc = s.mepc := by unfold readAction; split <;> rfl
@[simp] theorem readAction_mcauseCause (s : State) (n : CsrIdx) : (readAction s n).mcauseCause = s.mcauseCause := by unfold readAction; split <;> rfl
@[simp] theorem readAction_mcauseIrq (s : State) (n : CsrIdx) : (readAction s n).mcauseIrq = s.mcauseIrq := by unfold readAction; split <;> rfl
@[simp] theorem readAction_mtvec (s : State) (n : CsrIdx) : (readAction s n).mtvec = s.mtvec := by unfold readAction; split <;> rfl
@[simp] theorem readAction_mip (s : State) (n : CsrIdx) : (readAction s n).mip = s.mip := by unfold readAction; split <;> rfl
@[simp] theorem readAction_mie (s : State) (n : CsrIdx) : (readAction s n).mie = s.mie := by unfold readAction; split <;> rfl
@[simp] theorem readAction_mscratch (s : State) (n : CsrIdx) : (readAction s n).mscratch = s.mscratch := by unfold readAction; split <;> rfl
@[simp] theorem readAction_mem (s : State) (n : CsrIdx) : (readAction s n).mem = s.mem := by unfold readAction; split <;> rfl
@[simp] theorem readAction_mipInputs (s : State) (n : CsrIdx) : (readAction s n).mipInputs = s.mipInputs := by unfold readAction; split <;> rfl
@[simp] theorem readAction_draws (s : State) (n : CsrIdx) : (readAction s n).draws = s.draws := by unfold readAction; split <;> rfl
@[simp] theorem readAction_x (s : State) (n : CsrIdx) (i : RegIdx) : (readAction s n).x i = s.x i := by simp [State.x]

/-! ### `beginInstr` -/

@[simp] theorem beginInstr_cfg (s : State) : (s.beginInstr).cfg = s.cfg := by simp [State.beginInstr]
@[simp] theorem beginInstr_xs (s : State) : (s.beginInstr).xs = s.xs := by simp [State.beginInstr]
@[simp] theorem beginInstr_pc (s : State) : (s.beginInstr).pc = s.pc + 4#64 := by simp [State.beginInstr]
@[simp] theorem beginInstr_ia (s : State) : (s.beginInstr).ia = s.pc := by simp [State.beginInstr]
@[simp] theorem beginInstr_mstatusMie (s : State) : (s.beginInstr).mstatusMie = s.mstatusMie := by simp [State.beginInstr]
@[simp] theorem beginInstr_mstatusMpie (s : State) : (s.beginInstr).mstatusMpie = s.mstatusMpie := by simp [State.beginInstr]
@[simp] theorem beginInstr_mepc (s : State) : (s.beginInstr).mepc = s.mepc := by simp [State.beginInstr]
@[simp] theorem beginInstr_mcauseCause (s : State) : (s.beginInstr).mcauseCause = s.mcauseCause := by simp [State.beginInstr]
@[simp] theorem beginInstr_mcauseIrq (s : State) : (s.beginInstr).mcauseIrq = s.mcauseIrq := by simp [State.beginInstr]
@[simp] theorem beginInstr_mtvec (s : State) : (s.beginInstr).mtvec = s.mtvec := by simp [State.beginInstr]
@[simp] theorem beginInstr_mip (s : State) : (s.beginInstr).mip = s.mip := by simp [State.beginInstr]
@[simp] theorem beginInstr_mie (s : State) : (s.beginInstr).mie = s.mie := by simp [State.beginInstr]
@[simp] theorem beginInstr_mscratch (s : State) : (s.beginInstr).mscratch = s.mscratch := by simp [State.beginInstr]
@[simp] theorem beginInstr_mem (s : State) : (s.beginInstr).mem = s.mem := by simp [State.beginInstr]
@[simp] theorem beginInstr_mipInputs (s : State) : (s.beginInstr).mipInputs = s.mipInputs := by simp [State.beginInstr]
@[simp] theorem beginInstr_x (s : State) (i : RegIdx) : (s.beginInstr).x i = s.x i := by simp [State.x]

/-! ### `sampleMip` -/

@[simp] theorem sampleMip_cfg (s : State) : (s.sampleMip).cfg = s.cfg := by unfold State.sampleMip; split <;> rfl
@[simp] theorem sampleMip_xs (s : State) : (s.sampleMip).xs = s.xs := by unfold State.sampleMip; split <;> rfl
@[simp] theorem sampleMip_pc (s : State) : (s.sampleMip).pc = s.pc := by unfold State.sampleMip; split <;> rfl
@[simp] theorem sampleMip_ia (s : State) : (s.sampleMip).ia = s.ia := by unfold State.sampleMip; split <;> rfl
@[simp] theorem sampleMip_mstatusMie (s : State) : (s.sampleMip).mstatusMie = s.mstatusMie := by unfold State.sampleMip; split <;> rfl
@[simp] theorem sampleMip_mstatusMpie (s : State) : (s.sampleMip).mstatusMpie = s.mstatusMpie := by unfold State.sampleMip; split <;> rfl
@[simp] theorem sampleMip_mepc (s : State) : (s.sampleMip).mepc = s.mepc := by unfold State.sampleMip; split <;> rfl
@[simp] theorem sampleMip_mcauseCause (s : State) : (s.sampleMip).mcauseCause = s.mcauseCause := by unfold State.sampleMip; split <;> rfl
@[simp] theorem sampleMip_mcauseIrq (s : State) : (s.sampleMip).mcauseIrq = s.mcauseIrq := by unfold State.sampleMip; split <;> rfl
@[simp] theorem sampleMip_mtvec (s : State) : (s.sampleMip).mtvec = s.mtvec := by unfold State.sampleMip; split <;> rfl
@[simp] theorem sampleMip_mie (s : State) : (s.sampleMip).mie = s.mie := by unfold State.sampleMip; split <;> rfl
@[simp] theorem sampleMip_mscratch (s : State) : (s.sampleMip).mscratch = s.mscratch := by unfold State.sampleMip; split <;> rfl
@[simp] theorem sampleMip_mem (s : State) : (s.sampleMip).mem = s.mem := by unfold State.sampleMip; split <;> rfl
@[simp] theorem sampleMip_deviceLog (s : State) : (s.sampleMip).deviceLog = s.deviceLog := by unfold State.sampleMip; split <;> rfl
@[simp] theorem sampleMip_draws (s : State) : (s.sampleMip).draws = s.draws := by unfold State.sampleMip; split <;> rfl
@[simp] theorem sampleMip_x (s : State) (i : RegIdx) : (s.sampleMip).x i = s.x i := by simp [State.x]

@[simp] theorem raiseIllegal_eq (s : State) : s.raiseIllegal = s.trapEnter s.cfg.causeIllegal false s.ia := rfl

@[simp] theorem raiseLoadMisaligned_eq (s : State) :
    s.raiseLoadMisaligned = s.trapEnter s.cfg.causeLoadMisaligned false s.ia := rfl

@[simp] theorem raiseStoreMisaligned_eq (s : State) :
    s.raiseStoreMisaligned = s.trapEnter s.cfg.causeStoreMisaligned false s.ia := rfl

@[simp] theorem takeInterrupt_eq (s : State) :
    s.takeInterrupt = s.trapEnter (BitVec.ofNat 63 (interruptNumber s)) true s.pc := rfl

end Sys2Proof.Machine
end

