-- ==== Sys2Proof/Laws/Memory.lean ====
section
/-! SUPPORT. Memory: read after write, and that every memory operation keeps the canonical form. -/

namespace Sys2Proof.Machine

/-! ### One byte -/

/-- Below the lowest listed address memory reads as unlisted. -/
theorem Memory.read_below : ∀ (m : Memory) (lo a : Nat), Memory.wfFrom lo m = true → a < lo → m.read a = Memory.unlisted
  | [], _, _, _, _ => rfl
  | (k, b) :: rest, lo, a, h, ha => by
    simp only [Memory.wfFrom, Bool.and_eq_true, decide_eq_true_eq] at h
    have hk : k ≠ a := by omega
    simp only [Memory.read, hk, if_false]
    exact Memory.read_below rest (k + 1) a h.2 (by omega)

/-- A memory in canonical form from `lo` on is so from any lower address on. -/
theorem Memory.wfFrom_mono : ∀ (m : Memory) (lo lo' : Nat), Memory.wfFrom lo m = true → lo' ≤ lo → Memory.wfFrom lo' m = true
  | [], _, _, _, _ => rfl
  | (k, b) :: rest, lo, lo', h, hl => by
    simp only [Memory.wfFrom, Bool.and_eq_true, decide_eq_true_eq] at h ⊢
    exact ⟨⟨⟨by omega, h.1.1.2⟩, h.1.2⟩, h.2⟩

theorem Memory.read_write_same_from : ∀ (m : Memory) (lo a : Nat) (b : Byte), Memory.wfFrom lo m = true →
    (m.write a b).read a = b
  | [], _, a, b, _ => by
    by_cases hb : b = Memory.unlisted <;> simp [Memory.write, Memory.read, hb]
  | (k, c) :: rest, lo, a, b, h => by
    have hr : Memory.wfFrom (k + 1) rest = true := by
      simp only [Memory.wfFrom, Bool.and_eq_true] at h; exact h.2
    rcases Nat.lt_trichotomy k a with hk | hk | hk
    · have hne : k ≠ a := by omega
      simp only [Memory.write, hk, if_true, Memory.read, hne, if_false]
      exact Memory.read_write_same_from rest (k + 1) a b hr
    · subst hk
      by_cases hb : b = Memory.unlisted
      · simp only [Memory.write, lt_irrefl, if_false, if_true, hb]
        exact Memory.read_below rest (k + 1) k hr (by omega)
      · simp [Memory.write, Memory.read, hb]
    · have h1 : ¬ k < a := by omega
      have h2 : k ≠ a := by omega
      by_cases hb : b = Memory.unlisted
      · simp only [Memory.write, h1, h2, if_false, if_true, hb, Memory.read]
        exact Memory.read_below rest (k + 1) a hr (by omega)
      · simp [Memory.write, Memory.read, h1, h2, hb]

/-- A byte reads back as it was written. -/
theorem Memory.read_write_same (m : Memory) (a : Nat) (b : Byte) (h : m.wf = true) : (m.write a b).read a = b :=
  Memory.read_write_same_from m 0 a b h

/-- A write leaves every other byte alone. -/
theorem Memory.read_write_other : ∀ (m : Memory) (a a' : Nat) (b : Byte), a' ≠ a → (m.write a b).read a' = m.read a'
  | [], a, a', b, h => by
    have h' : a ≠ a' := fun e => h e.symm
    by_cases hb : b = Memory.unlisted <;> simp [Memory.write, Memory.read, hb, h']
  | (k, c) :: rest, a, a', b, h => by
    have h' : a ≠ a' := fun e => h e.symm
    rcases Nat.lt_trichotomy k a with hk | hk | hk
    · by_cases hka : k = a'
      · subst hka
        simp only [Memory.write, hk, if_true, Memory.read]
      · simp only [Memory.write, hk, if_true, Memory.read, hka, if_false]
        exact Memory.read_write_other rest a a' b h
    · subst hk
      by_cases hb : b = Memory.unlisted <;> simp [Memory.write, Memory.read, hb, h']
    · have h1 : ¬ k < a := by omega
      have h2 : k ≠ a := by omega
      by_cases hb : b = Memory.unlisted <;> simp [Memory.write, Memory.read, h1, h2, hb, h']

theorem Memory.write_wfFrom : ∀ (m : Memory) (lo a : Nat) (b : Byte), Memory.wfFrom lo m = true → lo ≤ a → a < 2 ^ 64 →
    Memory.wfFrom lo (m.write a b) = true
  | [], lo, a, b, _, hl, ha => by
    by_cases hb : b = Memory.unlisted
    · simp [Memory.write, hb, Memory.wfFrom]
    · simp [Memory.write, hb, Memory.wfFrom, hl]
      omega
  | (k, c) :: rest, lo, a, b, h, hl, ha => by
    simp only [Memory.wfFrom, Bool.and_eq_true, decide_eq_true_eq] at h
    obtain ⟨⟨⟨h1, h2⟩, h3⟩, h4⟩ := h
    rcases Nat.lt_trichotomy k a with hk | hk | hk
    · simp only [Memory.write, hk, if_true, Memory.wfFrom, Bool.and_eq_true, decide_eq_true_eq]
      exact ⟨⟨⟨h1, h2⟩, h3⟩, Memory.write_wfFrom rest (k + 1) a b h4 (by omega) ha⟩
    · subst hk
      by_cases hb : b = Memory.unlisted
      · simp only [Memory.write, lt_irrefl, if_false, if_true, hb]
        exact Memory.wfFrom_mono rest (k + 1) lo h4 (by omega)
      · simp only [Memory.write, lt_irrefl, if_false, if_true, hb, Memory.wfFrom, Bool.and_eq_true, decide_eq_true_eq]
        exact ⟨⟨⟨h1, h2⟩, hb⟩, h4⟩
    · have hk1 : ¬ k < a := by omega
      have hk2 : k ≠ a := by omega
      by_cases hb : b = Memory.unlisted
      · simp only [Memory.write, hk1, hk2, if_false, if_true, hb, Memory.wfFrom, Bool.and_eq_true, decide_eq_true_eq]
        exact ⟨⟨⟨h1, h2⟩, h3⟩, h4⟩
      · simp only [Memory.write, hk1, hk2, if_false, hb, Memory.wfFrom, Bool.and_eq_true, decide_eq_true_eq]
        exact ⟨⟨⟨hl, ha⟩, hb⟩, ⟨⟨by omega, h2⟩, h3⟩, h4⟩

/-- A write of one byte keeps the canonical form. -/
theorem Memory.write_wf (m : Memory) (a : Nat) (b : Byte) (h : m.wf = true) (ha : a < 2 ^ 64) : (m.write a b).wf = true :=
  Memory.write_wfFrom m 0 a b h (Nat.zero_le a) ha

/-- The addresses listed after a write are those before it, and the one written. -/
theorem Memory.mem_write : ∀ (m : Memory) (a : Nat) (b : Byte) (e : Host.Cell), e ∈ m.write a b → e ∈ m ∨ e = (a, b)
  | [], a, b, e, h => by
    by_cases hb : b = Memory.unlisted <;> simp [Memory.write, hb] at h
    exact Or.inr h
  | (k, c) :: rest, a, b, e, h => by
    simp only [Memory.write] at h
    split at h
    · rcases List.mem_cons.mp h with h | h
      · exact Or.inl (h ▸ List.mem_cons_self)
      · rcases Memory.mem_write rest a b e h with h | h
        · exact Or.inl (List.mem_cons_of_mem _ h)
        · exact Or.inr h
    · split at h
      · split at h
        · exact Or.inl (List.mem_cons_of_mem _ h)
        · rcases List.mem_cons.mp h with h | h
          · exact Or.inr h
          · exact Or.inl (List.mem_cons_of_mem _ h)
      · split at h
        · exact Or.inl h
        · rcases List.mem_cons.mp h with h | h
          · exact Or.inr h
          · exact Or.inl h

/-- Two memories in canonical form that read alike are equal. -/
theorem Memory.ext_from : ∀ (m m' : Memory) (lo : Nat), Memory.wfFrom lo m = true → Memory.wfFrom lo m' = true →
    (∀ a, m.read a = m'.read a) → m = m'
  | [], [], _, _, _, _ => rfl
  | [], (k, b) :: rest, lo, _, h', hr => by
    have := hr k
    simp only [Memory.wfFrom, Bool.and_eq_true, decide_eq_true_eq] at h'
    simp only [Memory.read, if_true] at this
    exact absurd this.symm h'.1.2
  | (k, b) :: rest, [], lo, h, _, hr => by
    have := hr k
    simp only [Memory.wfFrom, Bool.and_eq_true, decide_eq_true_eq] at h
    simp only [Memory.read, if_true] at this
    exact absurd this h.1.2
  | (k, b) :: rest, (k', b') :: rest', lo, h, h', hr => by
    simp only [Memory.wfFrom, Bool.and_eq_true, decide_eq_true_eq] at h h'
    have below : ∀ a, a < k + 1 → Memory.read rest a = Memory.unlisted := fun a ha => Memory.read_below rest (k + 1) a h.2 ha
    have below' : ∀ a, a < k' + 1 → Memory.read rest' a = Memory.unlisted := fun a ha => Memory.read_below rest' (k' + 1) a h'.2 ha
    have hk : k = k' := by
      rcases Nat.lt_trichotomy k k' with hk | hk | hk
      · have hne : k' ≠ k := by omega
        have := hr k
        simp only [Memory.read, if_true, hne, if_false, below' k (by omega)] at this
        exact absurd this h.1.2
      · exact hk
      · have hne : k ≠ k' := by omega
        have := hr k'
        simp only [Memory.read, if_true, hne, if_false, below k' (by omega)] at this
        exact absurd this.symm h'.1.2
    subst hk
    have hb : b = b' := by have := hr k; simpa [Memory.read] using this
    subst hb
    have : rest = rest' := by
      refine Memory.ext_from rest rest' (k + 1) h.2 h'.2 fun a => ?_
      by_cases ha : k = a
      · subst ha; rw [below k (by omega), below' k (by omega)]
      · have := hr a; simpa [Memory.read, ha] using this
    rw [this]

/-- Equal reads, equal memories. -/
theorem Memory.ext_of_read (m m' : Memory) (h : m.wf = true) (h' : m'.wf = true) (hr : ∀ a, m.read a = m'.read a) : m = m' :=
  Memory.ext_from m m' 0 h h' hr

/-! ### Several bytes -/

/-- Where no byte is a device register, `writtenMem` is `writeBytes`. -/
theorem writtenMem_ordinary (c : Config) : ∀ (n : Nat) (m : Memory) (a v : Word), touchesDevice c n a = false →
    writtenMem c n m a v = m.writeBytes n a v
  | 0, _, _, _, _ => rfl
  | n + 1, m, a, v, h => by
    simp only [touchesDevice, Bool.or_eq_false_iff] at h
    simp only [writtenMem, Memory.writeBytes, h.1]
    exact writtenMem_ordinary c n _ _ _ h.2

theorem Memory.writeBytes_wf : ∀ (n : Nat) (m : Memory) (a v : Word), m.wf = true → (m.writeBytes n a v).wf = true
  | 0, _, _, _, h => h
  | n + 1, m, a, _, h => Memory.writeBytes_wf n _ _ _ (Memory.write_wf m _ _ h a.isLt)

theorem writtenMem_wf (c : Config) : ∀ (n : Nat) (m : Memory) (a v : Word), m.wf = true → (writtenMem c n m a v).wf = true
  | 0, _, _, _, h => h
  | n + 1, m, a, v, h => by
    refine writtenMem_wf c n _ _ _ ?_
    split
    · exact h
    · exact Memory.write_wf m _ _ h a.isLt

/-- `writtenMem` puts no device register into memory (rule R52). -/
theorem writtenMem_outsideDevices (c : Config) : ∀ (n : Nat) (m : Memory) (a v : Word), (∀ e ∈ m, isDevice c (BitVec.ofNat 64 e.1) = false) →
    ∀ e ∈ writtenMem c n m a v, isDevice c (BitVec.ofNat 64 e.1) = false
  | 0, _, _, _, h => h
  | n + 1, m, a, _, h => by
    refine writtenMem_outsideDevices c n _ _ _ ?_
    split
    · exact h
    · rename_i hd
      intro e he
      rcases Memory.mem_write _ _ _ _ he with he | he
      · exact h e he
      · subst he; simpa using hd

end Sys2Proof.Machine
end

