-- ==== Sys2Proof/Laws/Access.lean ====
section
/-! SUPPORT. What a read returns, what a write leaves, and what `load` and `store` can do. -/

namespace Sys2Proof.Machine

/-! ### Addresses `a + k` -/

@[simp] theorem plus_zero (a : Word) : plus a 0 = a := by simp [plus]

theorem plus_succ (a : Word) (k : Nat) : plus (a + 1#64) k = plus a (k + 1) := by
  apply BitVec.eq_of_toNat_eq
  simp only [plus, BitVec.toNat_add, BitVec.toNat_ofNat]
  omega

/-- Within one access (fewer than 2^64 bytes) `a + j` and `a + k` differ when `j` and `k` do. -/
theorem plus_inj (a : Word) {j k : Nat} (hj : j < 2 ^ 64) (hk : k < 2 ^ 64) (h : (plus a j).toNat = (plus a k).toNat) :
    j = k := by
  simp only [plus, BitVec.toNat_add, BitVec.toNat_ofNat] at h
  have := a.isLt
  omega

theorem touchesDevice_byte (c : Config) : ∀ (n : Nat) (a : Word), touchesDevice c n a = false → ∀ j, j < n →
    isDevice c (plus a j) = false
  | 0, _, _, j, hj => absurd hj (Nat.not_lt_zero j)
  | n + 1, a, h, j, hj => by
    simp only [touchesDevice, Bool.or_eq_false_iff] at h
    cases j with
    | zero => simpa using h.1
    | succ j => rw [← plus_succ]; exact touchesDevice_byte c n _ h.2 j (by omega)

/-! ### Reading -/

/-- Bit by bit, an `n`-byte read of ordinary memory: bits `8j+7:8j` are the byte at `a + j`, the bits above are 0. -/
theorem readBytes_bit (s : State) : ∀ (n : Nat) (a f : Word), touchesDevice s.cfg n a = false → ∀ i, i < 64 →
    (readBytes s n a f).getLsbD i = (decide (i < 8 * n) && (s.mem.read (plus a (i / 8)).toNat).getLsbD (i % 8))
  | 0, _, _, _, i, _ => by simp [readBytes]
  | n + 1, a, f, h, i, hi => by
    simp only [touchesDevice, Bool.or_eq_false_iff] at h
    simp only [readBytes, readByte, h.1, zext, BitVec.getLsbD_or, BitVec.getLsbD_setWidth, BitVec.getLsbD_shiftLeft, hi,
      decide_true, Bool.true_and]
    by_cases h8 : i < 8
    · have h1 : i / 8 = 0 := by omega
      have h2 : i % 8 = i := by omega
      have h3 : i < 8 * (n + 1) := by omega
      simp [h8, h1, h2, h3]
    · have h4 : (s.mem.read a.toNat).getLsbD i = false := BitVec.getLsbD_of_ge _ _ (by omega)
      have h5 : (i - 8) % 8 = i % 8 := by omega
      have h6 : (i - 8) / 8 + 1 = i / 8 := by omega
      have h7 : (i - 8 < 8 * n) ↔ (i < 8 * (n + 1)) := by omega
      rw [readBytes_bit s n (a + 1#64) (f >>> 8) h.2 (i - 8) (by omega), plus_succ, h5, h6]
      simp [h4, h7, h8]

/-- An `n`-byte read of ordinary memory is the little-endian value of its bytes, with zeros above. -/
theorem readValue_loaded (s : State) (a : Word) (n : Nat) (hn : n ≤ 8) (h : touchesDevice s.cfg n a = false) :
    LoadedValue s a n false (readValue s a n) := by
  constructor
  · intro j hj
    apply BitVec.eq_of_getLsbD_eq
    intro i hi
    rw [BitVec.getLsbD_extractLsb', readValue, readBytes_bit s n a _ h (8 * j + i) (by omega)]
    have h1 : (8 * j + i) / 8 = j := by omega
    have h2 : (8 * j + i) % 8 = i := by omega
    have h3 : 8 * j + i < 8 * n := by omega
    simp [h1, h2, h3, hi]
  · intro i hi hi'
    rw [readValue, readBytes_bit s n a _ h i hi']
    have : ¬ i < 8 * n := by omega
    simp [this]

/-- A value with the right low bytes, extended over them, is the loaded value. -/
theorem loadedValue_of_ext (s : State) (a : Word) (n : Nat) (hn : 0 < n) (signed : Bool) (v w : Word) (h : LoadedValue s a n false v)
    (hlow : ∀ i, i < 8 * n → w.getLsbD i = v.getLsbD i)
    (hhigh : ∀ i, 8 * n ≤ i → i < 64 → w.getLsbD i = (signed && v.getLsbD (8 * n - 1))) : LoadedValue s a n signed w := by
  constructor
  · intro j hj
    rw [← h.1 j hj]
    apply BitVec.eq_of_getLsbD_eq
    intro i hi
    simp only [BitVec.getLsbD_extractLsb']
    rw [hlow (8 * j + i) (by omega)]
  · intro i hi hi'
    rw [hhigh i hi hi', hlow (8 * n - 1) (by omega)]

/-- What a sign-extending load puts in the register (rule R130). -/
theorem signExt_loaded (s : State) (a : Word) (sz : AccessSize) (v : Word) (h : LoadedValue s a sz.bytes false v) :
    LoadedValue s a sz.bytes true (sz.signExt v) := by
  cases sz <;> refine loadedValue_of_ext s a _ (by decide) true v _ h ?_ ?_ <;> intro i hi
  all_goals simp only [AccessSize.bytes] at hi ⊢
  all_goals simp only [AccessSize.signExt, sext, BitVec.getLsbD_signExtend, BitVec.getLsbD_setWidth,
      BitVec.msb_eq_getLsbD_last]
  · have : i < 64 := by omega
    simp [hi, this]
  · intro hi'
    have : ¬ i < 8 := by omega
    simp [hi', this]
  · have : i < 64 := by omega
    simp [hi, this]
  · intro hi'
    have : ¬ i < 16 := by omega
    simp [hi', this]
  · have : i < 64 := by omega
    simp [hi, this]
  · intro hi'
    have : ¬ i < 32 := by omega
    simp [hi', this]
  · omega

/-- What a zero-extending load puts in the register (rule R130). -/
theorem zeroExt_loaded (s : State) (a : Word) (sz : AccessSize) (v : Word) (h : LoadedValue s a sz.bytes false v) :
    LoadedValue s a sz.bytes false (sz.zeroExt v) := by
  cases sz <;> refine loadedValue_of_ext s a _ (by decide) false v _ h ?_ ?_ <;> intro i hi
  all_goals simp only [AccessSize.bytes] at hi ⊢
  all_goals simp only [AccessSize.zeroExt, zext, BitVec.getLsbD_setWidth, Bool.false_and]
  · have : i < 64 := by omega
    simp [hi, this]
  · intro hi'
    have : ¬ i < 8 := by omega
    simp [this]
  · have : i < 64 := by omega
    simp [hi, this]
  · intro hi'
    have : ¬ i < 16 := by omega
    simp [this]
  · have : i < 64 := by omega
    simp [hi, this]
  · intro hi'
    have : ¬ i < 32 := by omega
    simp [this]
  · omega

/-! ### Writing -/

/-- A byte outside the written ones reads as before. -/
theorem Memory.read_writeBytes_outside : ∀ (n : Nat) (m : Memory) (a v : Word) (b : Nat),
    (∀ j, j < n → b ≠ (plus a j).toNat) → (m.writeBytes n a v).read b = m.read b
  | 0, _, _, _, _, _ => rfl
  | n + 1, m, a, v, b, h => by
    simp only [Memory.writeBytes]
    rw [Memory.read_writeBytes_outside n _ (a + 1#64) (v >>> 8) b (fun j hj => by rw [plus_succ]; exact h (j + 1) (by omega))]
    exact Memory.read_write_other m _ _ _ (by simpa using h 0 (by omega))

/-- A written byte reads back (rule R54). -/
theorem Memory.read_writeBytes_inside : ∀ (n : Nat) (m : Memory) (a v : Word), m.wf = true → n ≤ 8 → ∀ j, j < n →
    (m.writeBytes n a v).read (plus a j).toNat = v.extractLsb' (8 * j) 8
  | 0, _, _, _, _, _, j, hj => absurd hj (Nat.not_lt_zero j)
  | n + 1, m, a, v, h, hn, j, hj => by
    simp only [Memory.writeBytes]
    cases j with
    | zero =>
      rw [Memory.read_writeBytes_outside n _ (a + 1#64) (v >>> 8) _ (fun k hk e => by
        rw [plus_succ] at e
        exact absurd (plus_inj a (by omega) (by omega) e) (by omega))]
      rw [plus_zero, Memory.read_write_same m _ _ h]
      apply BitVec.eq_of_getLsbD_eq
      intro i hi
      simp [hi]
    | succ j =>
      rw [← plus_succ, Memory.read_writeBytes_inside n _ (a + 1#64) (v >>> 8) (Memory.write_wf m _ _ h a.isLt) (by omega) j (by omega)]
      apply BitVec.eq_of_getLsbD_eq
      intro i hi
      have : 8 + (8 * j + i) = 8 * (j + 1) + i := by omega
      simp [hi, this]

/-- A write to ordinary memory stores its bytes and leaves the others alone (rule R54). -/
theorem afterWrite_storesOnly (s : State) (a : Word) (n : Nat) (v : Word) (hm : s.mem.wf = true) (hn : n ≤ 8)
    (hd : touchesDevice s.cfg n a = false) : StoresOnly s (afterWrite s a n v) a n v := by
  unfold afterWrite
  rw [if_neg (by simp [hd])]
  exact ⟨fun j hj => Memory.read_writeBytes_inside n s.mem a v hm hn j hj,
    fun b hb => Memory.read_writeBytes_outside n s.mem a v b hb⟩

/-- A byte outside the written ones reads as before, device or not. -/
theorem read_writtenMem_outside (c : Config) : ∀ (n : Nat) (m : Memory) (a v : Word) (b : Nat),
    (∀ j, j < n → b ≠ (plus a j).toNat) → (writtenMem c n m a v).read b = m.read b
  | 0, _, _, _, _, _ => rfl
  | n + 1, m, a, v, b, h => by
    simp only [writtenMem]
    rw [read_writtenMem_outside c n _ (a + 1#64) (v >>> 8) b (fun j hj => by rw [plus_succ]; exact h (j + 1) (by omega))]
    split
    · rfl
    · exact Memory.read_write_other m _ _ _ (by simpa using h 0 (by omega))

/-- The memory of `afterWrite`, in one form. -/
theorem afterWrite_mem (s : State) (a : Word) (n : Nat) (v : Word) : (afterWrite s a n v).mem = writtenMem s.cfg n s.mem a v := by
  unfold afterWrite
  split
  · split <;> rfl
  · rename_i h
    exact (writtenMem_ordinary s.cfg n s.mem a v (by simpa using h)).symm

/-! ### What a load and a store can do -/

/-- Everything a load can do when it gives a next state (rules R130, R139). -/
theorem load_cases {sz : AccessSize} {ext : Word → Word} {rd rs1 : RegIdx} {imm : BitVec 12} {s t : State}
    (h : load sz ext rd rs1 imm s = .next t) :
    (rd = 0#5 ∧ t = s) ∨
      (rd ≠ 0#5 ∧ accessAddr s.cfg (baseDisp s rs1 imm) sz.bytes = none ∧ t = s.raiseLoadMisaligned) ∨
      ∃ a, rd ≠ 0#5 ∧ accessAddr s.cfg (baseDisp s rs1 imm) sz.bytes = some a ∧ memAdmit s.cfg a sz.bytes .read = true ∧
        t = (afterRead s a sz.bytes).setX rd (ext (readValue s a sz.bytes)) := by
  unfold load at h
  split at h
  · rename_i hrd
    refine Or.inl ⟨hrd, ?_⟩
    unfold loadX0 at h
    split at h
    · cases h; rfl
    · split at h
      · cases h; rfl
      · cases h
  · rename_i hrd
    unfold loadInto at h
    split at h
    · rename_i ha
      exact Or.inr (Or.inl ⟨hrd, ha, by cases h; rfl⟩)
    · rename_i a ha
      split at h
      · rename_i hm
        exact Or.inr (Or.inr ⟨a, hrd, ha, hm, by cases h; rfl⟩)
      · cases h

/-- Everything a store can do when it gives a next state (rule R205). -/
theorem store_cases {sz : AccessSize} {rs1 rs2 : RegIdx} {imm : BitVec 12} {s t : State}
    (h : store sz rs1 rs2 imm s = .next t) :
    (accessAddr s.cfg (baseDisp s rs1 imm) sz.bytes = none ∧ t = s.raiseStoreMisaligned) ∨
      ∃ a, accessAddr s.cfg (baseDisp s rs1 imm) sz.bytes = some a ∧ memAdmit s.cfg a sz.bytes .write = true ∧
        t = afterWrite s a sz.bytes (s.x rs2) := by
  unfold store at h
  split at h
  · rename_i ha
    exact Or.inl ⟨ha, by cases h; rfl⟩
  · rename_i a ha
    split at h
    · rename_i hm
      exact Or.inr ⟨a, ha, hm, by cases h; rfl⟩
    · cases h

/-! ### The performed address, the forms, mixed accesses -/

theorem toNat_mask (a : Word) (k : Nat) (_hk : k < 64) : (a &&& ~~~(BitVec.ofNat 64 (2^k - 1))).toNat = a.toNat - a.toNat % 2^k := by
  have h2 : (a &&& ~~~(BitVec.ofNat 64 (2^k - 1))) = (a >>> k) <<< k := by
    apply BitVec.eq_of_getLsbD_eq
    intro j hj
    simp only [BitVec.getLsbD_and, BitVec.getLsbD_not, BitVec.getLsbD_ofNat, Nat.testBit_two_pow_sub_one, BitVec.getLsbD_shiftLeft, BitVec.getLsbD_ushiftRight, hj, decide_true, Bool.true_and]
    by_cases h : j < k
    · simp [h]
    · simp [h, show k + (j - k) = j by omega]
  have h1 := Nat.div_mul_le_self a.toNat (2^k)
  have h3 := a.isLt
  rw [h2, BitVec.toNat_shiftLeft, BitVec.toNat_ushiftRight, Nat.shiftLeft_eq, Nat.shiftRight_eq_div_pow, Nat.mod_eq_of_lt (by omega)]
  have := Nat.div_add_mod a.toNat (2^k)
  rw [Nat.mul_comm] at this
  omega

theorem accessAddr_performed (s : State) (a p : Word) (sz : AccessSize) (h : PerformedAt s a sz.bytes p) :
    accessAddr s.cfg a sz.bytes = some p := by
  rcases h with ⟨h, rfl⟩ | ⟨h, hm, hp⟩ | ⟨h, hm, rfl⟩
  · simp [accessAddr, aligned, h]
  · have e : a &&& ~~~(BitVec.ofNat 64 (sz.bytes - 1)) = p := by
      apply BitVec.eq_of_toNat_eq
      rw [hp]
      cases sz
      · exact toNat_mask a 0 (by decide)
      · exact toNat_mask a 1 (by decide)
      · exact toNat_mask a 2 (by decide)
      · exact toNat_mask a 3 (by decide)
    simp [accessAddr, aligned, h, hm, e]
  · simp [accessAddr, aligned, h, hm]

theorem accessAddr_trap (s : State) (a : Word) (n : Nat) (h : a.toNat % n ≠ 0) (hm : s.cfg.misalign = .trap) :
    accessAddr s.cfg a n = none := by simp [accessAddr, aligned, h, hm]

theorem loadForms_exec (rd rs1 imm) : ∀ l ∈ loadForms rd rs1 imm, ∃ sz : AccessSize, ∃ ext : Word → Word, l.2.1 = sz.bytes ∧ (∀ s, exec l.1 s = load sz ext rd rs1 imm s) ∧
    ((l.2.2 = true ∧ ext = sz.signExt) ∨ (l.2.2 = false ∧ ext = sz.zeroExt)) := by
  simp only [loadForms, List.forall_mem_cons, List.not_mem_nil, false_implies, implies_true, and_true]
  refine ⟨⟨.byte, _, rfl, fun _ => rfl, .inl ⟨trivial, rfl⟩⟩, ⟨.half, _, rfl, fun _ => rfl, .inl ⟨trivial, rfl⟩⟩, ⟨.word, _, rfl, fun _ => rfl, .inl ⟨trivial, rfl⟩⟩, ⟨.double, _, rfl, fun _ => rfl, .inl ⟨trivial, rfl⟩⟩, ⟨.byte, _, rfl, fun _ => rfl, .inr ⟨trivial, rfl⟩⟩, ⟨.half, _, rfl, fun _ => rfl, .inr ⟨trivial, rfl⟩⟩, ⟨.word, _, rfl, fun _ => rfl, .inr ⟨trivial, rfl⟩⟩, ⟨.double, _, rfl, fun _ => rfl, .inr ⟨trivial, rfl⟩⟩⟩

theorem storeForms_exec (rs1 rs2 imm) : ∀ l ∈ storeForms rs1 rs2 imm, ∃ sz : AccessSize, l.2 = sz.bytes ∧ (∀ s, exec l.1 s = store sz rs1 rs2 imm s) := by
  simp only [storeForms, List.forall_mem_cons, List.not_mem_nil, false_implies, implies_true, and_true]
  exact ⟨⟨.byte, rfl, fun _ => rfl⟩, ⟨.half, rfl, fun _ => rfl⟩, ⟨.word, rfl, fun _ => rfl⟩, ⟨.double, rfl, fun _ => rfl⟩⟩

theorem AccessSize.bytes_le (sz : AccessSize) : sz.bytes ≤ 8 := by cases sz <;> decide

theorem AccessSize.bytes_pos (sz : AccessSize) : 0 < sz.bytes := by cases sz <;> decide

theorem sext_setWidth_bit (v : Word) (w j : Nat) (h0 : 0 < w) (hw : w ≤ 64) (hj : j < 64) : (sext (v.setWidth w)).getLsbD j = v.getLsbD (min j (w-1)) := by
  simp only [sext, BitVec.getLsbD_signExtend, hj, decide_true, Bool.true_and]
  split
  · rename_i h; rw [BitVec.getLsbD_setWidth, decide_eq_true (by omega), Bool.true_and, Nat.min_eq_left (by omega)]
  · rw [BitVec.msb_eq_getLsbD_last, BitVec.getLsbD_setWidth, decide_eq_true (by omega), Bool.true_and, Nat.min_eq_right (by omega)]

theorem zext_setWidth_bit (v : Word) (w j : Nat) (hj : j < 64) : (zext (v.setWidth w)).getLsbD j = (decide (j < w) && v.getLsbD j) := by
  simp only [zext, BitVec.getLsbD_setWidth, hj, decide_true, Bool.true_and]

theorem AccessSize.signExt_bit (sz : AccessSize) (v : Word) (j : Nat) (hj : j < 64) : (sz.signExt v).getLsbD j = v.getLsbD (min j (8 * sz.bytes - 1)) := by
  cases sz
  · exact sext_setWidth_bit v 8 j (by decide) (by decide) hj
  · exact sext_setWidth_bit v 16 j (by decide) (by decide) hj
  · exact sext_setWidth_bit v 32 j (by decide) (by decide) hj
  · simp only [AccessSize.signExt, AccessSize.bytes]; rw [Nat.min_eq_left (by omega)]

theorem AccessSize.zeroExt_bit (sz : AccessSize) (v : Word) (j : Nat) (hj : j < 64) : (sz.zeroExt v).getLsbD j = (decide (j < 8 * sz.bytes) && v.getLsbD j) := by
  cases sz
  · exact zext_setWidth_bit v 8 j hj
  · exact zext_setWidth_bit v 16 j hj
  · exact zext_setWidth_bit v 32 j hj
  · simp [AccessSize.zeroExt, AccessSize.bytes, hj]

theorem readBytes_mixed (s : State) : ∀ (n : Nat) (a f : Word) (j : Nat), j < n → isDevice s.cfg (plus a j) = false → ∀ i, i < 8 → 8 * j + i < 64 →
    (readBytes s n a f).getLsbD (8 * j + i) = (s.mem.read (plus a j).toNat).getLsbD i
  | 0, _, _, j, hj, _, _, _, _ => absurd hj (Nat.not_lt_zero j)
  | n+1, a, f, 0, _, hd, i, hi, h64 => by
    rw [plus_zero] at hd ⊢
    simp only [readBytes, readByte, hd, zext]
    simp [BitVec.getLsbD_or, BitVec.getLsbD_shiftLeft, hi]
    intro h; omega
  | n+1, a, f, j+1, hj, hd, i, hi, h64 => by
    have := readBytes_mixed s n (a + 1#64) (f >>> 8) j (by omega) (by rw [plus_succ]; exact hd) i hi (by omega)
    rw [plus_succ] at this
    simp only [readBytes, zext, BitVec.getLsbD_or, BitVec.getLsbD_shiftLeft, BitVec.getLsbD_setWidth]
    rw [show 8 * (j+1) + i - 8 = 8 * j + i by omega, this]
    rw [BitVec.getLsbD_of_ge _ (8 * (j+1) + i) (by omega)]
    simp [show ¬ 8 * (j+1) + i < 8 by omega, h64]

theorem read_writtenMem_inside (c : Config) : ∀ (n : Nat) (m : Memory) (a v : Word), m.wf = true → n ≤ 8 → ∀ j, j < n →
    (writtenMem c n m a v).read (plus a j).toNat = if isDevice c (plus a j) then m.read (plus a j).toNat else v.extractLsb' (8 * j) 8
  | 0, _, _, _, _, _, j, hj => absurd hj (Nat.not_lt_zero j)
  | n+1, m, a, v, hw, hn, 0, _ => by
    simp only [writtenMem]
    rw [plus_zero, read_writtenMem_outside c n _ _ _ _ ?_]
    · split
      · rfl
      · rw [Memory.read_write_same _ _ _ hw]; apply BitVec.eq_of_getLsbD_eq; intro i hi; simp [hi]
    · intro j hj h
      have := plus_inj a (j := 0) (k := j+1) (by omega) (by omega) (by rw [plus_zero, ← plus_succ]; exact h)
      omega
  | n+1, m, a, v, hw, hn, j+1, hj => by
    simp only [writtenMem]
    have hw' : (if isDevice c a then m else m.write a.toNat (v.setWidth 8)).wf = true := by
      split
      · exact hw
      · exact Memory.write_wf _ _ _ hw a.isLt
    have := read_writtenMem_inside c n _ (a + 1#64) (v >>> 8) hw' (by omega) j (by omega)
    rw [plus_succ] at this
    rw [this]
    have hne : (plus a (j+1)).toNat ≠ a.toNat := by
      intro h
      have := plus_inj a (j := 0) (k := j+1) (by omega) (by omega) (by rw [plus_zero]; exact h.symm)
      omega
    split
    · split
      · rfl
      · rw [Memory.read_write_other _ _ _ _ hne]
    · apply BitVec.eq_of_getLsbD_eq
      intro i hi
      simp [hi]; congr 1; omega

end Sys2Proof.Machine
end

