-- ==== Sys2Proof/Laws/Boundary.lean ====
section
/-! SUPPORT. The instruction boundary in the terms of claims: when an interrupt is taken and what the fetch reads. -/

namespace Sys2Proof.Machine

theorem pendingEnabled_bit (s : State) (j : Nat) : (pendingEnabled s).getLsbD j = true ↔ Interrupting s j := by
  simp [pendingEnabled, Interrupting, and_assoc]

/-- An interrupt is taken exactly where interrupts are enabled and some source is pending and enabled (rule R250). -/
theorem interruptTaken_iff (s : State) :
    interruptTaken s = true ↔ s.mstatusMie = true ∧ ∃ j, j < 64 ∧ Interrupting s j := by
  simp only [interruptTaken, Bool.and_eq_true, bne_iff_ne, ne_eq]
  refine and_congr_right fun _ => ⟨fun h => ?_, ?_⟩
  · by_contra hc
    push Not at hc
    refine h (BitVec.eq_of_getLsbD_eq fun j hj => ?_)
    have := hc j hj
    rw [← pendingEnabled_bit] at this
    simpa using this
  · rintro ⟨j, _, hi⟩ h
    rw [← pendingEnabled_bit, h] at hi
    simp at hi

theorem interruptTaken_false (s : State) (h : NoInterrupt s) : interruptTaken s = false := by
  rw [Bool.eq_false_iff]
  intro hi
  obtain ⟨hm, j, hj, hk⟩ := (interruptTaken_iff s).1 hi
  rcases h with h | h
  · simp [h] at hm
  · exact h j hj hk

/-- The fetch reads the word the four bytes at `pc` hold (rule R55). -/
theorem fetchWord_eq (s : State) (w : InstrWord) (hd : touchesDevice s.cfg 4 s.pc = false) (h : HoldsWord s.mem s.pc w) :
    fetchWord s = w := by
  apply BitVec.eq_of_getLsbD_eq
  intro i hi
  have hb := readBytes_bit s 4 s.pc s.freshWord hd i (by omega)
  have hw := h (i / 8) (by omega)
  simp only [fetchWord, readValue, BitVec.getLsbD_setWidth, hi, decide_true, Bool.true_and, hb, hw,
    BitVec.getLsbD_extractLsb']
  rw [decide_eq_true (by omega : i % 8 < 8), Nat.div_add_mod]
  simp

end Sys2Proof.Machine
end

