-- ==== Sys2Proof/Laws/Csr.lean ====
section
/-! SUPPORT. The CSR operations: bit fields, what a write leaves alone, and what a CSR instruction can do. -/

namespace Sys2Proof.Machine

/-! ### Bit fields -/

/-- `putBit` sets one bit and leaves the others. -/
theorem putBit_bit (v : Word) (i : Fin 64) (b : Bool) (j : Nat) (hj : j < 64) :
    (putBit v i b).getLsbD j = if j = i.val then b else v.getLsbD j := by
  have hi := i.isLt
  cases b <;> simp only [putBit, Bool.false_eq_true, if_false, if_true, BitVec.getLsbD_and, BitVec.getLsbD_or,
    BitVec.getLsbD_not, BitVec.getLsbD_shiftLeft, BitVec.getLsbD_one, hj, decide_true, Bool.true_and]
  all_goals
    by_cases h : j = i.val
    · subst h; simp
    · have h1 : ¬ (j < i.val) → ¬ (j - i.val = 0) := by omega
      by_cases h2 : j < i.val <;> simp [h, h2, h1]

theorem onesBelow_bit (i : Fin 64) (j : Nat) (hj : j < 64) : (onesBelow i).getLsbD j = decide (j < i.val) := by
  revert i
  decide +revert

/-- `mcause` bit by bit: `irq` at bit `i`, `cause` around it. -/
theorem packMcause_bit (i : Fin 64) (q : Bool) (c : Cause) (j : Nat) (hj : j < 64) :
    (packMcause i q c).getLsbD j = if j = i.val then q else if j < i.val then c.getLsbD j else c.getLsbD (j - 1) := by
  have hi := i.isLt
  rw [packMcause, putBit_bit _ _ _ _ hj]
  by_cases h : j = i.val
  · simp [h]
  · simp only [h, if_false, BitVec.getLsbD_or, BitVec.getLsbD_and, BitVec.getLsbD_not, BitVec.getLsbD_shiftLeft, hj,
      decide_true, Bool.true_and, onesBelow_bit i j hj, zext, BitVec.getLsbD_setWidth]
    by_cases h1 : j < i.val
    · by_cases h2 : j = 0
      · subst h2; simp [h1]
      · have h3 : j - 1 < 64 := by omega
        have h4 : j - 1 < i.val := by omega
        have h6 := onesBelow_bit i (j - 1) h3
        rw [BitVec.getLsbD_eq_getElem h3] at h6
        simp [h1, h3, h6, h4]
    · have h3 : j - 1 < 64 := by omega
      have h4 : ¬ j - 1 < i.val := by omega
      have h5 : ¬ j < 1 := by omega
      have h6 := onesBelow_bit i (j - 1) h3
      rw [BitVec.getLsbD_eq_getElem h3] at h6
      simp [h1, h3, h6, h4, h5]

theorem unpackCause_bit (i : Fin 64) (v : Word) (j : Nat) (hj : j < 63) :
    (unpackCause i v).getLsbD j = if j < i.val then v.getLsbD j else v.getLsbD (j + 1) := by
  have h64 : j < 64 := by omega
  simp only [unpackCause, BitVec.getLsbD_setWidth, hj, decide_true, Bool.true_and, BitVec.getLsbD_or, BitVec.getLsbD_and,
    BitVec.getLsbD_not, BitVec.getLsbD_ushiftRight, h64, onesBelow_bit i j h64]
  by_cases h : j < i.val <;> simp [h, Nat.add_comm]

/-- `mcause` reads back as it was written, wherever its `irq` bit is (rules R33, R215). -/
theorem packMcause_unpack (i : Fin 64) (v : Word) : packMcause i (v.getLsbD i.val) (unpackCause i v) = v := by
  have hi := i.isLt
  apply BitVec.eq_of_getLsbD_eq
  intro j hj
  rw [packMcause_bit _ _ _ _ hj]
  by_cases h : j = i.val
  · simp [h]
  · by_cases h1 : j < i.val
    · rw [if_neg h, if_pos h1, unpackCause_bit _ _ _ (by omega), if_pos h1]
    · rw [if_neg h, if_neg h1, unpackCause_bit _ _ _ (by omega), if_neg (by omega)]
      congr 1
      omega

/-! ### What a CSR write leaves alone -/

/-- A CSR write changes CSRs and the devices' log only. -/
theorem csrWrite_frame (s : State) (n : CsrIdx) (v : Word) :
    (csrWrite s n v).cfg = s.cfg ∧ (csrWrite s n v).xs = s.xs ∧ (csrWrite s n v).pc = s.pc ∧ (csrWrite s n v).ia = s.ia ∧
      (csrWrite s n v).mem = s.mem ∧ (csrWrite s n v).mip = s.mip ∧ (csrWrite s n v).mipInputs = s.mipInputs ∧
      (csrWrite s n v).draws = s.draws := by
  unfold csrWrite
  split
  · rename_i r _
    cases r <;> simp only [csrPut] <;> (try split) <;> simp
  · split
    · split <;> simp
    · simp

/-- Everything a CSR instruction can do (rule R215): the trap, or its read half and its write half. -/
theorem csrInstr_cases {op : CsrOp} {rd : RegIdx} {f : BitVec 5} {src : Word} {n : CsrIdx} {s t : State}
    (h : csrInstr op rd f src n s = .next t) :
    (csrTraps s.cfg n f = true ∧ t = s.raiseIllegal) ∨
      (csrTraps s.cfg n f = false ∧
        t = csrWriteHalf (csrReadHalf (afterCsrRead s n) rd n (csrRead s n)) f n (op.apply (csrRead s n) src)) := by
  unfold csrInstr at h
  split at h
  · rename_i ht
    exact Or.inl ⟨ht, by cases h; rfl⟩
  · rename_i ht
    exact Or.inr ⟨by simpa using ht, by cases h; rfl⟩

/-- The read half changes a register and the devices' log only. -/
theorem csrReadHalf_frame (s : State) (rd : RegIdx) (n : CsrIdx) (old : Word) :
    (csrReadHalf s rd n old).cfg = s.cfg ∧ (csrReadHalf s rd n old).pc = s.pc ∧ (csrReadHalf s rd n old).ia = s.ia ∧
      (csrReadHalf s rd n old).mem = s.mem ∧ (csrReadHalf s rd n old).mstatusMie = s.mstatusMie ∧
      (csrReadHalf s rd n old).mstatusMpie = s.mstatusMpie ∧ (csrReadHalf s rd n old).mepc = s.mepc ∧
      (csrReadHalf s rd n old).mcauseCause = s.mcauseCause ∧ (csrReadHalf s rd n old).mcauseIrq = s.mcauseIrq ∧
      (csrReadHalf s rd n old).mtvec = s.mtvec ∧ (csrReadHalf s rd n old).mip = s.mip ∧
      (csrReadHalf s rd n old).mie = s.mie ∧ (csrReadHalf s rd n old).mscratch = s.mscratch ∧
      (csrReadHalf s rd n old).mipInputs = s.mipInputs ∧ (csrReadHalf s rd n old).draws = s.draws := by
  unfold csrReadHalf
  split <;> simp

/-! ### The seven by name, and the six instructions -/

def csrNumOf (c : CsrNums) : CsrName → CsrIdx
  | .mstatus => c.mstatus | .mie => c.mie | .mtvec => c.mtvec | .mscratch => c.mscratch
  | .mepc => c.mepc | .mcause => c.mcause | .mip => c.mip

theorem csrNamed_csrNumOf (c : Config) (h : c.wf = true) (r : CsrName) : csrNamed c (csrNumOf c.csrNum r) = some r := by
  have hd : c.csrNum.all.Nodup := by
    have h' := h
    simp only [Config.wf, Bool.and_eq_true] at h'
    exact of_decide_eq_true h'.1.1
  simp only [CsrNums.all, List.nodup_cons, List.mem_cons, not_or, List.not_mem_nil, not_false_iff, and_true, List.nodup_nil] at hd
  obtain ⟨⟨a1, a2, a3, a4, a5, a6⟩, ⟨b1, b2, b3, b4, b5⟩, ⟨c1, c2, c3, c4⟩, ⟨d1, d2, d3⟩, ⟨e1, e2⟩, f1⟩ := hd
  cases r <;> simp only [csrNamed, csrNumOf, if_true]
  · rw [if_neg (Ne.symm a1)]
  · rw [if_neg (Ne.symm a2), if_neg (Ne.symm b1)]
  · rw [if_neg (Ne.symm a3), if_neg (Ne.symm b2), if_neg (Ne.symm c1)]
  · rw [if_neg (Ne.symm a4), if_neg (Ne.symm b3), if_neg (Ne.symm c2), if_neg (Ne.symm d1)]
  · rw [if_neg (Ne.symm a5), if_neg (Ne.symm b4), if_neg (Ne.symm c3), if_neg (Ne.symm d2), if_neg (Ne.symm e1)]
  · rw [if_neg (Ne.symm a6), if_neg (Ne.symm b5), if_neg (Ne.symm c4), if_neg (Ne.symm d3), if_neg (Ne.symm e2), if_neg (Ne.symm f1)]

theorem csrNumOf_of_csrNamed (c : Config) (n r) (h : csrNamed c n = some r) : n = csrNumOf c.csrNum r := by
  unfold csrNamed at h
  repeat' split at h
  all_goals first | (cases h; assumption) | cases h

theorem csrForms_exec (s : State) (rd f n) : ∀ p ∈ csrForms s rd f n, ∃ op : CsrOp, ∃ src, (∀ old, op.apply old src = p.2 old) ∧ exec p.1 s = csrInstr op rd f src n s := by
  simp only [csrForms, List.forall_mem_cons, List.not_mem_nil, false_implies, implies_true, and_true]
  have hz : zext f = BitVec.ofNat 64 f.toNat := by apply BitVec.eq_of_toNat_eq; simp [zext]
  refine ⟨⟨.overwrite, _, fun _ => rfl, rfl⟩, ⟨.setBits, _, fun _ => rfl, rfl⟩, ⟨.clearBits, _, fun _ => rfl, rfl⟩, ⟨.overwrite, zext f, fun _ => hz, rfl⟩, ⟨.setBits, zext f, fun _ => ?_, rfl⟩, ⟨.clearBits, zext f, fun _ => ?_, rfl⟩⟩
  · rw [← hz]; rfl
  · rw [← hz]; rfl

theorem afterCsrRead_named (s : State) (n r) (hr : csrNamed s.cfg n = some r) (h : r ≠ .mstatus) : afterCsrRead s n = s := by
  cases r <;> simp [afterCsrRead, csrReadDraws, hr] at *

theorem csrForms_named (s : State) (rd f n r) (hr : csrNamed s.cfg n = some r) : ∀ p ∈ csrForms s rd f n,
    exec p.1 s = .next (if f = 0#5 then (afterCsrRead s n).setX rd (csrValue s r) else csrPut ((afterCsrRead s n).setX rd (csrValue s r)) (p.2 (csrValue s r)) r) := by
  intro p hp
  obtain ⟨op, src, ha, he⟩ := csrForms_exec _ _ _ _ p hp
  have h1 : csrRead s n = csrValue s r := by simp [csrRead, hr]
  have h2 : csrReadHalf (afterCsrRead s n) rd n (csrValue s r) = (afterCsrRead s n).setX rd (csrValue s r) := by
    unfold csrReadHalf
    split
    · rename_i h; rw [h]; simp
    · simp [readAction, hr]
  have h3 : csrTraps s.cfg n f = false := by simp [csrTraps, csrSupported, hr, csrWriteTraps]
  rw [he, csrInstr, if_neg (by simp [h3]), h1, h2, ha, csrWriteHalf]
  congr 1
  split
  · rfl
  · simp [csrWrite, hr]

theorem csrPut_x (s : State) (v r i) : (csrPut s v r).x i = s.x i := by
  have : (csrPut s v r).xs = s.xs := by
    cases r <;> simp [csrPut]
    split <;> rfl
  simp [State.x, this]

theorem csrWriteHalf_frame (s : State) (f n new) : (csrWriteHalf s f n new).cfg = s.cfg ∧ (csrWriteHalf s f n new).mem = s.mem ∧ (csrWriteHalf s f n new).pc = s.pc ∧ (csrWriteHalf s f n new).ia = s.ia ∧ (csrWriteHalf s f n new).mip = s.mip ∧ (csrWriteHalf s f n new).xs = s.xs := by
  unfold csrWriteHalf csrWrite
  split
  · simp
  · split
    · rename_i r _
      cases r <;> simp [csrPut]; split <;> simp
    · split
      · split <;> simp
      · simp

theorem csrWriteHalf_cases (s : State) (f n new) : (∃ l, csrWriteHalf s f n new = { s with deviceLog := l }) ∨ ∃ r, f ≠ 0#5 ∧ n = csrNumOf s.cfg.csrNum r ∧ csrWriteHalf s f n new = csrPut s new r := by
  unfold csrWriteHalf csrWrite
  split
  · exact .inl ⟨s.deviceLog, rfl⟩
  · rename_i hf
    split
    · rename_i r hr
      exact .inr ⟨r, hf, csrNumOf_of_csrNamed _ _ _ hr, rfl⟩
    · split
      · split
        · exact .inl ⟨_, rfl⟩
        · exact .inl ⟨s.deviceLog, rfl⟩
      · exact .inl ⟨s.deviceLog, rfl⟩

theorem csrReadHalf_sameCsrs (s : State) (rd n old) : SameCsrs s (csrReadHalf (afterCsrRead s n) rd n old) := by
  have h := csrReadHalf_frame (afterCsrRead s n) rd n old
  simp only [afterCsrRead_mstatusMie, afterCsrRead_mstatusMpie, afterCsrRead_mepc, afterCsrRead_mcauseCause, afterCsrRead_mcauseIrq, afterCsrRead_mtvec, afterCsrRead_mip, afterCsrRead_mie, afterCsrRead_mscratch] at h
  simp only [SameCsrs, SameTrapCsrs, SameOtherCsrs]
  tauto

end Sys2Proof.Machine
end

