-- ==== Sys2Proof/Laws/Devices.lean ====
section
/-! SUPPORT. Accesses to devices: the free order, the byte accesses of a misaligned access, and that the configuration can
say any `MEM_ADMIT`. -/

namespace Sys2Proof.Machine

/-! ### The free order (rule R62) -/

theorem pickOrder_perm {α : Type} : ∀ (w : Nat) (l : List α), (pickOrder w l).Perm l
  | _, [] => .refl _
  | w, x :: rest => by
    have ih := pickOrder_perm (w / (rest.length + 1)) rest
    have hw : w % (rest.length + 1) ≤ (pickOrder (w / (rest.length + 1)) rest).length := by
      rw [ih.length_eq]
      exact Nat.lt_succ_iff.mp (Nat.mod_lt _ (Nat.succ_pos _))
    exact (List.perm_insertIdx x _ hw).trans (ih.cons x)

theorem insertIdx_length_append {α : Type} (a b : List α) (x : α) : (a ++ b).insertIdx a.length x = a ++ x :: b := by
  induction a with
  | nil => simp
  | cons y a ih => simpa using ih

/-- Every order of the list is some number's, so the free word leaves them all open. -/
theorem pickOrder_onto {α : Type} : ∀ l r : List α, r.Perm l → ∃ w, w < l.length.factorial ∧ pickOrder w l = r
  | [], r, h => ⟨0, by simp, by simp [pickOrder, h.eq_nil]⟩
  | x :: rest, r, h => by
    obtain ⟨a, b, rfl⟩ := List.append_of_mem (h.symm.subset (List.mem_cons_self ..))
    have hr : (a ++ b).Perm rest := (List.perm_middle.symm.trans h).cons_inv
    obtain ⟨w, hw, hp⟩ := pickOrder_onto rest (a ++ b) hr
    have hlen : a.length < rest.length + 1 := by
      have := hr.length_eq
      simp only [List.length_append] at this
      omega
    refine ⟨a.length + (rest.length + 1) * w, ?_, ?_⟩
    · rw [List.length_cons, Nat.factorial_succ]
      calc a.length + (rest.length + 1) * w < (rest.length + 1) * (w + 1) := by rw [Nat.mul_succ]; omega
        _ ≤ (rest.length + 1) * rest.length.factorial := Nat.mul_le_mul_left _ hw
    · simp only [pickOrder]
      rw [Nat.add_mul_div_left _ _ (Nat.succ_pos _), Nat.div_eq_of_lt hlen, Nat.zero_add, Nat.add_mul_mod_self_left,
        Nat.mod_eq_of_lt hlen, hp]
      exact insertIdx_length_append a b x

/-! ### The byte accesses of a misaligned access (rules R59, R62) -/

theorem byteReads_eq (s : State) : ∀ (n : Nat) (a : Word), byteReads s.cfg n a = deviceByteReads s a n
  | 0, _ => rfl
  | n + 1, a => by
    rw [byteReads, byteReads_eq s n (a + 1#64)]
    simp only [deviceByteReads, List.range_succ_eq_map, List.filter_cons, plus_zero, List.filter_map]
    split <;> simp [Function.comp_def, plus_succ]

theorem lowBytes_one (v : Word) : lowBytes 1 v = (v.extractLsb' 0 8).setWidth 64 := by
  apply BitVec.eq_of_getLsbD_eq
  intro i hi
  have h8 : (BitVec.allOnes 64 >>> (64 - 8 * 1)).getLsbD i = decide (i < 8) := by
    rw [BitVec.getLsbD_ushiftRight, BitVec.getLsbD_allOnes]
    exact decide_eq_decide.mpr (by omega)
  rw [lowBytes, BitVec.getLsbD_and, h8, BitVec.getLsbD_setWidth, BitVec.getLsbD_extractLsb', Bool.and_comm]
  simp [hi]

theorem byteWrites_eq (s : State) : ∀ (n : Nat) (a v : Word), byteWrites s.cfg n a v = deviceByteWrites s a n v
  | 0, _, _ => rfl
  | n + 1, a, v => by
    have hv : ∀ j, (v >>> 8).extractLsb' (8 * j) 8 = v.extractLsb' (8 * (j + 1)) 8 := by
      intro j
      apply BitVec.eq_of_getLsbD_eq
      intro i hi
      have : 8 + (8 * j + i) = 8 * (j + 1) + i := by omega
      simp [hi, this]
    rw [byteWrites, byteWrites_eq s n (a + 1#64)]
    simp only [deviceByteWrites, List.range_succ_eq_map, List.filter_cons, plus_zero, List.filter_map,
      lowBytes_one]
    split <;> simp [Function.comp_def, plus_succ, hv]

/-! ### `MEM_ADMIT` (rule R64) -/

/-- Whatever `MEM_ADMIT` is, a function of the address, the width and the kind, the configuration can say it. -/
theorem memAdmit_any (f : Word → Nat → AccessKind → Bool) (widths : List Nat) :
    ∃ rules : List AdmitRule, ∀ c : Config, c.memAdmits = rules → ∀ a n k, n ∈ widths → memAdmit c a n k = f a n k := by
  refine ⟨(List.range (2 ^ 64)).flatMap fun a => widths.flatMap fun n =>
    [AccessKind.read, .write, .fetch].flatMap fun k =>
      if f (BitVec.ofNat 64 a) n k then [⟨⟨a, 1⟩, [k], [n], false⟩] else [], fun c hc a n k hn => ?_⟩
  have hk : ∀ k : AccessKind, k ∈ [AccessKind.read, .write, .fetch] := by intro k; cases k <;> decide
  rw [Bool.eq_iff_iff, memAdmit, hc, List.any_eq_true]
  constructor
  · rintro ⟨r, hr, hcov⟩
    simp only [List.mem_flatMap] at hr
    obtain ⟨b, _, m, _, j, _, hr⟩ := hr
    split at hr
    · rename_i hf
      rw [List.mem_singleton] at hr
      subst hr
      simp only [AdmitRule.covers, AddrRange.holds, Bool.and_eq_true, decide_eq_true_eq, List.contains_eq_mem,
        List.mem_singleton] at hcov
      obtain ⟨⟨⟨⟨h1, h2⟩, h3⟩, h4⟩, _⟩ := hcov
      have hb : b = a.toNat := by omega
      subst hb
      subst h3
      subst h4
      simpa using hf
    · cases hr
  · intro hf
    refine ⟨⟨⟨a.toNat, 1⟩, [k], [n], false⟩, ?_, ?_⟩
    · simp only [List.mem_flatMap]
      exact ⟨a.toNat, List.mem_range.mpr a.isLt, n, hn, k, hk k, by simp [hf]⟩
    · simp [AdmitRule.covers, AddrRange.holds]

end Sys2Proof.Machine
end

