-- ==== Sys2Proof/Laws/Encoding.lean ====
section
/-! SUPPORT. The fields of an encoded word, format by format, as the decoder reads them. -/

namespace Sys2Proof

/-! Bit by bit, `place` puts `v` at bit `lo`. -/

@[simp] theorem place_bit (w n : Nat) (v : BitVec n) (lo i : Nat) :
    (place w v lo).getLsbD i = (decide (i < w) && !decide (i < lo) && v.getLsbD (i - lo)) := by
  simp only [place, BitVec.getLsbD_shiftLeft, BitVec.getLsbD_setWidth]
  by_cases h : i < w
  · have : i - lo < w := by omega
    simp [h, this]
  · simp [h]

@[simp] theorem place_getElem (w n : Nat) (v : BitVec n) (lo i : Nat) (h : i < w) :
    (place w v lo)[i] = (!decide (i < lo) && v.getLsbD (i - lo)) := by
  rw [← BitVec.getLsbD_eq_getElem, place_bit]
  simp [h]

/-! ### `encR` -/

@[simp] theorem opcodeOf_encR (fn7 : BitVec 7) (rs2 rs1 : RegIdx) (fn3 : BitVec 3) (rd : RegIdx) (op : BitVec 7) : opcodeOf (encR fn7 rs2 rs1 fn3 rd op) = op := by
  unfold opcodeOf encR
  apply BitVec.eq_of_getLsbD_eq
  intro i hi
  interval_cases i <;> simp

@[simp] theorem rdOf_encR (fn7 : BitVec 7) (rs2 rs1 : RegIdx) (fn3 : BitVec 3) (rd : RegIdx) (op : BitVec 7) : rdOf (encR fn7 rs2 rs1 fn3 rd op) = rd := by
  unfold rdOf encR
  apply BitVec.eq_of_getLsbD_eq
  intro i hi
  interval_cases i <;> simp

@[simp] theorem fn3Of_encR (fn7 : BitVec 7) (rs2 rs1 : RegIdx) (fn3 : BitVec 3) (rd : RegIdx) (op : BitVec 7) : fn3Of (encR fn7 rs2 rs1 fn3 rd op) = fn3 := by
  unfold fn3Of encR
  apply BitVec.eq_of_getLsbD_eq
  intro i hi
  interval_cases i <;> simp

@[simp] theorem rs1Of_encR (fn7 : BitVec 7) (rs2 rs1 : RegIdx) (fn3 : BitVec 3) (rd : RegIdx) (op : BitVec 7) : rs1Of (encR fn7 rs2 rs1 fn3 rd op) = rs1 := by
  unfold rs1Of encR
  apply BitVec.eq_of_getLsbD_eq
  intro i hi
  interval_cases i <;> simp

@[simp] theorem rs2Of_encR (fn7 : BitVec 7) (rs2 rs1 : RegIdx) (fn3 : BitVec 3) (rd : RegIdx) (op : BitVec 7) : rs2Of (encR fn7 rs2 rs1 fn3 rd op) = rs2 := by
  unfold rs2Of encR
  apply BitVec.eq_of_getLsbD_eq
  intro i hi
  interval_cases i <;> simp

@[simp] theorem fn7Of_encR (fn7 : BitVec 7) (rs2 rs1 : RegIdx) (fn3 : BitVec 3) (rd : RegIdx) (op : BitVec 7) : fn7Of (encR fn7 rs2 rs1 fn3 rd op) = fn7 := by
  unfold fn7Of encR
  apply BitVec.eq_of_getLsbD_eq
  intro i hi
  interval_cases i <;> simp

/-! ### `encI` -/

@[simp] theorem opcodeOf_encI (imm : BitVec 12) (rs1 : RegIdx) (fn3 : BitVec 3) (rd : RegIdx) (op : BitVec 7) : opcodeOf (encI imm rs1 fn3 rd op) = op := by
  unfold opcodeOf encI
  apply BitVec.eq_of_getLsbD_eq
  intro i hi
  interval_cases i <;> simp

@[simp] theorem rdOf_encI (imm : BitVec 12) (rs1 : RegIdx) (fn3 : BitVec 3) (rd : RegIdx) (op : BitVec 7) : rdOf (encI imm rs1 fn3 rd op) = rd := by
  unfold rdOf encI
  apply BitVec.eq_of_getLsbD_eq
  intro i hi
  interval_cases i <;> simp

@[simp] theorem fn3Of_encI (imm : BitVec 12) (rs1 : RegIdx) (fn3 : BitVec 3) (rd : RegIdx) (op : BitVec 7) : fn3Of (encI imm rs1 fn3 rd op) = fn3 := by
  unfold fn3Of encI
  apply BitVec.eq_of_getLsbD_eq
  intro i hi
  interval_cases i <;> simp

@[simp] theorem rs1Of_encI (imm : BitVec 12) (rs1 : RegIdx) (fn3 : BitVec 3) (rd : RegIdx) (op : BitVec 7) : rs1Of (encI imm rs1 fn3 rd op) = rs1 := by
  unfold rs1Of encI
  apply BitVec.eq_of_getLsbD_eq
  intro i hi
  interval_cases i <;> simp

@[simp] theorem immIOf_encI (imm : BitVec 12) (rs1 : RegIdx) (fn3 : BitVec 3) (rd : RegIdx) (op : BitVec 7) : immIOf (encI imm rs1 fn3 rd op) = imm := by
  unfold immIOf encI
  apply BitVec.eq_of_getLsbD_eq
  intro i hi
  interval_cases i <;> simp

/-! ### `encShift` -/

@[simp] theorem opcodeOf_encShift (fn6 shamt : BitVec 6) (rs1 : RegIdx) (fn3 : BitVec 3) (rd : RegIdx) (op : BitVec 7) : opcodeOf (encShift fn6 shamt rs1 fn3 rd op) = op := by
  unfold opcodeOf encShift
  apply BitVec.eq_of_getLsbD_eq
  intro i hi
  interval_cases i <;> simp

@[simp] theorem rdOf_encShift (fn6 shamt : BitVec 6) (rs1 : RegIdx) (fn3 : BitVec 3) (rd : RegIdx) (op : BitVec 7) : rdOf (encShift fn6 shamt rs1 fn3 rd op) = rd := by
  unfold rdOf encShift
  apply BitVec.eq_of_getLsbD_eq
  intro i hi
  interval_cases i <;> simp

@[simp] theorem fn3Of_encShift (fn6 shamt : BitVec 6) (rs1 : RegIdx) (fn3 : BitVec 3) (rd : RegIdx) (op : BitVec 7) : fn3Of (encShift fn6 shamt rs1 fn3 rd op) = fn3 := by
  unfold fn3Of encShift
  apply BitVec.eq_of_getLsbD_eq
  intro i hi
  interval_cases i <;> simp

@[simp] theorem rs1Of_encShift (fn6 shamt : BitVec 6) (rs1 : RegIdx) (fn3 : BitVec 3) (rd : RegIdx) (op : BitVec 7) : rs1Of (encShift fn6 shamt rs1 fn3 rd op) = rs1 := by
  unfold rs1Of encShift
  apply BitVec.eq_of_getLsbD_eq
  intro i hi
  interval_cases i <;> simp

@[simp] theorem shamtOf_encShift (fn6 shamt : BitVec 6) (rs1 : RegIdx) (fn3 : BitVec 3) (rd : RegIdx) (op : BitVec 7) : shamtOf (encShift fn6 shamt rs1 fn3 rd op) = shamt := by
  unfold shamtOf encShift
  apply BitVec.eq_of_getLsbD_eq
  intro i hi
  interval_cases i <;> simp

@[simp] theorem fn6Of_encShift (fn6 shamt : BitVec 6) (rs1 : RegIdx) (fn3 : BitVec 3) (rd : RegIdx) (op : BitVec 7) : fn6Of (encShift fn6 shamt rs1 fn3 rd op) = fn6 := by
  unfold fn6Of encShift
  apply BitVec.eq_of_getLsbD_eq
  intro i hi
  interval_cases i <;> simp

/-! ### `encU` -/

@[simp] theorem opcodeOf_encU (imm : BitVec 20) (rd : RegIdx) (op : BitVec 7) : opcodeOf (encU imm rd op) = op := by
  unfold opcodeOf encU
  apply BitVec.eq_of_getLsbD_eq
  intro i hi
  interval_cases i <;> simp

@[simp] theorem rdOf_encU (imm : BitVec 20) (rd : RegIdx) (op : BitVec 7) : rdOf (encU imm rd op) = rd := by
  unfold rdOf encU
  apply BitVec.eq_of_getLsbD_eq
  intro i hi
  interval_cases i <;> simp

@[simp] theorem immUOf_encU (imm : BitVec 20) (rd : RegIdx) (op : BitVec 7) : immUOf (encU imm rd op) = imm := by
  unfold immUOf encU
  apply BitVec.eq_of_getLsbD_eq
  intro i hi
  interval_cases i <;> simp

/-! ### `encB` -/

@[simp] theorem opcodeOf_encB (disp : BitVec 13) (rs2 rs1 : RegIdx) (fn3 : BitVec 3) (op : BitVec 7) : opcodeOf (encB disp rs2 rs1 fn3 op) = op := by
  unfold opcodeOf encB
  apply BitVec.eq_of_getLsbD_eq
  intro i hi
  interval_cases i <;> simp

@[simp] theorem fn3Of_encB (disp : BitVec 13) (rs2 rs1 : RegIdx) (fn3 : BitVec 3) (op : BitVec 7) : fn3Of (encB disp rs2 rs1 fn3 op) = fn3 := by
  unfold fn3Of encB
  apply BitVec.eq_of_getLsbD_eq
  intro i hi
  interval_cases i <;> simp

@[simp] theorem rs1Of_encB (disp : BitVec 13) (rs2 rs1 : RegIdx) (fn3 : BitVec 3) (op : BitVec 7) : rs1Of (encB disp rs2 rs1 fn3 op) = rs1 := by
  unfold rs1Of encB
  apply BitVec.eq_of_getLsbD_eq
  intro i hi
  interval_cases i <;> simp

@[simp] theorem rs2Of_encB (disp : BitVec 13) (rs2 rs1 : RegIdx) (fn3 : BitVec 3) (op : BitVec 7) : rs2Of (encB disp rs2 rs1 fn3 op) = rs2 := by
  unfold rs2Of encB
  apply BitVec.eq_of_getLsbD_eq
  intro i hi
  interval_cases i <;> simp

/-! ### `encJ` -/

@[simp] theorem opcodeOf_encJ (disp : BitVec 21) (rd : RegIdx) (op : BitVec 7) : opcodeOf (encJ disp rd op) = op := by
  unfold opcodeOf encJ
  apply BitVec.eq_of_getLsbD_eq
  intro i hi
  interval_cases i <;> simp

@[simp] theorem rdOf_encJ (disp : BitVec 21) (rd : RegIdx) (op : BitVec 7) : rdOf (encJ disp rd op) = rd := by
  unfold rdOf encJ
  apply BitVec.eq_of_getLsbD_eq
  intro i hi
  interval_cases i <;> simp

/-! ### `encFence` -/

@[simp] theorem opcodeOf_encFence (p q : BitVec 4) : opcodeOf (encFence p q) = 0b0001111#7 := by
  unfold opcodeOf encFence
  apply BitVec.eq_of_getLsbD_eq
  intro i hi
  interval_cases i <;> simp

@[simp] theorem rdOf_encFence (p q : BitVec 4) : rdOf (encFence p q) = 0#5 := by
  unfold rdOf encFence
  apply BitVec.eq_of_getLsbD_eq
  intro i hi
  interval_cases i <;> simp

@[simp] theorem fn3Of_encFence (p q : BitVec 4) : fn3Of (encFence p q) = 0#3 := by
  unfold fn3Of encFence
  apply BitVec.eq_of_getLsbD_eq
  intro i hi
  interval_cases i <;> simp

@[simp] theorem rs1Of_encFence (p q : BitVec 4) : rs1Of (encFence p q) = 0#5 := by
  unfold rs1Of encFence
  apply BitVec.eq_of_getLsbD_eq
  intro i hi
  interval_cases i <;> simp

theorem zero_encFence (p q : BitVec 4) : (encFence p q).extractLsb' 28 4 = 0#4 := by
  unfold encFence
  apply BitVec.eq_of_getLsbD_eq
  intro i hi
  interval_cases i <;> simp

theorem pppp_encFence (p q : BitVec 4) : (encFence p q).extractLsb' 24 4 = p := by
  unfold encFence
  apply BitVec.eq_of_getLsbD_eq
  intro i hi
  interval_cases i <;> simp

theorem ssss_encFence (p q : BitVec 4) : (encFence p q).extractLsb' 20 4 = q := by
  unfold encFence
  apply BitVec.eq_of_getLsbD_eq
  intro i hi
  interval_cases i <;> simp

/-! ### `encS` -/

@[simp] theorem opcodeOf_encS (imm : BitVec 12) (rs2 rs1 : RegIdx) (fn3 : BitVec 3) (op : BitVec 7) :
    opcodeOf (encS imm rs2 rs1 fn3 op) = op := by simp [encS]

@[simp] theorem fn3Of_encS (imm : BitVec 12) (rs2 rs1 : RegIdx) (fn3 : BitVec 3) (op : BitVec 7) :
    fn3Of (encS imm rs2 rs1 fn3 op) = fn3 := by simp [encS]

@[simp] theorem rs1Of_encS (imm : BitVec 12) (rs2 rs1 : RegIdx) (fn3 : BitVec 3) (op : BitVec 7) :
    rs1Of (encS imm rs2 rs1 fn3 op) = rs1 := by simp [encS]

@[simp] theorem rs2Of_encS (imm : BitVec 12) (rs2 rs1 : RegIdx) (fn3 : BitVec 3) (op : BitVec 7) :
    rs2Of (encS imm rs2 rs1 fn3 op) = rs2 := by simp [encS]

@[simp] theorem immSOf_encS (imm : BitVec 12) (rs2 rs1 : RegIdx) (fn3 : BitVec 3) (op : BitVec 7) :
    immSOf (encS imm rs2 rs1 fn3 op) = imm := by
  have h1 : (encS imm rs2 rs1 fn3 op).extractLsb' 25 7 = imm.extractLsb' 5 7 := fn7Of_encR _ _ _ _ _ _
  have h2 : (encS imm rs2 rs1 fn3 op).extractLsb' 7 5 = imm.extractLsb' 0 5 := rdOf_encR _ _ _ _ _ _
  unfold immSOf
  rw [h1, h2]
  apply BitVec.eq_of_getLsbD_eq
  intro i hi
  interval_cases i <;> simp

/-! ### The displacements of `encB` and `encJ` -/

theorem encB_bits31 (disp : BitVec 13) (rs2 rs1 : RegIdx) (fn3 : BitVec 3) (op : BitVec 7) : (encB disp rs2 rs1 fn3 op).extractLsb' 31 1 = disp.extractLsb' 12 1 := by
  unfold encB
  apply BitVec.eq_of_getLsbD_eq
  intro i hi
  interval_cases i; simp

theorem encB_bits25 (disp : BitVec 13) (rs2 rs1 : RegIdx) (fn3 : BitVec 3) (op : BitVec 7) : (encB disp rs2 rs1 fn3 op).extractLsb' 25 6 = disp.extractLsb' 5 6 := by
  unfold encB
  apply BitVec.eq_of_getLsbD_eq
  intro i hi
  interval_cases i <;> simp

theorem encB_bits8 (disp : BitVec 13) (rs2 rs1 : RegIdx) (fn3 : BitVec 3) (op : BitVec 7) : (encB disp rs2 rs1 fn3 op).extractLsb' 8 4 = disp.extractLsb' 1 4 := by
  unfold encB
  apply BitVec.eq_of_getLsbD_eq
  intro i hi
  interval_cases i <;> simp

theorem encB_bits7 (disp : BitVec 13) (rs2 rs1 : RegIdx) (fn3 : BitVec 3) (op : BitVec 7) : (encB disp rs2 rs1 fn3 op).extractLsb' 7 1 = disp.extractLsb' 11 1 := by
  unfold encB
  apply BitVec.eq_of_getLsbD_eq
  intro i hi
  interval_cases i; simp

/-- The displacement read back, where its bit 0 is the literal 0 (rule R83). -/
theorem dispBOf_encB (disp : BitVec 13) (rs2 rs1 : RegIdx) (fn3 : BitVec 3) (op : BitVec 7) (h : disp.getLsbD 0 = false) : dispBOf (encB disp rs2 rs1 fn3 op) = disp := by
  unfold dispBOf
  rw [encB_bits31, encB_bits25, encB_bits8, encB_bits7]
  apply BitVec.eq_of_getLsbD_eq
  intro i hi
  have h0 : disp[0] = false := by simpa using h
  interval_cases i <;> simp [h0]

theorem encJ_bits31 (disp : BitVec 21) (rd : RegIdx) (op : BitVec 7) : (encJ disp rd op).extractLsb' 31 1 = disp.extractLsb' 20 1 := by
  unfold encJ
  apply BitVec.eq_of_getLsbD_eq
  intro i hi
  interval_cases i; simp

theorem encJ_bits21 (disp : BitVec 21) (rd : RegIdx) (op : BitVec 7) : (encJ disp rd op).extractLsb' 21 10 = disp.extractLsb' 1 10 := by
  unfold encJ
  apply BitVec.eq_of_getLsbD_eq
  intro i hi
  interval_cases i <;> simp

theorem encJ_bits20 (disp : BitVec 21) (rd : RegIdx) (op : BitVec 7) : (encJ disp rd op).extractLsb' 20 1 = disp.extractLsb' 11 1 := by
  unfold encJ
  apply BitVec.eq_of_getLsbD_eq
  intro i hi
  interval_cases i; simp

theorem encJ_bits12 (disp : BitVec 21) (rd : RegIdx) (op : BitVec 7) : (encJ disp rd op).extractLsb' 12 8 = disp.extractLsb' 12 8 := by
  unfold encJ
  apply BitVec.eq_of_getLsbD_eq
  intro i hi
  interval_cases i <;> simp

/-- The displacement read back, where its bit 0 is the literal 0 (rule R84). -/
theorem dispJOf_encJ (disp : BitVec 21) (rd : RegIdx) (op : BitVec 7) (h : disp.getLsbD 0 = false) : dispJOf (encJ disp rd op) = disp := by
  unfold dispJOf
  rw [encJ_bits31, encJ_bits21, encJ_bits20, encJ_bits12]
  apply BitVec.eq_of_getLsbD_eq
  intro i hi
  have h0 : disp[0] = false := by simpa using h
  interval_cases i <;> simp [h0]

/-! ### A word is the encoding of its own fields -/

theorem encI_fields (w : InstrWord) : encI (immIOf w) (rs1Of w) (fn3Of w) (rdOf w) (opcodeOf w) = w := by
  apply BitVec.eq_of_getLsbD_eq
  intro i hi
  unfold encI immIOf rs1Of fn3Of rdOf opcodeOf
  interval_cases i <;> simp

theorem encR_fields (w : InstrWord) : encR (fn7Of w) (rs2Of w) (rs1Of w) (fn3Of w) (rdOf w) (opcodeOf w) = w := by
  apply BitVec.eq_of_getLsbD_eq
  intro i hi
  unfold encR fn7Of rs2Of rs1Of fn3Of rdOf opcodeOf
  interval_cases i <;> simp

theorem encShift_fields (w : InstrWord) :
    encShift (fn6Of w) (shamtOf w) (rs1Of w) (fn3Of w) (rdOf w) (opcodeOf w) = w := by
  apply BitVec.eq_of_getLsbD_eq
  intro i hi
  unfold encShift fn6Of shamtOf rs1Of fn3Of rdOf opcodeOf
  interval_cases i <;> simp

theorem encU_fields (w : InstrWord) : encU (immUOf w) (rdOf w) (opcodeOf w) = w := by
  apply BitVec.eq_of_getLsbD_eq
  intro i hi
  unfold encU immUOf rdOf opcodeOf
  interval_cases i <;> simp

theorem encS_fields (w : InstrWord) : encS (immSOf w) (rs2Of w) (rs1Of w) (fn3Of w) (opcodeOf w) = w := by
  apply BitVec.eq_of_getLsbD_eq
  intro i hi
  unfold encS encR immSOf rs2Of rs1Of fn3Of opcodeOf
  interval_cases i <;> simp

theorem encB_fields (w : InstrWord) : encB (dispBOf w) (rs2Of w) (rs1Of w) (fn3Of w) (opcodeOf w) = w := by
  apply BitVec.eq_of_getLsbD_eq
  intro i hi
  unfold encB dispBOf rs2Of rs1Of fn3Of opcodeOf
  interval_cases i <;> simp

theorem encJ_fields (w : InstrWord) : encJ (dispJOf w) (rdOf w) (opcodeOf w) = w := by
  apply BitVec.eq_of_getLsbD_eq
  intro i hi
  unfold encJ dispJOf rdOf opcodeOf
  interval_cases i <;> simp

theorem dispBOf_even (w : InstrWord) : (dispBOf w).getLsbD 0 = false := by simp [dispBOf]
theorem dispJOf_even (w : InstrWord) : (dispJOf w).getLsbD 0 = false := by simp [dispJOf]

end Sys2Proof
end

