-- ==== Sys2Proof/Laws/Step.lean ====
section
/-! SUPPORT. What a step can do. -/

namespace Sys2Proof.Machine

theorem rejectEncoding_next {r : Refusal} {s t : State} (h : rejectEncoding r s = .next t) :
    s.cfg.encPolicy = .illegalInstructionTrap ∧ t = s.raiseIllegal := by
  unfold rejectEncoding at h
  split at h
  · cases h
  · rename_i hp
    cases h
    exact ⟨hp, rfl⟩

/-- Everything an instruction cycle can do when it gives a next state (rule R25 steps 2 to 6). -/
theorem runInstr_cases {s t : State} (h : runInstr s = .next t) :
    pcAligned s = true ∧ fetchAdmitted s = true ∧
      ((∃ i, decode (fetchWord s) = .instr i ∧ exec i s.beginInstr = .next t) ∨
        (s.cfg.encPolicy = .illegalInstructionTrap ∧ t = s.beginInstr.raiseIllegal)) := by
  unfold runInstr at h
  split at h
  · rename_i ha
    split at h
    · rename_i hf
      refine ⟨ha, hf, ?_⟩
      split at h
      · rename_i i hi
        exact Or.inl ⟨i, hi, h⟩
      · have := rejectEncoding_next h
        exact Or.inr ⟨by simpa using this.1, this.2⟩
      · have := rejectEncoding_next h
        exact Or.inr ⟨by simpa using this.1, this.2⟩
    · cases h
  · cases h

/-- Everything a step can do when it gives a next state: an interrupt, an instruction, or the trap of an encoding
without a meaning (rules R25, R250). -/
theorem step_cases {s t : State} (h : step s = .next t) :
    (interruptTaken s.sampleMip = true ∧ t = s.sampleMip.takeInterrupt) ∨
      (interruptTaken s.sampleMip = false ∧ pcAligned s.sampleMip = true ∧ fetchAdmitted s.sampleMip = true ∧
        ((∃ i, decode (fetchWord s.sampleMip) = .instr i ∧ exec i s.sampleMip.beginInstr = .next t) ∨
          (s.cfg.encPolicy = .illegalInstructionTrap ∧ t = s.sampleMip.beginInstr.raiseIllegal))) := by
  unfold step cycle at h
  split at h
  · rename_i hi
    exact Or.inl ⟨hi, by cases h; rfl⟩
  · rename_i hi
    have := runInstr_cases h
    rw [sampleMip_cfg] at this
    exact Or.inr ⟨by simpa using hi, this⟩

end Sys2Proof.Machine
end

