-- ==== Sys2Proof/Laws/Exec.lean ====
section
/-! SUPPORT. Everything an instruction can do, said once: the ten shapes of a next state. -/

namespace Sys2Proof.Machine

/-- The ten shapes of the next state `t` that instruction `i` gives at `s`. -/
inductive ExecShape (i : Instr) (s t : State) : Prop where
  | plain (rd : RegIdx) (v : Word) (h : t = s.setX rd v)
  | same (h : t = s)
  | branch (rs1 rs2 d) (b) (hb : b ∈ branchForms s rs1 rs2 d) (hi : i = b.1) (v : Word) (h : t = s.setPc v)
  | jal (rd d) (hi : i = .jal rd d) (v w : Word) (h : t = (s.setX rd v).setPc w)
  | jalr (rd rs1 imm) (hi : i = .jalr rd rs1 imm) (v w : Word) (h : t = (s.setX rd v).setPc w)
  | load (rd : RegIdx) (v p : Word) (n : Nat) (h : t = (afterRead s p n).setX rd v)
  | store (rs1 rs2 imm) (l) (hl : l ∈ storeForms rs1 rs2 imm) (hi : i = l.1) (v p : Word) (n : Nat) (h : t = afterWrite s p n v)
  | trap (c : Cause) (h : t = s.trapEnter c false s.ia)
  | mret (hi : i = .mret) (h : t = s.trapReturn)
  | csr (rd f n) (p) (hp : p ∈ csrForms s rd f n) (hi : i = p.1) (ht : csrTraps s.cfg n f = false) (new : Word) (h : t = csrWriteHalf (csrReadHalf (afterCsrRead s n) rd n (csrRead s n)) f n new)

theorem rejectEncoding_shape {r s t i} (h : rejectEncoding r s = .next t) : ExecShape i s t := by
  obtain ⟨_, rfl⟩ := rejectEncoding_next h
  exact .trap _ rfl

/-- Every next state of every instruction has one of the ten shapes. -/
theorem exec_shape : ∀ (i : Instr) (s t : State), exec i s = .next t → ExecShape i s t := by
  intro i s t h
  cases i
  case auipc => cases h; exact .plain _ _ rfl
  case lui => cases h; exact .plain _ _ rfl
  case fence => cases h; exact .same rfl
  case fenceI => cases h; exact .same rfl
  case wfi => cases h; exact .same rfl
  case jal => cases h; exact .jal _ _ rfl _ _ rfl
  case jalr => cases h; exact .jalr _ _ _ rfl _ _ rfl
  case ecall => cases h; exact .trap _ rfl
  case ebreak => cases h; exact .trap _ rfl
  case mret => cases h; exact .mret rfl rfl
  case beq a b d => cases h; exact .branch a b d (_, _, _) (by simp only [branchForms, List.mem_cons]; left; rfl) rfl _ rfl
  case bne a b d => cases h; exact .branch a b d (_, _, _) (by simp only [branchForms, List.mem_cons]; right; left; rfl) rfl _ rfl
  case blt a b d => cases h; exact .branch a b d (_, _, _) (by simp only [branchForms, List.mem_cons]; right; right; left; rfl) rfl _ rfl
  case bge a b d => cases h; exact .branch a b d (_, _, _) (by simp only [branchForms, List.mem_cons]; right; right; right; left; rfl) rfl _ rfl
  case bltu a b d => cases h; exact .branch a b d (_, _, _) (by simp only [branchForms, List.mem_cons]; right; right; right; right; left; rfl) rfl _ rfl
  case bgeu a b d => cases h; exact .branch a b d (_, _, _) (by simp only [branchForms, List.mem_cons]; right; right; right; right; right; left; rfl) rfl _ rfl
  case lb | lh | lw | ld | lbu | lhu | lwu | ldu =>
    rcases load_cases h with ⟨_, rfl⟩ | ⟨_, _, rfl⟩ | ⟨a, _, _, _, rfl⟩
    · exact .same rfl
    · exact .trap _ rfl
    · exact .load _ _ _ _ rfl
  case sb a b d => 
    rcases store_cases h with ⟨_, rfl⟩ | ⟨p, _, _, rfl⟩
    · exact .trap _ rfl
    · exact .store a b d (.sb a b d, 1) (by simp [storeForms]) rfl _ _ _ rfl
  case sh a b d => 
    rcases store_cases h with ⟨_, rfl⟩ | ⟨p, _, _, rfl⟩
    · exact .trap _ rfl
    · exact .store a b d (.sh a b d, 2) (by simp [storeForms]) rfl _ _ _ rfl
  case sw a b d => 
    rcases store_cases h with ⟨_, rfl⟩ | ⟨p, _, _, rfl⟩
    · exact .trap _ rfl
    · exact .store a b d (.sw a b d, 4) (by simp [storeForms]) rfl _ _ _ rfl
  case sd a b d => 
    rcases store_cases h with ⟨_, rfl⟩ | ⟨p, _, _, rfl⟩
    · exact .trap _ rfl
    · exact .store a b d (.sd a b d, 8) (by simp [storeForms]) rfl _ _ _ rfl
  case csrrw rd f n =>
    rcases csrInstr_cases h with ⟨_, rfl⟩ | ⟨ht, rfl⟩
    · exact .trap _ rfl
    · exact .csr rd f n (.csrrw rd f n, fun _ => s.x f) (by simp [csrForms]) rfl ht _ rfl
  case csrrs rd f n =>
    rcases csrInstr_cases h with ⟨_, rfl⟩ | ⟨ht, rfl⟩
    · exact .trap _ rfl
    · exact .csr rd f n (.csrrs rd f n, fun old => old ||| s.x f) (by simp [csrForms]) rfl ht _ rfl
  case csrrc rd f n =>
    rcases csrInstr_cases h with ⟨_, rfl⟩ | ⟨ht, rfl⟩
    · exact .trap _ rfl
    · exact .csr rd f n (.csrrc rd f n, fun old => old &&& ~~~(s.x f)) (by simp [csrForms]) rfl ht _ rfl
  case csrrwi rd f n =>
    rcases csrInstr_cases h with ⟨_, rfl⟩ | ⟨ht, rfl⟩
    · exact .trap _ rfl
    · exact .csr rd f n (.csrrwi rd f n, fun _ => BitVec.ofNat 64 f.toNat) (by simp [csrForms]) rfl ht _ rfl
  case csrrsi rd f n =>
    rcases csrInstr_cases h with ⟨_, rfl⟩ | ⟨ht, rfl⟩
    · exact .trap _ rfl
    · exact .csr rd f n (.csrrsi rd f n, fun old => old ||| BitVec.ofNat 64 f.toNat) (by simp [csrForms]) rfl ht _ rfl
  case csrrci rd f n =>
    rcases csrInstr_cases h with ⟨_, rfl⟩ | ⟨ht, rfl⟩
    · exact .trap _ rfl
    · exact .csr rd f n (.csrrci rd f n, fun old => old &&& ~~~(BitVec.ofNat 64 f.toNat)) (by simp [csrForms]) rfl ht _ rfl
  case sltW rd a b | sltuW rd a b | xorW rd a b | orW rd a b | andW rd a b | sltiW rd a b | sltiuW rd a b | xoriW rd a b | oriW rd a b | andiW rd a b =>
    simp only [exec, execSltW, execSltuW, execXorW, execOrW, execAndW, execSltiW, execSltiuW, execXoriW, execOriW, execAndiW, opUnnamedW] at h
    split at h
    · cases h; exact .plain _ _ rfl
    · exact rejectEncoding_shape h
  case slliw | srliw | sraiw => 
    simp only [exec, execSlliw, execSrliw, execSraiw, opShiftImmW] at h
    split at h
    · exact rejectEncoding_shape h
    · cases h; exact .plain _ _ rfl
  all_goals (cases h; exact .plain _ _ rfl)

end Sys2Proof.Machine
end

