-- ==== Sys2Proof/Laws/Fields.lean ====
section
/-! SUPPORT. The fields of an encoded word, format by format, as the tables of claims name them. -/

namespace Sys2Proof.Machine

theorem fields_encR (fn7 : BitVec 7) (rs2 rs1 : RegIdx) (fn3 : BitVec 3) (rd : RegIdx) (op : BitVec 7) :
    ∀ f ∈ fieldsR fn7.toNat fn3.toNat op.toNat rd rs1 rs2,
      ((encR fn7 rs2 rs1 fn3 rd op).extractLsb' f.1 f.2.1).toNat = f.2.2 := by
  simp only [fieldsR, List.forall_mem_cons, List.not_mem_nil, false_implies, implies_true, and_true]
  exact ⟨congrArg BitVec.toNat (fn7Of_encR ..), congrArg BitVec.toNat (rs2Of_encR ..), congrArg BitVec.toNat (rs1Of_encR ..),
    congrArg BitVec.toNat (fn3Of_encR ..), congrArg BitVec.toNat (rdOf_encR ..), congrArg BitVec.toNat (opcodeOf_encR ..)⟩

theorem fields_encI (imm : BitVec 12) (rs1 : RegIdx) (fn3 : BitVec 3) (rd : RegIdx) (op : BitVec 7) :
    ∀ f ∈ fieldsI fn3.toNat op.toNat rd rs1 imm, ((encI imm rs1 fn3 rd op).extractLsb' f.1 f.2.1).toNat = f.2.2 := by
  simp only [fieldsI, List.forall_mem_cons, List.not_mem_nil, false_implies, implies_true, and_true]
  exact ⟨congrArg BitVec.toNat (immIOf_encI ..), congrArg BitVec.toNat (rs1Of_encI ..), congrArg BitVec.toNat (fn3Of_encI ..),
    congrArg BitVec.toNat (rdOf_encI ..), congrArg BitVec.toNat (opcodeOf_encI ..)⟩

theorem fields_encShift (fn6 shamt : BitVec 6) (rs1 : RegIdx) (fn3 : BitVec 3) (rd : RegIdx) (op : BitVec 7) :
    ∀ f ∈ fieldsShift fn6.toNat fn3.toNat op.toNat rd rs1 shamt,
      ((encShift fn6 shamt rs1 fn3 rd op).extractLsb' f.1 f.2.1).toNat = f.2.2 := by
  simp only [fieldsShift, List.forall_mem_cons, List.not_mem_nil, false_implies, implies_true, and_true]
  exact ⟨congrArg BitVec.toNat (fn6Of_encShift ..), congrArg BitVec.toNat (shamtOf_encShift ..),
    congrArg BitVec.toNat (rs1Of_encShift ..), congrArg BitVec.toNat (fn3Of_encShift ..),
    congrArg BitVec.toNat (rdOf_encShift ..), congrArg BitVec.toNat (opcodeOf_encShift ..)⟩

theorem fields_encS (imm : BitVec 12) (rs2 rs1 : RegIdx) (fn3 : BitVec 3) (op : BitVec 7) :
    ∀ f ∈ fieldsS fn3.toNat op.toNat rs1 rs2 imm, ((encS imm rs2 rs1 fn3 op).extractLsb' f.1 f.2.1).toNat = f.2.2 := by
  have h := imm.isLt
  have e : ∀ f ∈ fieldsR (imm.extractLsb' 5 7).toNat fn3.toNat op.toNat (imm.extractLsb' 0 5) rs1 rs2,
      ((encS imm rs2 rs1 fn3 op).extractLsb' f.1 f.2.1).toNat = f.2.2 :=
    fields_encR _ _ _ _ _ _
  have h7 : (imm.extractLsb' 5 7).toNat = imm.toNat / 2 ^ 5 := by
    simp [BitVec.extractLsb'_toNat, Nat.shiftRight_eq_div_pow]; omega
  have h5 : (imm.extractLsb' 0 5).toNat = imm.toNat % 2 ^ 5 := by simp [BitVec.extractLsb'_toNat]
  rw [fieldsR, h7, h5] at e
  exact e

theorem fields_encU (imm : BitVec 20) (rd : RegIdx) (op : BitVec 7) :
    ∀ f ∈ fieldsU op.toNat rd imm, ((encU imm rd op).extractLsb' f.1 f.2.1).toNat = f.2.2 := by
  simp only [fieldsU, List.forall_mem_cons, List.not_mem_nil, false_implies, implies_true, and_true]
  exact ⟨congrArg BitVec.toNat (immUOf_encU ..), congrArg BitVec.toNat (rdOf_encU ..), congrArg BitVec.toNat (opcodeOf_encU ..)⟩

theorem fields_encB (disp : BitVec 13) (rs2 rs1 : RegIdx) (fn3 : BitVec 3) (op : BitVec 7) :
    ∀ f ∈ fieldsB fn3.toNat op.toNat rs1 rs2 disp, ((encB disp rs2 rs1 fn3 op).extractLsb' f.1 f.2.1).toNat = f.2.2 := by
  have hd := disp.isLt
  simp only [fieldsB, List.forall_mem_cons, List.not_mem_nil, false_implies, implies_true, and_true]
  refine ⟨?_, ?_, congrArg BitVec.toNat (rs2Of_encB ..), congrArg BitVec.toNat (rs1Of_encB ..),
    congrArg BitVec.toNat (fn3Of_encB ..), ?_, ?_, congrArg BitVec.toNat (opcodeOf_encB ..)⟩
  · rw [encB_bits31]; simp [BitVec.extractLsb'_toNat, Nat.shiftRight_eq_div_pow]; omega
  · rw [encB_bits25]; simp [BitVec.extractLsb'_toNat, Nat.shiftRight_eq_div_pow]
  · rw [encB_bits8]; simp [BitVec.extractLsb'_toNat, Nat.shiftRight_eq_div_pow]
  · rw [encB_bits7]; simp [BitVec.extractLsb'_toNat, Nat.shiftRight_eq_div_pow]

theorem fields_encJ (disp : BitVec 21) (rd : RegIdx) (op : BitVec 7) :
    ∀ f ∈ fieldsJ op.toNat rd disp, ((encJ disp rd op).extractLsb' f.1 f.2.1).toNat = f.2.2 := by
  have hd := disp.isLt
  simp only [fieldsJ, List.forall_mem_cons, List.not_mem_nil, false_implies, implies_true, and_true]
  refine ⟨?_, ?_, ?_, ?_, congrArg BitVec.toNat (rdOf_encJ ..), congrArg BitVec.toNat (opcodeOf_encJ ..)⟩
  · rw [encJ_bits31]; simp [BitVec.extractLsb'_toNat, Nat.shiftRight_eq_div_pow]; omega
  · rw [encJ_bits21]; simp [BitVec.extractLsb'_toNat, Nat.shiftRight_eq_div_pow]
  · rw [encJ_bits20]; simp [BitVec.extractLsb'_toNat, Nat.shiftRight_eq_div_pow]
  · rw [encJ_bits12]; simp [BitVec.extractLsb'_toNat, Nat.shiftRight_eq_div_pow]

end Sys2Proof.Machine
end

