-- ==== Sys2Proof/Laws/Operation.lean ====
section
/-! SUPPORT. Results of operations read bit by bit and as integers, and the two commonest outcomes in the terms of claims. -/

namespace Sys2Proof.Machine

/-! ### Outcomes -/

/-- A register write changes that register only (rule R21). -/
theorem setX_writesOnly (s : State) (rd : RegIdx) (v : Word) : WritesOnly s (s.setX rd v) rd v := by
  simp [WritesOnly, RegsWith, SameAddresses, SameCsrs, SameTrapCsrs, SameOtherCsrs, SameEnvironment, SameMemory, setX_x]

/-- A trap entry is exactly what claims call one (rule R241). -/
theorem trapEnter_taken (s : State) (c q e) : TrapTaken s (s.trapEnter c q e) c q e := by
  simp [TrapTaken, SameRegs, SameOtherCsrs, SameEnvironment, SameMemory]

/-- `rejectEncoding` is exactly what claims call a rejection (rules R91, R92). -/
theorem rejectEncoding_rejectedAs {s r} : RejectedAs (rejectEncoding r s) s r := by
  constructor
  · intro h; simp [rejectEncoding, h]
  · intro h; refine ⟨s.raiseIllegal, by simp [rejectEncoding, h], ?_⟩
    simp [TrapTaken, State.raiseIllegal, SameRegs, SameOtherCsrs, SameEnvironment, SameMemory]

/-! ### Integers -/

theorem sext_eq_ofInt {n : Nat} (v : BitVec n) : sext v = BitVec.ofInt 64 v.toInt := rfl

theorem add_eq_ofInt (a b : Word) : a + b = BitVec.ofInt 64 (a.toInt + b.toInt) := by
  rw [BitVec.ofInt_add]; simp

theorem add_sext_eq_ofInt {n} (a : Word) (v : BitVec n) : a + sext v = BitVec.ofInt 64 (a.toInt + v.toInt) := by
  rw [BitVec.ofInt_add]; simp [sext_eq_ofInt]

theorem sub_eq_ofInt (a b : Word) : a - b = BitVec.ofInt 64 (a.toInt - b.toInt) := by
  apply BitVec.eq_of_toInt_eq; simp

theorem ltSigned_word (a b : Word) : boolWord (ltSigned a b) = if a.toInt < b.toInt then 1#64 else 0#64 := by
  simp [boolWord, ltSigned, BitVec.slt]

theorem ltUnsigned_word (a b : Word) : boolWord (ltUnsigned a b) = if a.toNat < b.toNat then 1#64 else 0#64 := by
  simp [boolWord, ltUnsigned, BitVec.ult]

theorem upperImm_eq_ofInt (imm : BitVec 20) : upperImm imm = BitVec.ofInt 64 (imm.toInt * 4096) := by
  have : (place 32 imm 12).toInt = imm.toInt * 4096 := by
    rw [BitVec.toInt_eq_toNat_cond, BitVec.toInt_eq_toNat_cond]
    have := imm.isLt
    simp [place, Nat.shiftLeft_eq]
    rw [Nat.mod_eq_of_lt (by omega)]
    split <;> split <;> omega
  rw [upperImm, sext_eq_ofInt, this]

theorem lineSuccessor_eq_ofInt (s : State) : lineSuccessor s = BitVec.ofInt 64 (s.ia.toInt + 4) := by
  rw [BitVec.ofInt_add]; simp [lineSuccessor]

/-! ### Shifts, bit by bit -/

theorem shiftCount_eq (b : Word) : shiftCount b = b.toNat % 64 := by simp [shiftCount]

theorem shiftCount5_eq (b : Word) : shiftCount5 b = b.toNat % 32 := by simp [shiftCount5]

theorem shiftLeft_bit (a : Word) (k j : Nat) (hj : j < 64) : (a <<< k).getLsbD j = (decide (k ≤ j) && a.getLsbD (j - k)) := by
  rw [BitVec.getLsbD_shiftLeft]
  by_cases h : k ≤ j
  · have : ¬ j < k := by omega
    simp [hj, h, this]
  · have : j < k := by omega
    simp [h, this]

theorem ushiftRight_bit (a : Word) (k j : Nat) : (a >>> k).getLsbD j = (decide (j + k < 64) && a.getLsbD (j + k)) := by
  rw [BitVec.getLsbD_ushiftRight, Nat.add_comm]
  by_cases h : j + k < 64
  · simp [h]
  · rw [BitVec.getLsbD_of_ge _ _ (by omega)]; simp

theorem sshiftRight_bit (a : Word) (k j : Nat) (hj : j < 64) : (a.sshiftRight k).getLsbD j = a.getLsbD (min (j+k) 63) := by
  rw [BitVec.getLsbD_sshiftRight]
  have h1 : decide (64 ≤ j) = false := by simp; omega
  simp only [h1, Bool.not_false, Bool.true_and]
  split
  · congr 1; omega
  · rw [BitVec.msb_eq_getLsbD_last]; congr 1; omega

theorem shiftLeft32_bit (a : Word) (k j : Nat) (hj : j < 32) : ((a.setWidth 32) <<< k).getLsbD j = (decide (k ≤ j) && a.getLsbD (j - k)) := by
  rw [BitVec.getLsbD_shiftLeft, BitVec.getLsbD_setWidth]
  by_cases h : k ≤ j
  · have : ¬ j < k := by omega
    have : j - k < 32 := by omega
    simp_all
  · have : j < k := by omega
    simp [h, this]

theorem ushiftRight32_bit (a : Word) (k j : Nat) : ((a.setWidth 32) >>> k).getLsbD j = (decide (j + k < 32) && a.getLsbD (j + k)) := by
  rw [BitVec.getLsbD_ushiftRight, BitVec.getLsbD_setWidth, Nat.add_comm]

theorem sshiftRight32_bit (a : Word) (k j : Nat) (hj : j < 32) : ((a.setWidth 32).sshiftRight k).getLsbD j = a.getLsbD (min (j+k) 31) := by
  rw [BitVec.getLsbD_sshiftRight]
  have h1 : decide (32 ≤ j) = false := by simp; omega
  simp only [h1, Bool.not_false, Bool.true_and]
  split
  · rw [BitVec.getLsbD_setWidth, decide_eq_true (by omega), Bool.true_and]; (try (congr 1; omega))
  · rw [BitVec.msb_eq_getLsbD_last, BitVec.getLsbD_setWidth, decide_eq_true (by omega), Bool.true_and]; (try (congr 1; omega))

/-! ### The low 32 bits, sign-extended -/

theorem sext32_bit (v : BitVec 32) (j : Nat) (hj : j < 64) : (sext v).getLsbD j = v.getLsbD (min j 31) := by
  simp only [sext, BitVec.getLsbD_signExtend, hj, decide_true, Bool.true_and]
  split
  · rename_i h; rw [Nat.min_eq_left (by omega)]
  · rw [BitVec.msb_eq_getLsbD_last, Nat.min_eq_right (by omega)]

theorem sextLow32_bit (v : Word) (j : Nat) (hj : j < 64) : (sextLow32 v).getLsbD j = v.getLsbD (min j 31) := by
  rw [sextLow32, sext32_bit _ _ hj, BitVec.getLsbD_setWidth, decide_eq_true (by omega : min j 31 < 32), Bool.true_and]

theorem sextLow32_eq_ofInt (v : Word) : sextLow32 v = BitVec.ofInt 64 (v.toInt.bmod (2^32)) := by
  have : (v.setWidth 32).toInt = v.toInt.bmod (2^32) := by
    rw [BitVec.toInt_setWidth, BitVec.toInt_eq_toNat_bmod, Int.bmod_bmod_of_dvd]
    exact ⟨2^32, rfl⟩
  rw [sextLow32, sext_eq_ofInt, this]

end Sys2Proof.Machine
end

