-- ==== Sys2Proof/Laws/PerInstr.lean ====
section
/-! SUPPORT. The per-instruction family: every encoding ends in the two bits 11 (rule R80). -/

namespace Sys2Proof.Laws

/-- The encoding of the instruction ends in the bits 11 (rule R80). -/
def LowBits.Statement (i : Instr) : Prop := (encode i).extractLsb' 0 2 = 0b11#2

/-- The low two bits of a word are those of its opcode. -/
theorem lowBits_of_opcode (w : InstrWord) (op : BitVec 7) (h : opcodeOf w = op) : w.extractLsb' 0 2 = op.extractLsb' 0 2 := by
  subst h
  apply BitVec.eq_of_getLsbD_eq
  intro i hi
  simp [opcodeOf, hi]

theorem LowBits.auipc (rd : RegIdx) (imm : BitVec 20) : LowBits.Statement (.auipc rd imm) := lowBits_of_opcode _ _ (opcodeOf_encU _ _ _)
theorem LowBits.beq (rs1 rs2 : RegIdx) (disp : BitVec 13) : LowBits.Statement (.beq rs1 rs2 disp) := lowBits_of_opcode _ _ (opcodeOf_encB _ _ _ _ _)
theorem LowBits.bne (rs1 rs2 : RegIdx) (disp : BitVec 13) : LowBits.Statement (.bne rs1 rs2 disp) := lowBits_of_opcode _ _ (opcodeOf_encB _ _ _ _ _)
theorem LowBits.blt (rs1 rs2 : RegIdx) (disp : BitVec 13) : LowBits.Statement (.blt rs1 rs2 disp) := lowBits_of_opcode _ _ (opcodeOf_encB _ _ _ _ _)
theorem LowBits.bge (rs1 rs2 : RegIdx) (disp : BitVec 13) : LowBits.Statement (.bge rs1 rs2 disp) := lowBits_of_opcode _ _ (opcodeOf_encB _ _ _ _ _)
theorem LowBits.bltu (rs1 rs2 : RegIdx) (disp : BitVec 13) : LowBits.Statement (.bltu rs1 rs2 disp) := lowBits_of_opcode _ _ (opcodeOf_encB _ _ _ _ _)
theorem LowBits.bgeu (rs1 rs2 : RegIdx) (disp : BitVec 13) : LowBits.Statement (.bgeu rs1 rs2 disp) := lowBits_of_opcode _ _ (opcodeOf_encB _ _ _ _ _)
theorem LowBits.jal (rd : RegIdx) (disp : BitVec 21) : LowBits.Statement (.jal rd disp) := lowBits_of_opcode _ _ (opcodeOf_encJ _ _ _)
theorem LowBits.jalr (rd rs1 : RegIdx) (imm : BitVec 12) : LowBits.Statement (.jalr rd rs1 imm) := lowBits_of_opcode _ _ (opcodeOf_encI _ _ _ _ _)
theorem LowBits.lb (rd rs1 : RegIdx) (imm : BitVec 12) : LowBits.Statement (.lb rd rs1 imm) := lowBits_of_opcode _ _ (opcodeOf_encI _ _ _ _ _)
theorem LowBits.lh (rd rs1 : RegIdx) (imm : BitVec 12) : LowBits.Statement (.lh rd rs1 imm) := lowBits_of_opcode _ _ (opcodeOf_encI _ _ _ _ _)
theorem LowBits.lw (rd rs1 : RegIdx) (imm : BitVec 12) : LowBits.Statement (.lw rd rs1 imm) := lowBits_of_opcode _ _ (opcodeOf_encI _ _ _ _ _)
theorem LowBits.ld (rd rs1 : RegIdx) (imm : BitVec 12) : LowBits.Statement (.ld rd rs1 imm) := lowBits_of_opcode _ _ (opcodeOf_encI _ _ _ _ _)
theorem LowBits.lbu (rd rs1 : RegIdx) (imm : BitVec 12) : LowBits.Statement (.lbu rd rs1 imm) := lowBits_of_opcode _ _ (opcodeOf_encI _ _ _ _ _)
theorem LowBits.lhu (rd rs1 : RegIdx) (imm : BitVec 12) : LowBits.Statement (.lhu rd rs1 imm) := lowBits_of_opcode _ _ (opcodeOf_encI _ _ _ _ _)
theorem LowBits.lwu (rd rs1 : RegIdx) (imm : BitVec 12) : LowBits.Statement (.lwu rd rs1 imm) := lowBits_of_opcode _ _ (opcodeOf_encI _ _ _ _ _)
theorem LowBits.ldu (rd rs1 : RegIdx) (imm : BitVec 12) : LowBits.Statement (.ldu rd rs1 imm) := lowBits_of_opcode _ _ (opcodeOf_encI _ _ _ _ _)
theorem LowBits.lui (rd : RegIdx) (imm : BitVec 20) : LowBits.Statement (.lui rd imm) := lowBits_of_opcode _ _ (opcodeOf_encU _ _ _)
theorem LowBits.fence (pppp ssss : BitVec 4) : LowBits.Statement (.fence pppp ssss) := lowBits_of_opcode _ _ (opcodeOf_encFence _ _)
theorem LowBits.fenceI : LowBits.Statement .fenceI := rfl
theorem LowBits.add (rd rs1 rs2 : RegIdx) : LowBits.Statement (.add rd rs1 rs2) := lowBits_of_opcode _ _ (opcodeOf_encR _ _ _ _ _ _)
theorem LowBits.sll (rd rs1 rs2 : RegIdx) : LowBits.Statement (.sll rd rs1 rs2) := lowBits_of_opcode _ _ (opcodeOf_encR _ _ _ _ _ _)
theorem LowBits.slt (rd rs1 rs2 : RegIdx) : LowBits.Statement (.slt rd rs1 rs2) := lowBits_of_opcode _ _ (opcodeOf_encR _ _ _ _ _ _)
theorem LowBits.sltu (rd rs1 rs2 : RegIdx) : LowBits.Statement (.sltu rd rs1 rs2) := lowBits_of_opcode _ _ (opcodeOf_encR _ _ _ _ _ _)
theorem LowBits.xor (rd rs1 rs2 : RegIdx) : LowBits.Statement (.xor rd rs1 rs2) := lowBits_of_opcode _ _ (opcodeOf_encR _ _ _ _ _ _)
theorem LowBits.srl (rd rs1 rs2 : RegIdx) : LowBits.Statement (.srl rd rs1 rs2) := lowBits_of_opcode _ _ (opcodeOf_encR _ _ _ _ _ _)
theorem LowBits.or (rd rs1 rs2 : RegIdx) : LowBits.Statement (.or rd rs1 rs2) := lowBits_of_opcode _ _ (opcodeOf_encR _ _ _ _ _ _)
theorem LowBits.and (rd rs1 rs2 : RegIdx) : LowBits.Statement (.and rd rs1 rs2) := lowBits_of_opcode _ _ (opcodeOf_encR _ _ _ _ _ _)
theorem LowBits.sub (rd rs1 rs2 : RegIdx) : LowBits.Statement (.sub rd rs1 rs2) := lowBits_of_opcode _ _ (opcodeOf_encR _ _ _ _ _ _)
theorem LowBits.sra (rd rs1 rs2 : RegIdx) : LowBits.Statement (.sra rd rs1 rs2) := lowBits_of_opcode _ _ (opcodeOf_encR _ _ _ _ _ _)
theorem LowBits.addw (rd rs1 rs2 : RegIdx) : LowBits.Statement (.addw rd rs1 rs2) := lowBits_of_opcode _ _ (opcodeOf_encR _ _ _ _ _ _)
theorem LowBits.sllw (rd rs1 rs2 : RegIdx) : LowBits.Statement (.sllw rd rs1 rs2) := lowBits_of_opcode _ _ (opcodeOf_encR _ _ _ _ _ _)
theorem LowBits.sltW (rd rs1 rs2 : RegIdx) : LowBits.Statement (.sltW rd rs1 rs2) := lowBits_of_opcode _ _ (opcodeOf_encR _ _ _ _ _ _)
theorem LowBits.sltuW (rd rs1 rs2 : RegIdx) : LowBits.Statement (.sltuW rd rs1 rs2) := lowBits_of_opcode _ _ (opcodeOf_encR _ _ _ _ _ _)
theorem LowBits.xorW (rd rs1 rs2 : RegIdx) : LowBits.Statement (.xorW rd rs1 rs2) := lowBits_of_opcode _ _ (opcodeOf_encR _ _ _ _ _ _)
theorem LowBits.srlw (rd rs1 rs2 : RegIdx) : LowBits.Statement (.srlw rd rs1 rs2) := lowBits_of_opcode _ _ (opcodeOf_encR _ _ _ _ _ _)
theorem LowBits.orW (rd rs1 rs2 : RegIdx) : LowBits.Statement (.orW rd rs1 rs2) := lowBits_of_opcode _ _ (opcodeOf_encR _ _ _ _ _ _)
theorem LowBits.andW (rd rs1 rs2 : RegIdx) : LowBits.Statement (.andW rd rs1 rs2) := lowBits_of_opcode _ _ (opcodeOf_encR _ _ _ _ _ _)
theorem LowBits.subw (rd rs1 rs2 : RegIdx) : LowBits.Statement (.subw rd rs1 rs2) := lowBits_of_opcode _ _ (opcodeOf_encR _ _ _ _ _ _)
theorem LowBits.sraw (rd rs1 rs2 : RegIdx) : LowBits.Statement (.sraw rd rs1 rs2) := lowBits_of_opcode _ _ (opcodeOf_encR _ _ _ _ _ _)
theorem LowBits.addi (rd rs1 : RegIdx) (imm : BitVec 12) : LowBits.Statement (.addi rd rs1 imm) := lowBits_of_opcode _ _ (opcodeOf_encI _ _ _ _ _)
theorem LowBits.slti (rd rs1 : RegIdx) (imm : BitVec 12) : LowBits.Statement (.slti rd rs1 imm) := lowBits_of_opcode _ _ (opcodeOf_encI _ _ _ _ _)
theorem LowBits.sltiu (rd rs1 : RegIdx) (imm : BitVec 12) : LowBits.Statement (.sltiu rd rs1 imm) := lowBits_of_opcode _ _ (opcodeOf_encI _ _ _ _ _)
theorem LowBits.xori (rd rs1 : RegIdx) (imm : BitVec 12) : LowBits.Statement (.xori rd rs1 imm) := lowBits_of_opcode _ _ (opcodeOf_encI _ _ _ _ _)
theorem LowBits.ori (rd rs1 : RegIdx) (imm : BitVec 12) : LowBits.Statement (.ori rd rs1 imm) := lowBits_of_opcode _ _ (opcodeOf_encI _ _ _ _ _)
theorem LowBits.andi (rd rs1 : RegIdx) (imm : BitVec 12) : LowBits.Statement (.andi rd rs1 imm) := lowBits_of_opcode _ _ (opcodeOf_encI _ _ _ _ _)
theorem LowBits.slli (rd rs1 : RegIdx) (shamt : BitVec 6) : LowBits.Statement (.slli rd rs1 shamt) := lowBits_of_opcode _ _ (opcodeOf_encShift _ _ _ _ _ _)
theorem LowBits.srli (rd rs1 : RegIdx) (shamt : BitVec 6) : LowBits.Statement (.srli rd rs1 shamt) := lowBits_of_opcode _ _ (opcodeOf_encShift _ _ _ _ _ _)
theorem LowBits.srai (rd rs1 : RegIdx) (shamt : BitVec 6) : LowBits.Statement (.srai rd rs1 shamt) := lowBits_of_opcode _ _ (opcodeOf_encShift _ _ _ _ _ _)
theorem LowBits.addiw (rd rs1 : RegIdx) (imm : BitVec 12) : LowBits.Statement (.addiw rd rs1 imm) := lowBits_of_opcode _ _ (opcodeOf_encI _ _ _ _ _)
theorem LowBits.slliw (rd rs1 : RegIdx) (shamt : BitVec 6) : LowBits.Statement (.slliw rd rs1 shamt) := lowBits_of_opcode _ _ (opcodeOf_encShift _ _ _ _ _ _)
theorem LowBits.srliw (rd rs1 : RegIdx) (shamt : BitVec 6) : LowBits.Statement (.srliw rd rs1 shamt) := lowBits_of_opcode _ _ (opcodeOf_encShift _ _ _ _ _ _)
theorem LowBits.sraiw (rd rs1 : RegIdx) (shamt : BitVec 6) : LowBits.Statement (.sraiw rd rs1 shamt) := lowBits_of_opcode _ _ (opcodeOf_encShift _ _ _ _ _ _)
theorem LowBits.sltiW (rd rs1 : RegIdx) (imm : BitVec 12) : LowBits.Statement (.sltiW rd rs1 imm) := lowBits_of_opcode _ _ (opcodeOf_encI _ _ _ _ _)
theorem LowBits.sltiuW (rd rs1 : RegIdx) (imm : BitVec 12) : LowBits.Statement (.sltiuW rd rs1 imm) := lowBits_of_opcode _ _ (opcodeOf_encI _ _ _ _ _)
theorem LowBits.xoriW (rd rs1 : RegIdx) (imm : BitVec 12) : LowBits.Statement (.xoriW rd rs1 imm) := lowBits_of_opcode _ _ (opcodeOf_encI _ _ _ _ _)
theorem LowBits.oriW (rd rs1 : RegIdx) (imm : BitVec 12) : LowBits.Statement (.oriW rd rs1 imm) := lowBits_of_opcode _ _ (opcodeOf_encI _ _ _ _ _)
theorem LowBits.andiW (rd rs1 : RegIdx) (imm : BitVec 12) : LowBits.Statement (.andiW rd rs1 imm) := lowBits_of_opcode _ _ (opcodeOf_encI _ _ _ _ _)
theorem LowBits.sb (rs1 rs2 : RegIdx) (imm : BitVec 12) : LowBits.Statement (.sb rs1 rs2 imm) := lowBits_of_opcode _ _ (opcodeOf_encS _ _ _ _ _)
theorem LowBits.sh (rs1 rs2 : RegIdx) (imm : BitVec 12) : LowBits.Statement (.sh rs1 rs2 imm) := lowBits_of_opcode _ _ (opcodeOf_encS _ _ _ _ _)
theorem LowBits.sw (rs1 rs2 : RegIdx) (imm : BitVec 12) : LowBits.Statement (.sw rs1 rs2 imm) := lowBits_of_opcode _ _ (opcodeOf_encS _ _ _ _ _)
theorem LowBits.sd (rs1 rs2 : RegIdx) (imm : BitVec 12) : LowBits.Statement (.sd rs1 rs2 imm) := lowBits_of_opcode _ _ (opcodeOf_encS _ _ _ _ _)
theorem LowBits.csrrw (rd rs1 : RegIdx) (csr : CsrIdx) : LowBits.Statement (.csrrw rd rs1 csr) := lowBits_of_opcode _ _ (opcodeOf_encI _ _ _ _ _)
theorem LowBits.csrrs (rd rs1 : RegIdx) (csr : CsrIdx) : LowBits.Statement (.csrrs rd rs1 csr) := lowBits_of_opcode _ _ (opcodeOf_encI _ _ _ _ _)
theorem LowBits.csrrc (rd rs1 : RegIdx) (csr : CsrIdx) : LowBits.Statement (.csrrc rd rs1 csr) := lowBits_of_opcode _ _ (opcodeOf_encI _ _ _ _ _)
theorem LowBits.csrrwi (rd : RegIdx) (uimm : BitVec 5) (csr : CsrIdx) : LowBits.Statement (.csrrwi rd uimm csr) := lowBits_of_opcode _ _ (opcodeOf_encI _ _ _ _ _)
theorem LowBits.csrrsi (rd : RegIdx) (uimm : BitVec 5) (csr : CsrIdx) : LowBits.Statement (.csrrsi rd uimm csr) := lowBits_of_opcode _ _ (opcodeOf_encI _ _ _ _ _)
theorem LowBits.csrrci (rd : RegIdx) (uimm : BitVec 5) (csr : CsrIdx) : LowBits.Statement (.csrrci rd uimm csr) := lowBits_of_opcode _ _ (opcodeOf_encI _ _ _ _ _)
theorem LowBits.ebreak : LowBits.Statement .ebreak := rfl
theorem LowBits.ecall : LowBits.Statement .ecall := rfl
theorem LowBits.mret : LowBits.Statement .mret := rfl
theorem LowBits.wfi : LowBits.Statement .wfi := rfl

end Sys2Proof.Laws
end

