-- ==== Sys2Proof/Tests/Slice0.lean ====
section
/-! SUPPORT. Tests by evaluation: words and results from the spec's vectors V<n> (95_test_vectors.md) and encoding
tables, and for each statement with hypotheses a witness that something meets them. -/

namespace Sys2Proof.Tests

open Sys2Proof.Machine

/-! ### The states tests start from -/

/-- The configuration of the spec's vectors: its defaults, with the other `mstatus` bits reading 0 (V204, V205). -/
def vectorConfig : Config := { defaultConfig with mstatusOther := some 0#64 }

/-- The reset state of this configuration at `pc`, with these values in registers. -/
def start (c : Config) (pc : Word) (regs : List (RegIdx × Word)) : State :=
  regs.foldl (fun s r => s.setX r.1 r.2) { State.resetWith c [] with pc := pc }

/-- These bytes in memory from `a` on. -/
def poke (s : State) (a : Nat) : List Byte → State
  | [] => s
  | b :: rest => poke { s with mem := s.mem.write a b } (a + 1) rest

/-- The bytes the load vectors read. -/
def bytes : List Byte := [0x80, 0x91, 0xA2, 0xB3, 0xC4, 0xD5, 0xE6, 0xF7]

/-- The bytes the store vectors overwrite. -/
def filler : List Byte := List.replicate 8 0xAA

/-- One step, of the instruction word `w`. -/
def run (w : Nat) (s : State) : Result := step (s.withFetchWord 32 w)

/-- What `f` sees in a next state. -/
def see {α : Type} (f : State → α) : Result → Option α
  | .next t => some (f t)
  | _ => none

/-- Why a step was refused. -/
def why : Result → Option Refusal
  | .refused r => some r
  | _ => none

/-! ### WellFormed: one ill-formed term for each check -/

theorem test_wf_refuses_odd_branch :
    [Instr.beq 1 2 3, .bne 1 2 3, .blt 1 2 3, .bge 1 2 3, .bltu 1 2 3, .bgeu 1 2 3].all (fun i => !i.wf) = true := by decide

theorem test_wf_refuses_odd_jal : (Instr.jal 1 0x1FFFFF).wf = false := by decide

theorem test_wf_accepts_jalr_odd : (Instr.jalr 1 2 1).wf = true := by decide

theorem test_wf_refuses_shared_csr_number :
    { defaultConfig with csrNum := { defaultCsrNums with mip := 0x300 } }.csrNumsDistinct = false := by decide

theorem test_wf_refuses_shared_mstatus_bit :
    { defaultConfig with layout := { defaultLayout with mpieBit := 3 } }.mstatusBitsDistinct = false := by decide

theorem test_wf_refuses_second_mepc :
    { defaultConfig with extraCsrs := [⟨0x341, .performed⟩] }.extraCsrsApart = false := by decide

theorem test_wf_default : defaultConfig.wf = true := by decide

/-! ### Decode: a word written out for every constructor (from the spec's vectors, else from rules R82 to R87) -/

theorem test_decode_upper :
    decode 0xFFFFF297#32 = .instr (.auipc 5 0xFFFFF) ∧ decode 0x123452B7#32 = .instr (.lui 5 0x12345) := by decide

theorem test_decode_branch :
    decode 0x80000063#32 = .instr (.beq 0 0 0x1000) ∧ decode 0xFE029EE3#32 = .instr (.bne 5 0 0x1FFC) ∧
      decode 0x0062C463#32 = .instr (.blt 5 6 8) ∧ decode 0x0062D463#32 = .instr (.bge 5 6 8) ∧
      decode 0x0062E463#32 = .instr (.bltu 5 6 8) ∧ decode 0x7E007FE3#32 = .instr (.bgeu 0 0 0xFFE) ∧
      decode 0x000000E3#32 = .instr (.beq 0 0 0x800) := by decide

theorem test_decode_jump :
    decode 0xFF9FF06F#32 = .instr (.jal 0 0x1FFFF8) ∧ decode 0x001002EF#32 = .instr (.jal 5 0x800) ∧
      decode 0x000012EF#32 = .instr (.jal 5 0x1000) ∧ decode 0xFFC280E7#32 = .instr (.jalr 1 5 0xFFC) := by decide

theorem test_decode_load :
    decode 0xFFF50303#32 = .instr (.lb 6 10 0xFFF) ∧ decode 0x7FF51303#32 = .instr (.lh 6 10 0x7FF) ∧
      decode 0x00452503#32 = .instr (.lw 10 10 4) ∧ decode 0x00053303#32 = .instr (.ld 6 10 0) ∧
      decode 0x00054303#32 = .instr (.lbu 6 10 0) ∧ decode 0x00055303#32 = .instr (.lhu 6 10 0) ∧
      decode 0x00056303#32 = .instr (.lwu 6 10 0) ∧ decode 0x00057303#32 = .instr (.ldu 6 10 0) := by decide

theorem test_decode_store :
    decode 0x005503A3#32 = .instr (.sb 10 5 7) ∧ decode 0x00551023#32 = .instr (.sh 10 5 0) ∧
      decode 0x00552123#32 = .instr (.sw 10 5 2) ∧ decode 0xFE553C23#32 = .instr (.sd 10 5 0xFF8) := by decide

theorem test_decode_misc :
    decode 0x0FF0000F#32 = .instr (.fence 0xF 0xF) ∧ decode 0x0330000F#32 = .instr (.fence 3 3) ∧
      decode 0x0000100F#32 = .instr .fenceI ∧ decode 0x1000000F#32 = .unlisted ∧ decode 0x0000200F#32 = .unlisted := by decide

theorem test_decode_op :
    decode 0x006283B3#32 = .instr (.add 7 5 6) ∧ decode 0x006293B3#32 = .instr (.sll 7 5 6) ∧
      decode 0x0062A3B3#32 = .instr (.slt 7 5 6) ∧ decode 0x0062B3B3#32 = .instr (.sltu 7 5 6) ∧
      decode 0x0062C3B3#32 = .instr (.xor 7 5 6) ∧ decode 0x0062D3B3#32 = .instr (.srl 7 5 6) ∧
      decode 0x0062E3B3#32 = .instr (.or 7 5 6) ∧ decode 0x0062F3B3#32 = .instr (.and 7 5 6) ∧
      decode 0x406283B3#32 = .instr (.sub 7 5 6) ∧ decode 0x4062D3B3#32 = .instr (.sra 7 5 6) ∧
      decode 0x4062C3B3#32 = .undefined ∧ decode 0x026283B3#32 = .unlisted := by decide

theorem test_decode_opW :
    decode 0x006283BB#32 = .instr (.addw 7 5 6) ∧ decode 0x006293BB#32 = .instr (.sllw 7 5 6) ∧
      decode 0x0062A3BB#32 = .instr (.sltW 7 5 6) ∧ decode 0x0062B3BB#32 = .instr (.sltuW 7 5 6) ∧
      decode 0x0062C3BB#32 = .instr (.xorW 7 5 6) ∧ decode 0x0062D3BB#32 = .instr (.srlw 7 5 6) ∧
      decode 0x0062E3BB#32 = .instr (.orW 7 5 6) ∧ decode 0x0062F3BB#32 = .instr (.andW 7 5 6) ∧
      decode 0x406283BB#32 = .instr (.subw 7 5 6) ∧ decode 0x4062D3BB#32 = .instr (.sraw 7 5 6) := by decide

theorem test_decode_opImm :
    decode 0x40028313#32 = .instr (.addi 6 5 0x400) ∧ decode 0xFFF2A313#32 = .instr (.slti 6 5 0xFFF) ∧
      decode 0xFFF2B313#32 = .instr (.sltiu 6 5 0xFFF) ∧ decode 0xFFF2C313#32 = .instr (.xori 6 5 0xFFF) ∧
      decode 0x7002E313#32 = .instr (.ori 6 5 0x700) ∧ decode 0xFF02F313#32 = .instr (.andi 6 5 0xFF0) ∧
      decode 0x03F29313#32 = .instr (.slli 6 5 63) ∧ decode 0x0202D313#32 = .instr (.srli 6 5 32) ∧
      decode 0x4042D313#32 = .instr (.srai 6 5 4) ∧ decode 0x40029313#32 = .undefined ∧
      decode 0x04029313#32 = .unlisted := by decide

theorem test_decode_opImmW :
    decode 0xFFF2831B#32 = .instr (.addiw 6 5 0xFFF) ∧ decode 0x0202931B#32 = .instr (.slliw 6 5 32) ∧
      decode 0x0042D31B#32 = .instr (.srliw 6 5 4) ∧ decode 0x4042D31B#32 = .instr (.sraiw 6 5 4) ∧
      decode 0xFFF2A31B#32 = .instr (.sltiW 6 5 0xFFF) ∧ decode 0xFFF2B31B#32 = .instr (.sltiuW 6 5 0xFFF) ∧
      decode 0x0FF2C31B#32 = .instr (.xoriW 6 5 0xFF) ∧ decode 0x7002E31B#32 = .instr (.oriW 6 5 0x700) ∧
      decode 0xFF02F31B#32 = .instr (.andiW 6 5 0xFF0) := by decide

theorem test_decode_system :
    decode 0x34029373#32 = .instr (.csrrw 6 5 0x340) ∧ decode 0xF1402373#32 = .instr (.csrrs 6 0 0xF14) ∧
      decode 0x3402B373#32 = .instr (.csrrc 6 5 0x340) ∧ decode 0x340FD373#32 = .instr (.csrrwi 6 31 0x340) ∧
      decode 0x30046073#32 = .instr (.csrrsi 0 8 0x300) ∧ decode 0x30047073#32 = .instr (.csrrci 0 8 0x300) ∧
      decode 0x00100073#32 = .instr .ebreak ∧ decode 0x00000073#32 = .instr .ecall ∧
      decode 0x30200073#32 = .instr .mret ∧ decode 0x10500073#32 = .instr .wfi ∧ decode 0x000000F3#32 = .unlisted := by decide

theorem test_decode_from_bytes :
    decodeBytes [0x93#8, 0x02#8, 0x00#8, 0x00#8, 0xAA#8] = some (.instr (.addi 5 0 0), [0xAA#8]) ∧
    decodeBytes [0x93#8, 0x02#8, 0x00#8] = none ∧ decodeTableWord 32 0x30200073 = some .mret := by decide

/-! ### One step on the spec's vectors -/

theorem test_V3_auipc : see (fun t => (t.x 5, t.pc))
    (run 0x80000297 (start vectorConfig 0x1000 [])) =
      some (0xFFFFFFFF80001000#64, 0x1004#64) := by decide

theorem test_V4_auipc : see (fun t => (t.x 5, t.pc))
    (run 0x00000297 (start vectorConfig 0x1234 [])) =
      some (0x1234#64, 0x1238#64) := by decide

theorem test_V8_lui : see (fun t => (t.x 5, t.pc))
    (run 0x800002B7 (start vectorConfig 0x100 [])) =
      some (0xFFFFFFFF80000000#64, 0x104#64) := by decide

theorem test_V11_lui : see (fun t => t.pc)
    (run 0x12345037 (start vectorConfig 0x100 [])) =
      some 0x104#64 := by decide

theorem test_V17_jal : see (fun t => (t.x 5, t.pc))
    (run 0x001002EF (start vectorConfig 0x100 [])) =
      some (0x104#64, 0x900#64) := by decide

theorem test_V16_jal : see (fun t => (t.x 1, t.pc))
    (run 0x800000EF (start vectorConfig 0x100000 [])) =
      some (0x100004#64, 0#64) := by decide

theorem test_V21_jalr : see (fun t => (t.x 1, t.pc))
    (run 0xFFC280E7 (start vectorConfig 0x200 [(5, 0x1000)])) =
      some (0x204#64, 0xFFC#64) := by decide

theorem test_V22_jalr : see (fun t => (t.x 1, t.pc))
    (run 0x000080E7 (start vectorConfig 0x200 [(1, 0x1000)])) =
      some (0x204#64, 0x1000#64) := by decide

theorem test_V26_beq : see (fun t => t.pc)
    (run 0x00628463 (start vectorConfig 0x100 [(5, 7), (6, 7)])) =
      some 0x108#64 := by decide

theorem test_V47_beq : see (fun t => t.pc)
    (run 0x80000063 (start vectorConfig 0x2000 [])) =
      some 0x1000#64 := by decide

theorem test_V30_bne : see (fun t => t.pc)
    (run 0x00629463 (start vectorConfig 0x100 [(5, 0xFFFFFFFFFFFFFFFF), (6, 1)])) =
      some 0x108#64 := by decide

theorem test_V46_bne : see (fun t => t.pc)
    (run 0xFE029EE3 (start vectorConfig 0x100 [(5, 1)])) =
      some 0xFC#64 := by decide

theorem test_V33_blt : see (fun t => t.pc)
    (run 0x0062C463 (start vectorConfig 0x100 [(5, 0xFFFFFFFFFFFFFFFF), (6, 1)])) =
      some 0x108#64 := by decide

theorem test_V44_blt : see (fun t => t.pc)
    (run 0x0062C463 (start vectorConfig 0x100 [(5, 0x8000000000000000), (6, 0x7FFFFFFFFFFFFFFF)])) =
      some 0x108#64 := by decide

theorem test_V36_bge : see (fun t => t.pc)
    (run 0x0062D463 (start vectorConfig 0x100 [(5, 0xFFFFFFFFFFFFFFFF), (6, 1)])) =
      some 0x104#64 := by decide

theorem test_V35_bge : see (fun t => t.pc)
    (run 0x0062D463 (start vectorConfig 0x100 [(5, 7), (6, 7)])) =
      some 0x108#64 := by decide

theorem test_V40_bltu : see (fun t => t.pc)
    (run 0x0062E463 (start vectorConfig 0x100 [(5, 1), (6, 0xFFFFFFFFFFFFFFFF)])) =
      some 0x108#64 := by decide

theorem test_V45_bltu : see (fun t => t.pc)
    (run 0x0062E463 (start vectorConfig 0x100 [(5, 0x8000000000000000), (6, 0x7FFFFFFFFFFFFFFF)])) =
      some 0x104#64 := by decide

theorem test_V42_bgeu : see (fun t => t.pc)
    (run 0x0062F463 (start vectorConfig 0x100 [(5, 0xFFFFFFFFFFFFFFFF), (6, 1)])) =
      some 0x108#64 := by decide

theorem test_V43_bgeu : see (fun t => t.pc)
    (run 0x0062F463 (start vectorConfig 0x100 [(5, 1), (6, 0xFFFFFFFFFFFFFFFF)])) =
      some 0x104#64 := by decide

theorem test_V52_lb : see (fun t => (t.x 6, t.pc))
    (run 0x00050303 (poke (start vectorConfig 0x100 [(10, 0x2000)]) 0x2000 bytes)) =
      some (0xFFFFFFFFFFFFFF80#64, 0x104#64) := by decide

theorem test_V63_lb : see (fun t => (t.x 6, t.pc))
    (run 0xFFF50303 (poke (start vectorConfig 0x100 [(10, 0x2008)]) 0x2000 bytes)) =
      some (0xFFFFFFFFFFFFFFF7#64, 0x104#64) := by decide

theorem test_V53_lbu : see (fun t => (t.x 6, t.pc))
    (run 0x00054303 (poke (start vectorConfig 0x100 [(10, 0x2000)]) 0x2000 bytes)) =
      some (0x80#64, 0x104#64) := by decide

theorem test_V54_lh : see (fun t => (t.x 6, t.pc))
    (run 0x00051303 (poke (start vectorConfig 0x100 [(10, 0x2000)]) 0x2000 bytes)) =
      some (0xFFFFFFFFFFFF9180#64, 0x104#64) := by decide

theorem test_V64_lh : see (fun t => (t.x 6, t.pc))
    (run 0x7FF51303 (poke (start vectorConfig 0x100 [(10, 0x1801)]) 0x2000 bytes)) =
      some (0xFFFFFFFFFFFF9180#64, 0x104#64) := by decide

theorem test_V55_lhu : see (fun t => (t.x 6, t.pc))
    (run 0x00055303 (poke (start vectorConfig 0x100 [(10, 0x2000)]) 0x2000 bytes)) =
      some (0x9180#64, 0x104#64) := by decide

theorem test_V67_lw : see (fun t => (t.mepc, t.mcauseCause, t.pc))
    (run 0x00152303 ({ poke (start { vectorConfig with misalign := .trap } 0x100 [(6, 0xAAAA), (10, 0x2000)])
        0x2000 bytes with mtvec := 0x400, mstatusMie := true })) =
      some (0x100#64, 4#63, 0x400#64) := by decide

theorem test_V69_lw : see (fun t => (t.x 6, t.pc))
    (run 0x00152303 ({ poke (start { vectorConfig with misalign := .split } 0x100 [(6, 0xAAAA), (10, 0x2000)])
        0x2000 bytes with mtvec := 0x400, mstatusMie := true })) =
      some (0xFFFFFFFFC4B3A291#64, 0x104#64) := by decide

theorem test_V57_lwu : see (fun t => (t.x 6, t.pc))
    (run 0x00056303 (poke (start vectorConfig 0x100 [(10, 0x2000)]) 0x2000 bytes)) =
      some (0xB3A29180#64, 0x104#64) := by decide

theorem test_V58_ld : see (fun t => (t.x 6, t.pc))
    (run 0x00053303 (poke (start vectorConfig 0x100 [(10, 0x2000)]) 0x2000 bytes)) =
      some (0xF7E6D5C4B3A29180#64, 0x104#64) := by decide

theorem test_V71_ld : see (fun t => (t.x 6, t.pc))
    (run 0x00453303 (poke (start { vectorConfig with misalign := .mask } 0x100 [(6, 0xAAAA), (10, 0x2000)])
        0x2000 [0x80, 0x91, 0xA2, 0xB3, 0xC4, 0xD5, 0xE6, 0xF7, 1, 2, 3, 4, 5, 6, 7, 8])) =
      some (0xF7E6D5C4B3A29180#64, 0x104#64) := by decide

theorem test_V59_ldu : see (fun t => (t.x 6, t.pc))
    (run 0x00057303 (poke (start vectorConfig 0x100 [(10, 0x2000)]) 0x2000 bytes)) =
      some (0xF7E6D5C4B3A29180#64, 0x104#64) := by decide

theorem test_V78_sb : see (fun t => (t.mem.read 0x2007, t.pc))
    (run 0x005503A3 (poke (start vectorConfig 0x100 [(5, 0x1FF), (10, 0x2000)]) 0x2000 filler)) =
      some (0xFF#8, 0x104#64) := by decide

theorem test_V74_sh : see (fun t => (t.mem.read 0x2000, t.mem.read 0x2001, t.pc))
    (run 0x00551023 (poke (start vectorConfig 0x100 [(5, 0x1122334455667788), (10, 0x2000)]) 0x2000 filler)) =
      some (0x88#8, 0x77#8, 0x104#64) := by decide

theorem test_V82_sw : see (fun t => (t.mem.read 0x2000, t.mem.read 0x2003, t.pc))
    (run 0x00552123 ({ poke (start { vectorConfig with misalign := .mask } 0x100 [(5, 0x1122334455667788),
        (10, 0x2000)]) 0x2000 filler with mtvec := 0x400, mstatusMie := true })) =
      some (0x88#8, 0x55#8, 0x104#64) := by decide

theorem test_V81_sw : see (fun t => (t.mepc, t.mcauseCause, t.pc))
    (run 0x00552123 ({ poke (start { vectorConfig with misalign := .trap } 0x100 [(5, 0x1122334455667788),
        (10, 0x2000)]) 0x2000 filler with mtvec := 0x400, mstatusMie := true })) =
      some (0x100#64, 6#63, 0x400#64) := by decide

theorem test_V77_sd : see (fun t => (t.mem.read 0x2000, t.mem.read 0x2007, t.pc))
    (run 0xFE553C23 (poke (start vectorConfig 0x100 [(5, 0x1122334455667788), (10, 0x2008)]) 0x2000 filler)) =
      some (0x88#8, 0x11#8, 0x104#64) := by decide

theorem test_V80_sd : see (fun t => (t.mem.read 0x2000, t.mem.read 0x2007, t.pc))
    (run 0x00A53023 (poke (start vectorConfig 0x100 [(10, 0x2000)]) 0x2000 filler)) =
      some (0#8, 0#8, 0x104#64) := by decide

theorem test_V86_fence : see (fun t => t.pc)
    (run 0x0FF0000F (start vectorConfig 0x100 [])) =
      some 0x104#64 := by decide

theorem test_V89_fencei : see (fun t => t.pc)
    (run 0x0000100F (start vectorConfig 0x100 [])) =
      some 0x104#64 := by decide

theorem test_V92_add : see (fun t => (t.x 7, t.pc))
    (run 0x006283B3 (start vectorConfig 0x100 [(5, 0xFFFFFFFFFFFFFFFF), (6, 1)])) =
      some (0#64, 0x104#64) := by decide

theorem test_V94_add : see (fun t => (t.x 5, t.pc))
    (run 0x005282B3 (start vectorConfig 0x100 [(5, 0x4000000000000001)])) =
      some (0x8000000000000002#64, 0x104#64) := by decide

theorem test_V97_sub : see (fun t => (t.x 7, t.pc))
    (run 0x406283B3 (start vectorConfig 0x100 [(5, 0x8000000000000000), (6, 1)])) =
      some (0x7FFFFFFFFFFFFFFF#64, 0x104#64) := by decide

theorem test_V99_sll : see (fun t => (t.x 7, t.pc))
    (run 0x006293B3 (start vectorConfig 0x100 [(5, 1), (6, 0x3F)])) =
      some (0x8000000000000000#64, 0x104#64) := by decide

theorem test_V100_sll : see (fun t => (t.x 7, t.pc))
    (run 0x006293B3 (start vectorConfig 0x100 [(5, 1), (6, 0x40)])) =
      some (1#64, 0x104#64) := by decide

theorem test_V102_srl : see (fun t => (t.x 7, t.pc))
    (run 0x0062D3B3 (start vectorConfig 0x100 [(5, 0x8000000000000000), (6, 0x3F)])) =
      some (1#64, 0x104#64) := by decide

theorem test_V104_srl : see (fun t => (t.x 7, t.pc))
    (run 0x0062D3B3 (start vectorConfig 0x100 [(5, 0xFFFFFFFFFFFFFFFF), (6, 0x44)])) =
      some (0xFFFFFFFFFFFFFFF#64, 0x104#64) := by decide

theorem test_V105_sra : see (fun t => (t.x 7, t.pc))
    (run 0x4062D3B3 (start vectorConfig 0x100 [(5, 0x8000000000000000), (6, 1)])) =
      some (0xC000000000000000#64, 0x104#64) := by decide

theorem test_V108_slt : see (fun t => (t.x 7, t.pc))
    (run 0x0062A3B3 (start vectorConfig 0x100 [(5, 0xFFFFFFFFFFFFFFFF), (6, 0)])) =
      some (1#64, 0x104#64) := by decide

theorem test_V112_sltu : see (fun t => (t.x 7, t.pc))
    (run 0x0062B3B3 (start vectorConfig 0x100 [(5, 0xFFFFFFFFFFFFFFFF), (6, 0)])) =
      some (0#64, 0x104#64) := by decide

theorem test_V115_xor : see (fun t => (t.x 7, t.pc))
    (run 0x0062C3B3 (start vectorConfig 0x100 [(5, 0xFF00FF00FF00FF00), (6, 0xF0F0F0F0F0F0F0F)])) =
      some (0xF00FF00FF00FF00F#64, 0x104#64) := by decide

theorem test_V116_or : see (fun t => (t.x 7, t.pc))
    (run 0x0062E3B3 (start vectorConfig 0x100 [(5, 0xFF00FF00FF00FF00), (6, 0xF0F0F0F0F0F0F0F)])) =
      some (0xFF0FFF0FFF0FFF0F#64, 0x104#64) := by decide

theorem test_V117_and : see (fun t => (t.x 7, t.pc))
    (run 0x0062F3B3 (start vectorConfig 0x100 [(5, 0xFF00FF00FF00FF00), (6, 0xF0F0F0F0F0F0F0F)])) =
      some (0xF000F000F000F00#64, 0x104#64) := by decide

theorem test_V125_addw : see (fun t => (t.x 7, t.pc))
    (run 0x006283BB (start vectorConfig 0x100 [(5, 0x7FFFFFFF), (6, 1)])) =
      some (0xFFFFFFFF80000000#64, 0x104#64) := by decide

theorem test_V128_subw : see (fun t => (t.x 7, t.pc))
    (run 0x406283BB (start vectorConfig 0x100 [(5, 0x8000000000000000), (6, 1)])) =
      some (0xFFFFFFFFFFFFFFFF#64, 0x104#64) := by decide

theorem test_V131_sllw : see (fun t => (t.x 7, t.pc))
    (run 0x006293BB (start vectorConfig 0x100 [(5, 1), (6, 0x20)])) =
      some (0#64, 0x104#64) := by decide

theorem test_V132_sllw : see (fun t => (t.x 7, t.pc))
    (run 0x006293BB (start { vectorConfig with wSemantics := .rv64iStandard } 0x100 [(5, 1), (6, 0x20)])) =
      some (1#64, 0x104#64) := by decide

theorem test_V133_srlw : see (fun t => (t.x 7, t.pc))
    (run 0x0062D3BB (start vectorConfig 0x100 [(5, 0x123456789ABCDEF0), (6, 4)])) =
      some (0xFFFFFFFF89ABCDEF#64, 0x104#64) := by decide

theorem test_V134_srlw : see (fun t => (t.x 7, t.pc))
    (run 0x0062D3BB (start { vectorConfig with wSemantics := .rv64iStandard } 0x100 [(5, 0x123456789ABCDEF0),
        (6, 4)])) =
      some (0x9ABCDEF#64, 0x104#64) := by decide

theorem test_V140_sraw : see (fun t => (t.x 7, t.pc))
    (run 0x4062D3BB (start vectorConfig 0x100 [(5, 0x80000000), (6, 4)])) =
      some (0x8000000#64, 0x104#64) := by decide

theorem test_V141_sraw : see (fun t => (t.x 7, t.pc))
    (run 0x4062D3BB (start { vectorConfig with wSemantics := .rv64iStandard } 0x100 [(5, 0x80000000), (6, 4)])) =
      some (0xFFFFFFFFF8000000#64, 0x104#64) := by decide

theorem test_V144_xorW : see (fun t => (t.x 7, t.pc))
    (run 0x0062C3BB (start { vectorConfig with wUnnamed := .sourceLiteral } 0x100 [(5, 0xFF00FF00FF00FF00),
        (6, 0xF0F0F0F0F0F0F0F)])) =
      some (0xFFFFFFFFF00FF00F#64, 0x104#64) := by decide

theorem test_V143_xorW_refused : why (run 0x0062C3BB (start vectorConfig 0x100 [(5, 0xFF00FF00FF00FF00),
        (6, 0xF0F0F0F0F0F0F0F)])) =
    some .unnamedWForm := by decide

theorem test_V145_sltW : see (fun t => (t.x 7, t.pc))
    (run 0x0062A3BB (start { vectorConfig with wUnnamed := .sourceLiteral } 0x100 [(5, 0xFFFFFFFFFFFFFFFF), (6, 0)])) =
      some (1#64, 0x104#64) := by decide

theorem test_V148_addi : see (fun t => (t.x 6, t.pc))
    (run 0x80028313 (start vectorConfig 0x100 [(5, 0)])) =
      some (0xFFFFFFFFFFFFF800#64, 0x104#64) := by decide

theorem test_V149_addi : see (fun t => (t.x 6, t.pc))
    (run 0x40028313 (start vectorConfig 0x100 [(5, 1)])) =
      some (0x401#64, 0x104#64) := by decide

theorem test_V155_slti : see (fun t => (t.x 6, t.pc))
    (run 0x4002A313 (start vectorConfig 0x100 [(5, 5)])) =
      some (1#64, 0x104#64) := by decide

theorem test_V156_sltiu : see (fun t => (t.x 6, t.pc))
    (run 0xFFF2B313 (start vectorConfig 0x100 [(5, 5)])) =
      some (1#64, 0x104#64) := by decide

theorem test_V159_xori : see (fun t => (t.x 6, t.pc))
    (run 0xFFF2C313 (start vectorConfig 0x100 [(5, 0xFF00FF00FF00FF00)])) =
      some (0xFF00FF00FF00FF#64, 0x104#64) := by decide

theorem test_V160_ori : see (fun t => (t.x 6, t.pc))
    (run 0x7002E313 (start vectorConfig 0x100 [(5, 0xF)])) =
      some (0x70F#64, 0x104#64) := by decide

theorem test_V161_andi : see (fun t => (t.x 6, t.pc))
    (run 0xFF02F313 (start vectorConfig 0x100 [(5, 0x123456789ABCDEFF)])) =
      some (0x123456789ABCDEF0#64, 0x104#64) := by decide

theorem test_V164_slli : see (fun t => (t.x 6, t.pc))
    (run 0x02029313 (start vectorConfig 0x100 [(5, 0x180000001)])) =
      some (0x8000000100000000#64, 0x104#64) := by decide

theorem test_V166_srli : see (fun t => (t.x 6, t.pc))
    (run 0x0202D313 (start vectorConfig 0x100 [(5, 0x123456789ABCDEF0)])) =
      some (0x12345678#64, 0x104#64) := by decide

theorem test_V169_srai : see (fun t => (t.x 6, t.pc))
    (run 0x4042D313 (start vectorConfig 0x100 [(5, 0xF000000000000000)])) =
      some (0xFF00000000000000#64, 0x104#64) := by decide

theorem test_V174_addiw : see (fun t => (t.x 6, t.pc))
    (run 0x0012831B (start vectorConfig 0x100 [(5, 0x7FFFFFFF)])) =
      some (0xFFFFFFFF80000000#64, 0x104#64) := by decide

theorem test_V178_slliw : see (fun t => (t.x 6, t.pc))
    (run 0x0042931B (start vectorConfig 0x100 [(5, 0xFFFFFFFF12345678)])) =
      some (0x23456780#64, 0x104#64) := by decide

theorem test_V179_slliw : see (fun t => (t.x 6, t.pc))
    (run 0x0202931B (start vectorConfig 0x100 [(5, 1)])) =
      some (0#64, 0x104#64) := by decide

theorem test_V180_srliw : see (fun t => (t.x 6, t.pc))
    (run 0x0042D31B (start vectorConfig 0x100 [(5, 0x123456789ABCDEF0)])) =
      some (0xFFFFFFFF89ABCDEF#64, 0x104#64) := by decide

theorem test_V181_srliw : see (fun t => (t.x 6, t.pc))
    (run 0x0042D31B (start { vectorConfig with wSemantics := .rv64iStandard } 0x100 [(5, 0x123456789ABCDEF0)])) =
      some (0x9ABCDEF#64, 0x104#64) := by decide

theorem test_V184_sraiw : see (fun t => (t.x 6, t.pc))
    (run 0x4042D31B (start vectorConfig 0x100 [(5, 0x80000000)])) =
      some (0x8000000#64, 0x104#64) := by decide

theorem test_V185_sraiw : see (fun t => (t.x 6, t.pc))
    (run 0x4042D31B (start { vectorConfig with wSemantics := .rv64iStandard } 0x100 [(5, 0x80000000)])) =
      some (0xFFFFFFFFF8000000#64, 0x104#64) := by decide

theorem test_V187_xoriW : see (fun t => (t.x 6, t.pc))
    (run 0x0FF2C31B (start { vectorConfig with wUnnamed := .sourceLiteral } 0x100 [(5, 0xFF00FF00FF00FF00)])) =
      some (0xFFFFFFFFFF00FFFF#64, 0x104#64) := by decide

theorem test_V186_xoriW_refused : why (run 0x0FF2C31B (start vectorConfig 0x100 [(5, 0xFF00FF00FF00FF00)])) =
    some .unnamedWForm := by decide

theorem test_V188_csrrw : see (fun t => (t.x 6, t.mscratch, t.pc))
    (run 0x34029373 ({ start vectorConfig 0x100 [(5, 0x2222), (6, 0xAAAA)] with mscratch := 0x1111 })) =
      some (0x1111#64, 0x2222#64, 0x104#64) := by decide

theorem test_V206_csrrw : see (fun t => (t.x 6, t.mcauseCause, t.mcauseIrq, t.pc))
    (run 0x34229373 ({ start vectorConfig 0x100 [(5, 0x8000000000000007), (6, 0xAAAA)]
        with mcauseCause := 2, mcauseIrq := false })) =
      some (2#64, 7#63, true, 0x104#64) := by decide

theorem test_V193_csrrs : see (fun t => (t.x 6, t.mscratch, t.pc))
    (run 0x3402A373 ({ start vectorConfig 0x100 [(5, 0xF0), (6, 0xAAAA)] with mscratch := 0xFF })) =
      some (0xFF#64, 0xFF#64, 0x104#64) := by decide

theorem test_V211_csrrs_unsupported : see (fun t => (t.mepc, t.mcauseCause, t.pc))
    (run 0xF1402373 ({ start vectorConfig 0x100 [(6, 0xAAAA)] with mtvec := 0x400, mstatusMie := true })) =
      some (0x100#64, 2#63, 0x400#64) := by decide

theorem test_V197_csrrc : see (fun t => (t.x 6, t.mscratch, t.pc))
    (run 0x3402B373 ({ start vectorConfig 0x100 [(5, 0xFFFFFFFFFFFFFFFF), (6, 0xAAAA)]
        with mscratch := 0x123456789ABCDEF0 })) =
      some (0x123456789ABCDEF0#64, 0#64, 0x104#64) := by decide

theorem test_V198_csrrwi : see (fun t => (t.x 6, t.mscratch, t.pc))
    (run 0x340FD373 ({ start vectorConfig 0x100 [(6, 0xAAAA)] with mscratch := 0x1234 })) =
      some (0x1234#64, 0x1F#64, 0x104#64) := by decide

theorem test_V202_csrrsi : see (fun t => (t.mstatusMie, t.pc))
    (run 0x30046073 ({ start vectorConfig 0x100 [] with mstatusMie := false, mstatusMpie := false })) =
      some (true, 0x104#64) := by decide

theorem test_V203_csrrci : see (fun t => (t.mstatusMie, t.pc))
    (run 0x30047073 ({ start vectorConfig 0x100 [] with mstatusMie := true, mstatusMpie := true })) =
      some (false, 0x104#64) := by decide

theorem test_V214_ecall : see (fun t => (t.mstatusMpie, t.mepc, t.mcauseCause, t.pc))
    (run 0x00000073 ({ start vectorConfig 0x100 []
        with mstatusMie := true, mstatusMpie := false, mtvec := 0x400, mcauseCause := 0x55, mcauseIrq := true })) =
      some (true, 0x100#64, 2#63, 0x400#64) := by decide

theorem test_V216_ebreak : see (fun t => (t.mepc, t.mcauseCause, t.pc))
    (run 0x00100073 ({ start vectorConfig 0x100 [] with mstatusMie := true, mstatusMpie := false, mtvec := 0x400 })) =
      some (0x100#64, 3#63, 0x400#64) := by decide

theorem test_V219_mret : see (fun t => (t.mstatusMie, t.mstatusMpie, t.pc))
    (run 0x30200073 ({ start vectorConfig 0x400 [] with mstatusMie := true, mstatusMpie := false, mepc := 0x104 })) =
      some (false, true, 0x104#64) := by decide

theorem test_V222_wfi : see (fun t => t.pc)
    (run 0x10500073 ({ start vectorConfig 0x100 [] with mstatusMie := true, mie := 0x80, mip := 0 })) =
      some 0x104#64 := by decide

theorem test_V227_timer : see (fun t => (t.mepc, t.mcauseCause, t.mcauseIrq, t.pc))
    (run 0x00100313 ({ start vectorConfig 0x100 [(6, 0xAAAA)]
        with mstatusMie := true, mie := 0x80, mip := 0x80, mtvec := 0x400 })) =
      some (0x100#64, 7#63, true, 0x400#64) := by decide

theorem test_V230_priority : see (fun t => (t.mepc, t.mcauseCause, t.mcauseIrq, t.pc))
    (run 0x00100313 ({ start vectorConfig 0x100 [(6, 0xAAAA)]
        with mstatusMie := true, mie := 0x888, mip := 0x888, mtvec := 0x400 })) =
      some (0x100#64, 0xB#63, true, 0x400#64) := by decide

theorem test_V231_priority : see (fun t => (t.mepc, t.mcauseCause, t.mcauseIrq, t.pc))
    (run 0x00100313 ({ start vectorConfig 0x100 [(6, 0xAAAA)]
        with mstatusMie := true, mie := 0x888, mip := 0x88, mtvec := 0x400 })) =
      some (0x100#64, 3#63, true, 0x400#64) := by decide

theorem test_V232_no_source : see (fun t => (t.x 6, t.pc))
    (run 0x00100313 ({ start vectorConfig 0x100 [(6, 0xAAAA)]
        with mstatusMie := true, mie := 0xFFFFFFFFFFFFFFFF, mip := 0x10, mtvec := 0x400 })) =
      some (1#64, 0x104#64) := by decide

theorem test_V235_before_fetch : see (fun t => (t.mepc, t.mcauseCause, t.mcauseIrq, t.pc))
    (run 0x00100313 ({ start vectorConfig 0x102 [(6, 0xAAAA)]
        with mstatusMie := true, mie := 0x800, mip := 0x800, mtvec := 0x400 })) =
      some (0x102#64, 0xB#63, true, 0x400#64) := by decide

theorem test_V50_undefined : why (run 0x00002063 (start vectorConfig 0x100 [])) =
    some .undefinedEncoding := by decide

theorem test_V90_unlisted : why (run 0x0000200F (start vectorConfig 0x100 [])) =
    some .unlistedEncoding := by decide

theorem test_V236_unlisted : why (run 0x00000000 (start vectorConfig 0x100 [])) =
    some .unlistedEncoding := by decide

/-! ### The unnamed `w` forms no vector covers, by the formula of rules R173 and R197 -/

/-- The vectors' configuration with `W_UNNAMED = source_literal`. -/
def unnamedConfig : Config := { vectorConfig with wUnnamed := .sourceLiteral }

theorem test_sltuW : see (fun t => t.x 7)
    (run 0x0062B3BB (start unnamedConfig 0x100 [(5, 1), (6, 0xFFFFFFFFFFFFFFFF)])) =
    some 1#64 := by decide

theorem test_orW : see (fun t => t.x 7) (run 0x0062E3BB (start unnamedConfig 0x100 [(5, 0x80000000), (6, 0x0F)])) =
    some 0xFFFFFFFF8000000F#64 := by decide

theorem test_andW : see (fun t => t.x 7)
    (run 0x0062F3BB (start unnamedConfig 0x100 [(5, 0xFFFFFFFFFFFFFFFF), (6, 0x100000001)])) = some 1#64 := by decide

theorem test_sltiW : see (fun t => t.x 6) (run 0xFFF2A31B (start unnamedConfig 0x100 [(5, 0xFFFFFFFFFFFFFFFE)])) =
    some 1#64 := by decide

theorem test_sltiuW : see (fun t => t.x 6) (run 0xFFF2B31B (start unnamedConfig 0x100 [(5, 5)])) = some 1#64 := by decide

theorem test_oriW : see (fun t => t.x 6) (run 0x7002E31B (start unnamedConfig 0x100 [(5, 0xF0000000F)])) =
    some 0x70F#64 := by decide

theorem test_andiW : see (fun t => t.x 6) (run 0xFF02F31B (start unnamedConfig 0x100 [(5, 0x123456789ABCDEFF)])) =
    some 0xFFFFFFFF9ABCDEF0#64 := by decide

/-! ### Reset -/

theorem test_reset : State.reset.pc = 0#64 ∧ State.reset.Inv = true ∧ State.reset.mem = [] := by decide

/-- Where reset leaves interrupts enabled and the environment raises a source, one is taken before the first instruction, to
`RESET_MTVEC` (rule R281). -/
theorem test_interrupt_at_reset : see (fun t => (t.pc, t.mepc, t.mcauseCause, t.mcauseIrq))
    (step (State.resetWith { defaultConfig with
      resetMstatusMie := true, resetMie := 0x80, resetMtvec := 0x400, resetPc := 0x100 } [0x80])) =
    some (0x400#64, 0x100#64, 7#63, true) := by decide

/-- With nothing loaded the first step finds a word of zeros, which the source does not list (rule R92). -/
theorem test_step_from_reset : why (step State.reset) = some .unlistedEncoding := by decide

/-! ### Witnesses: for each statement with hypotheses, a state and operands that meet them -/

/-- The vectors' configuration with a device at `0x3000` that admits no fetch, a hole at `0x5000`, each one page, and at
`0x7000` one that reads by single bytes and is written by aligned words only. -/
def mapConfig : Config := { vectorConfig with
  devices := [⟨0x3000, 0x1000⟩, ⟨0x7000, 0x1000⟩]
  memAdmits := [⟨⟨0, 0x5000⟩, [.read, .write], [1, 2, 4, 8], false⟩, ⟨⟨0, 0x3000⟩, [.fetch], [4], true⟩,
    ⟨⟨0x4000, 0x1000⟩, [.fetch], [4], true⟩, ⟨⟨0x7000, 0x1000⟩, [.read], [1], false⟩, ⟨⟨0x7000, 0x1000⟩, [.write], [4], true⟩] }

/-- `MEM_ADMIT` tells kinds, widths and alignments apart at one address (rule R64). -/
theorem test_memAdmit : memAdmit mapConfig 0x7004 1 .read = true ∧ memAdmit mapConfig 0x7004 4 .read = false ∧
    memAdmit mapConfig 0x7004 4 .write = true ∧ memAdmit mapConfig 0x7004 1 .write = false ∧
    memAdmit mapConfig 0x7005 4 .write = false := by decide

/-- Three CSRs of the C port, one for each way a write may go. -/
def portConfig : Config := { vectorConfig with
  extraCsrs := [⟨0xC00, .trap⟩, ⟨0x7C0, .performed⟩, ⟨0xFFF, .dropped⟩] }

/-- A boundary with the word `w` at `pc` = 0x100. -/
def fetching (c : Config) (w : InstrWord) : State := (start c 0x100 []).withFetchWord 32 w.toNat

/-- A boundary with interrupts enabled and these sources pending and enabled. -/
def pending (c : Config) (m : Word) : State := { start c 0x100 [] with mstatusMie := true, mie := m, mip := m }

/-- A state with a byte in memory that meets the invariant and takes a step (rules R43, R52). -/
theorem witness_StepKeepsInvariant : (fetching vectorConfig 0x00550023#32).Inv = true ∧
    see State.Inv (step (fetching vectorConfig 0x00550023#32)) = some true := by decide

theorem witness_ResetMeetsInvariant :
    [defaultConfig, mapConfig, portConfig].all (fun c => c.wf && (State.resetWith c [8, 0]).Inv) = true := by decide

theorem witness_StepKeepsConfiguration :
    see State.cfg (step (fetching vectorConfig 0x00000013#32)) = some vectorConfig := by decide

theorem witness_BoundarySamplesMip : (start vectorConfig 0x100 []).mipInputs = [] ∧
    ({ start vectorConfig 0x100 [] with mipInputs := [8, 0] }.sampleMip.mip = 8#64) := by decide

theorem witness_fetches (w : InstrWord) (hw : w = 0x0062C463#32 ∨ w = 0x00002063#32 ∨ w = 0x00000000#32) :
    Fetches (fetching vectorConfig w).sampleMip w := by
  rcases hw with rfl | rfl | rfl <;>
    exact ⟨.inl (by decide), by decide, ⟨by decide, by decide⟩, by unfold HoldsWord; decide⟩

theorem witness_StepRunsDecodedInstruction :
    Fetches (fetching vectorConfig 0x0062C463#32).sampleMip 0x0062C463#32 ∧
      decode 0x0062C463#32 = .instr (.blt 5 6 8) := ⟨witness_fetches _ (by decide), by decide⟩

/-- No interrupt though interrupts are enabled and a source outside `IRQ_SOURCES` pends (V232). -/
theorem witness_NoInterrupt : NoInterrupt (pending vectorConfig 0x10) := by
  refine .inr ?_
  unfold Interrupting
  decide

theorem witness_InterruptTakenFirst : (pending vectorConfig 0x80).sampleMip.mstatusMie = true ∧
    ∃ j, j < 64 ∧ Interrupting (pending vectorConfig 0x80).sampleMip j :=
  ⟨by decide, 7, by decide, by decide, by decide, by decide⟩

/-- 3 and 7 pend: 3, after 11 in the list, is the first (V231). -/
theorem witness_InterruptPriority_listed : let s := pending vectorConfig 0x88
    s.sampleMip.mstatusMie = true ∧ (step s matches .next _) ∧ s.cfg.irqPriority = [11] ++ 3 :: [7] ∧
      Interrupting s.sampleMip 3 ∧ ∀ k ∈ [(11 : Fin 64)], ¬Interrupting s.sampleMip k.val := by
  unfold Interrupting
  decide

/-- Sources 0 and 63, neither in the priority list. -/
def edgeConfig : Config := { vectorConfig with irqSources := 0x8000000000000001 }

/-- 0 and 63 pend: 63 is the highest. -/
theorem witness_InterruptPriority_unlisted : let s := pending edgeConfig 0x8000000000000001
    s.sampleMip.mstatusMie = true ∧ (step s matches .next _) ∧ Interrupting s.sampleMip 63 ∧
      (∀ k ∈ s.cfg.irqPriority, ¬Interrupting s.sampleMip k.val) ∧
      ∀ j, 63 < j → j < 64 → ¬Interrupting s.sampleMip j := by
  refine ⟨by decide, by decide, by unfold Interrupting; decide, by unfold Interrupting; decide, ?_⟩
  intro j h h'
  omega

theorem witness_EncodingWithoutMeaning (p : EncPolicy) : let c := { vectorConfig with encPolicy := p }
    (Fetches (fetching c 0x00002063#32).sampleMip 0x00002063#32 ∧ decode 0x00002063#32 = .undefined) ∧
      Fetches (fetching c 0x00000000#32).sampleMip 0x00000000#32 ∧ decode 0x00000000#32 = .unlisted := by
  cases p <;> refine ⟨⟨⟨.inl (by decide), by decide, ⟨by decide, by decide⟩, ?_⟩, by decide⟩,
    ⟨.inl (by decide), by decide, ⟨by decide, by decide⟩, ?_⟩, by decide⟩ <;> unfold HoldsWord <;> decide

/-- A word fetched from a device, where every access is admitted. -/
theorem witness_StepRunsWordFetchedFromDevice : let s := start { mapConfig with memAdmits := defaultMemAdmits } 0x3FFC []
    NoInterrupt s.sampleMip ∧ s.pc.toNat % 4 = 0 ∧ memAdmit s.cfg s.pc 4 .fetch = true ∧
      touchesDevice s.cfg 4 s.pc = true := ⟨.inl (by decide), by decide, by decide, by decide⟩

theorem witness_MisalignedFetchRefused : NoInterrupt (start vectorConfig 0x103 []).sampleMip ∧
    (start vectorConfig 0x103 []).pc.toNat % 4 ≠ 0 := ⟨.inl (by decide), by decide⟩

/-- The fetch, at the first word of the hole; the device page admits no fetch either. -/
theorem witness_UnadmittedAccessIsStuck_fetch : NoInterrupt (start mapConfig 0x5000 []).sampleMip ∧
    (start mapConfig 0x5000 []).pc.toNat % 4 = 0 ∧ memAdmit mapConfig 0x5000 4 .fetch = false ∧
    memAdmit mapConfig 0x3FFC 4 .fetch = false := ⟨.inl (by decide), by decide, by decide, by decide⟩

/-- The eight loads with `rd` 31 and the four stores, aligned at the end of the hole. -/
theorem witness_UnadmittedAccessIsStuck_access : let s := start mapConfig 0x100 [(10, 0x6000)]
    (∀ l ∈ loadForms 31 10 0xFF8, (31#5 : RegIdx) ≠ 0#5 ∧ PerformedAt s (baseDisp s 10 0xFF8) l.2.1 0x5FF8 ∧
      memAdmit s.cfg 0x5FF8 l.2.1 .read = false) ∧
      ∀ l ∈ storeForms 10 31 0xFF8, PerformedAt s (baseDisp s 10 0xFF8) l.2 0x5FF8 ∧
        memAdmit s.cfg 0x5FF8 l.2 .write = false := by
  unfold PerformedAt
  decide

/-- Where a misaligned access is performed: rounded down under `mask`, as it is under `split`. -/
theorem witness_PerformedAt :
    PerformedAt { State.reset with cfg := { defaultConfig with misalign := .mask } } 0x5FFF 8 0x5FF8 ∧
      PerformedAt { State.reset with cfg := { defaultConfig with misalign := .split } } 0x5FFF 8 0x5FFF := by
  unfold PerformedAt
  decide

/-- A canonical memory, written at its last address, and one equal to it. -/
theorem witness_MemoryIsAMap : Memory.wf [(0x10, 1#8)] = true ∧ 2 ^ 64 - 1 < 2 ^ 64 ∧
    (Memory.write [(0x10, 1#8)] (2 ^ 64 - 1) 5#8).wf = true := by decide

theorem witness_DecodeOfEncode : (Instr.jal 31 0x100000).wf = true ∧ (Instr.beq 31 1 0x0FFE).wf = true ∧
    (Instr.csrrci 31 31 0xFFF).wf = true := by decide

theorem witness_EncodeOfDecode : decode 0xFFF7F7F3#32 = .instr (.csrrci 15 15 0xFFF) := by decide

theorem witness_UndefinedEncodings : decode 0x40029313#32 = .undefined ∧ decode 0x00557023#32 = .undefined := by decide

theorem witness_UnlistedEncodings : decode 0x00029067#32 = .unlisted ∧ decode 0x34004073#32 = .unlisted ∧
    decode 0xFFFFFFFF#32 = .unlisted := by decide

/-- For OnlyControlFlowAndTrapsSetPc, OnlyStoresChangeMemory, OnlyCsrInstructionsChangeMtvecMieMscratch and
WhatChangesMstatusMepcMcause: one instruction for each case they name completes. -/
theorem witness_exec_completes : ∀ i ∈ [Instr.blt 0 5 8, .jal 1 8, .jalr 1 1 0, .mret, .ecall, .sd 10 5 0,
    .add 1 2 3, .csrrw 6 5 0x300, .csrrs 0 5 0x305, .csrrci 6 8 0x304, .csrrwi 6 31 0x340, .csrrw 6 5 0x341, .csrrw 6 5 0x342,
    .csrrs 6 0 0xF14], exec i (start vectorConfig 0x104 [(5, 0x88), (10, 0x2000)]) matches .next _ := by decide

/-- The `rs1` field 0 on a supported CSR and on one that is not. -/
theorem witness_ZeroFieldNeverWritesACsr : let s := start vectorConfig 0x104 []
    ∀ n ∈ [(0x300 : CsrIdx), 0xF14], ∀ p ∈ csrForms s 31 0 n, exec p.1 s matches .next _ := by
  unfold csrForms
  decide

theorem witness_Branches : (0x1000 : BitVec 13).getLsbD 0 = false ∧ (0x0FFE : BitVec 13).getLsbD 0 = false := by decide

theorem witness_JalLinksAndJumps : (0x100000 : BitVec 21).getLsbD 0 = false ∧ (0x0FFFFE : BitVec 21).getLsbD 0 = false := by decide

/-- The last eight bytes of the address space, reached with `X0` and a displacement of -8. -/
theorem witness_AlignedLoads : let s := start vectorConfig 0x104 []
    ∀ l ∈ loadForms 31 0 0xFF8, (31#5 : RegIdx) ≠ 0#5 ∧ (baseDisp s 0 0xFF8).toNat % l.2.1 = 0 ∧
      OrdinaryAccess s (baseDisp s 0 0xFF8) l.2.1 .read := by
  unfold OrdinaryAccess
  decide

theorem witness_AlignedStores : let s := poke (start vectorConfig 0x104 [(5, 0x88)]) 0x2000 filler
    ∀ l ∈ storeForms 0 5 0xFF8, s.mem.wf = true ∧ (baseDisp s 0 0xFF8).toNat % l.2 = 0 ∧
      OrdinaryAccess s (baseDisp s 0 0xFF8) l.2 .write := by
  unfold OrdinaryAccess
  decide

/-- Under `trap`: the seven-byte offset is misaligned for every size but a byte. -/
theorem witness_MisalignedTraps : let s := start vectorConfig 0x104 [(10, 0x2000)]
    s.cfg.misalign = .trap ∧
      (∃ l ∈ loadForms 31 10 7, (31#5 : RegIdx) ≠ 0#5 ∧ (baseDisp s 10 7).toNat % l.2.1 ≠ 0) ∧
      ∃ l ∈ storeForms 10 5 7, (baseDisp s 10 7).toNat % l.2 ≠ 0 := by
  unfold loadForms storeForms
  decide

theorem witness_MisalignedMasks : let s := start { vectorConfig with misalign := .mask } 0x104 [(10, 0x2007)]
    s.cfg.misalign = .mask ∧ s.mem.wf = true ∧
      (baseDisp s 10 0).toNat % 8 ≠ 0 ∧ (0x2000#64).toNat = (baseDisp s 10 0).toNat - (baseDisp s 10 0).toNat % 8 ∧
      OrdinaryAccess s 0x2000 8 .read ∧ OrdinaryAccess s 0x2000 8 .write ∧
      (.ldu 31 10 0, 8, false) ∈ loadForms 31 10 0 ∧ (.sd 10 5 0, 8) ∈ storeForms 10 5 0 := by
  unfold OrdinaryAccess
  decide

/-- Under `split`, an access that runs over the end of the address space. -/
theorem witness_MisalignedSplits : let s := start { vectorConfig with misalign := .split } 0x104 []
    s.cfg.misalign = .split ∧ s.mem.wf = true ∧ (baseDisp s 0 0xFFF).toNat % 8 ≠ 0 ∧
      OrdinaryAccess s (baseDisp s 0 0xFFF) 8 .read ∧ OrdinaryAccess s (baseDisp s 0 0xFFF) 8 .write ∧
      (.ldu 31 0 0xFFF, 8, false) ∈ loadForms 31 0 0xFFF ∧ (.sd 0 5 0xFFF, 8) ∈ storeForms 0 5 0xFFF := by
  unfold OrdinaryAccess
  decide

/-- Both settings; under the cautious one an aligned ordinary address and a misaligned one (V66). -/
theorem witness_LoadIntoX0 : let s := start { vectorConfig with x0Load := .refuseWhereItMatters } 0x104 [(10, 0x2000)]
    vectorConfig.x0Load = .noAccess ∧ s.cfg.x0Load = .refuseWhereItMatters ∧
      see State.pc (exec (.lw 0 10 4) s) = some 0x104#64 ∧ why (exec (.lw 0 10 1) s) = some .ambiguousX0Load ∧
      see State.pc (exec (.lw 0 10 1) (start vectorConfig 0x104 [(10, 0x2000)])) = some 0x104#64 := by decide

/-- The eight loads from the device's last eight bytes. -/
theorem witness_DeviceLoads : let s := start mapConfig 0x104 [(10, 0x4000)]
    ∀ l ∈ loadForms 31 10 0xFF8, (31#5 : RegIdx) ≠ 0#5 ∧ PerformedAt s (baseDisp s 10 0xFF8) l.2.1 0x3FF8 ∧
      memAdmit s.cfg 0x3FF8 l.2.1 .read = true ∧ touchesDevice s.cfg l.2.1 0x3FF8 = true := by
  unfold PerformedAt
  decide

/-- A split load whose first bytes are memory and whose last are the device's: byte reads of the device. -/
theorem witness_DeviceLoads_split : let s := start { mapConfig with misalign := .split } 0x104 [(10, 0x2FFD)]
    PerformedAt s (baseDisp s 10 0) 4 0x2FFD ∧ (0x2FFD#64).toNat % 4 ≠ 0 ∧ memAdmit s.cfg 0x2FFD 4 .read = true ∧
      touchesDevice s.cfg 4 0x2FFD = true ∧ isDevice s.cfg (plus 0x2FFD 2) = false ∧
      deviceByteReads s 0x2FFD 4 = [.memRead 0x3000 1] := by
  unfold PerformedAt
  decide

theorem witness_DeviceStores : let s := start mapConfig 0x104 [(10, 0x4000)]
    ∀ l ∈ storeForms 10 5 0xFF8, s.mem.wf = true ∧ PerformedAt s (baseDisp s 10 0xFF8) l.2 0x3FF8 ∧
      memAdmit s.cfg 0x3FF8 l.2 .write = true ∧ touchesDevice s.cfg l.2 0x3FF8 = true := by
  unfold PerformedAt
  decide

/-- A split store to the device: a byte write of each byte, in an order nothing fixes. -/
theorem witness_DeviceStores_split : let s := start { mapConfig with misalign := .split } 0x104 [(5, 0x1122), (10, 0x3001)]
    s.mem.wf = true ∧ PerformedAt s (baseDisp s 10 0) 2 0x3001 ∧ (0x3001#64).toNat % 2 ≠ 0 ∧
      memAdmit s.cfg 0x3001 2 .write = true ∧ touchesDevice s.cfg 2 0x3001 = true ∧
      deviceByteWrites s 0x3001 2 (s.x 5) = [.memWrite 0x3001 1 0x22, .memWrite 0x3002 1 0x11] := by
  unfold PerformedAt
  decide

/-- The orders of three things are the six that rule R62 leaves open. -/
theorem test_pickOrder : (List.range 6).map (pickOrder · [1, 2, 3]) =
    [[1, 2, 3], [2, 1, 3], [2, 3, 1], [1, 3, 2], [3, 1, 2], [3, 2, 1]] := by decide

theorem witness_ByteLoadAfterDoubleStore : let s := start vectorConfig 0x104 [(5, 0x1122334455667788), (10, 0x2000)]
    s.mem.wf = true ∧ 7 < 8 ∧ (31#5 : RegIdx) ≠ 0#5 ∧ (baseDisp s 10 0).toNat % 8 = 0 ∧
      OrdinaryAccess s (baseDisp s 10 0) 8 .write ∧ baseDisp s 10 7 = plus (baseDisp s 10 0) 7 ∧
      OrdinaryAccess s (baseDisp s 10 7) 1 .read := by
  unfold OrdinaryAccess
  decide

/-- SW of the word of `addi x5, x0, 0` at 0x2000, and the state that fetches it. -/
theorem witness_StoreIsSeenByFetch : let s := start vectorConfig 0x104 [(5, 0x00000293), (10, 0x2000)]
    s.mem.wf = true ∧ (baseDisp s 10 0).toNat % 4 = 0 ∧ OrdinaryAccess s (baseDisp s 10 0) 4 .write ∧
      OrdinaryAccess s (baseDisp s 10 0) 4 .fetch ∧ decode ((s.x 5).setWidth 32) = .instr (.addi 5 0 0) ∧
      see (fun t => see (fun u => (u.x 5, u.pc)) (step { t with pc := 0x2000 })) (exec (.sw 10 5 0) s) =
        some (some (0#64, 0x2004#64)) := by
  unfold OrdinaryAccess
  decide

theorem witness_WordShiftsSourceLiteral : vectorConfig.wSemantics = .sourceLiteral := by decide

/-- Counts at both ends of the two ranges. -/
theorem witness_WordShiftsStandard : { vectorConfig with wSemantics := .rv64iStandard }.wSemantics = .rv64iStandard ∧
    (31#6).toNat < 32 ∧ 32 ≤ (32#6).toNat ∧
    why (exec (.srliw 6 5 32) (start { vectorConfig with wSemantics := .rv64iStandard } 0x104 [])) =
      some .reservedWideShift := by decide

theorem witness_WordShiftReadingsAgree : let s := start vectorConfig 0x104 [(6, 31), (8, 63)]
    (31#5 : RegIdx) ≠ 0#5 ∧ (s.x 6).toNat % 64 < 32 ∧ 32 ≤ (s.x 8).toNat % 64 := by decide

theorem witness_UnnamedWordForms : vectorConfig.wUnnamed = .refuse ∧ unnamedConfig.wUnnamed = .sourceLiteral ∧
    (0xFFFFFFFFFFFFF800#64 = BitVec.ofInt 64 (0x800#12).toInt) := by decide

theorem witness_ImmediateArithmetic : 0xFFFFFFFFFFFFFFFF#64 = BitVec.ofInt 64 (0xFFF#12).toInt := by decide

theorem witness_ImmediateShifts : 63 = (0x3F#6).toNat := by decide

theorem witness_RegisterShifts : 63 = ((start vectorConfig 0x104 [(6, 0x7F)]).x 6).toNat % 64 := by decide

/-- For CsrPlainRegisters, CsrMtvecAndMip (both values of `MTVEC_WRITABLE`), CsrMcause and CsrMstatus (its other bits fixed
and free). -/
theorem witness_Csrs : vectorConfig.wf = true ∧ { vectorConfig with mtvecWritable := false }.wf = true ∧
    { vectorConfig with mstatusOther := none }.wf = true := by decide

theorem witness_UnsupportedCsrTraps : (0xF14 : CsrIdx) ∉ portConfig.csrNum.all ∧
    ∀ e ∈ portConfig.extraCsrs, e.num ≠ 0xF14 := by decide

/-- Each of the three, where the list shows it. -/
theorem witness_CPortCsrs : portConfig.wf = true ∧
    portConfig.extraCsrs = [] ++ ⟨0xC00, .trap⟩ :: [⟨0x7C0, .performed⟩, ⟨0xFFF, .dropped⟩] ∧
    portConfig.extraCsrs = [⟨0xC00, .trap⟩, ⟨0x7C0, .performed⟩] ++ ⟨0xFFF, .dropped⟩ :: [] ∧
    (∀ b ∈ [ExtraCsr.mk 0xC00 .trap, ⟨0x7C0, .performed⟩], b.num ≠ 0xFFF) ∧
    see State.mcauseCause (exec (.csrrw 6 31 0xC00) (start portConfig 0x104 [])) = some 2#63 ∧
    see State.deviceLog (exec (.csrrw 6 0 0xC00) (start portConfig 0x104 [])) = some [.csrReadAction 0xC00] ∧
    see State.deviceLog (exec (.csrrw 0 5 0x7C0) (start portConfig 0x104 [(5, 9)])) = some [.csrWrite 0x7C0 9] ∧
    see State.deviceLog (exec (.csrrs 0 5 0xFFF) (start portConfig 0x104 [(5, 9)])) = some [] := by decide

/-- A trap taken: the state after ECALL. -/
theorem witness_TrapThenReturn : let s := { start vectorConfig 0x104 [] with mstatusMie := true, mtvec := 0x400 }
    TrapTaken s (s.trapEnter 2 false 0x100) 2 false 0x100 :=
  ⟨rfl, rfl, rfl, rfl, rfl, rfl, rfl, fun _ => rfl, ⟨rfl, rfl, rfl, rfl⟩, ⟨rfl, rfl, rfl, rfl⟩, fun _ => rfl⟩

end Sys2Proof.Tests
end

namespace Sys2Proof.Machine

/-! ### Reset, the register file, the boundary -/

/-- Settles O1: the fields are `State.resetWith`'s own, and every register and byte reads 0. -/
theorem resetValues : Obligations.ResetValues := by
  unfold Obligations.ResetValues
  rintro c env s rfl
  have hx : ∀ i, (State.resetWith c env).x i = 0#64 := fun i => by simp [State.x, State.resetWith]
  exact ⟨rfl, rfl, rfl, rfl, rfl, rfl, rfl, hx, rfl, rfl, rfl, rfl, rfl, fun _ => rfl, rfl⟩

/-- Empty memory is canonical and lists no device register, so only the configuration is left to check. -/
theorem resetWith_inv (c : Config) (env : List Word) : (State.resetWith c env).Inv = c.wf := by
  simp [State.Inv, State.resetWith, Memory.wf, Memory.wfFrom, memOutsideDevices]

/-- Settles O2: the invariant of a reset state is its configuration's well-formedness. -/
theorem resetMeetsInvariant : Obligations.ResetMeetsInvariant := by
  unfold Obligations.ResetMeetsInvariant
  refine ⟨fun c env hc => (resetWith_inv c env).trans hc, (resetWith_inv defaultConfig []).trans ?_⟩
  decide

/-- Settles O5, by the two forms of the environment's list. -/
theorem boundarySamplesMip : Obligations.BoundarySamplesMip := by
  unfold Obligations.BoundarySamplesMip
  intro s
  constructor
  · intro hnone
    simp [State.sampleMip, hnone]
  · intro v rest hcons
    simp [State.sampleMip, hcons]

/-- Settles O13, by the rules of `setX`. -/
theorem registerFile : Obligations.RegisterFile := by
  unfold Obligations.RegisterFile
  intro s r v
  exact ⟨x_zero s, setX_zero s v, setX_writesOnly s r v⟩

/-! ### The cycle where no interrupt is taken -/

theorem step_eq_runInstr {s : State} (h : NoInterrupt s.sampleMip) : step s = runInstr s.sampleMip := by
  simp [step, cycle, interruptTaken_false _ h]

theorem pcAligned_of_mod {s : State} (h : s.pc.toNat % 4 = 0) : pcAligned s = true := by
  simp [pcAligned, aligned, h]

section
variable {s : State} (hal : pcAligned s = true) (had : fetchAdmitted s = true)
include hal had

theorem runInstr_of_instr {i : Instr} (hd : decode (fetchWord s) = .instr i) : runInstr s = exec i s.beginInstr := by
  simp [runInstr, hal, had, hd]

theorem runInstr_of_undefined (hd : decode (fetchWord s) = .undefined) :
    runInstr s = rejectEncoding .undefinedEncoding s.beginInstr := by
  simp [runInstr, hal, had, hd]

theorem runInstr_of_unlisted (hd : decode (fetchWord s) = .unlisted) :
    runInstr s = rejectEncoding .unlistedEncoding s.beginInstr := by
  simp [runInstr, hal, had, hd]

end

/-- A fetch from ordinary memory tells no device and draws no free value (rule R55). -/
theorem beginInstr_of_memory {s : State} (h : touchesDevice s.cfg 4 s.pc = false) : s.beginInstr = s.atInstr := by
  simp [State.beginInstr, State.atInstr, afterRead_memory s s.pc 4 h]

/-- An aligned fetch that touches a device register draws one free value and is one event (rules R62, R63). -/
theorem beginInstr_of_device {s : State} (h : touchesDevice s.cfg 4 s.pc = true) (hal : pcAligned s = true) :
    s.beginInstr = { s.atInstr with draws := s.draws + 1, deviceLog := s.deviceLog ++ [.memRead s.pc 4] } := by
  simp [State.beginInstr, afterRead_device s s.pc 4 h hal, State.tellDevices, State.drawn, State.atInstr]

/-- The bytes of the fetched word that are not a device's are memory's (rules R52, R55). -/
theorem fetchWord_memory_byte (s : State) {j : Nat} (hj : j < 4) (hd : isDevice s.cfg (plus s.pc j) = false) :
    (fetchWord s).extractLsb' (8 * j) 8 = s.mem.read (plus s.pc j).toNat := by
  apply BitVec.eq_of_getLsbD_eq
  intro i hi
  have hlt : 8 * j + i < 32 := by omega
  have hbit := readBytes_mixed s 4 s.pc s.freshWord j hj hd i hi (by omega)
  simpa [fetchWord, readValue, hi, hlt] using hbit

/-- Settles O6: the fetch reads `w` and leaves the state with the two addresses set. -/
theorem stepRunsDecodedInstruction : Obligations.StepRunsDecodedInstruction := by
  unfold Obligations.StepRunsDecodedInstruction
  rintro s w i ⟨hno, hmod, ⟨hadmit, hmem⟩, hholds⟩ hdec
  have hfetch : decode (fetchWord s.sampleMip) = .instr i := by rw [fetchWord_eq _ w hmem hholds, hdec]
  calc step s = runInstr s.sampleMip := step_eq_runInstr hno
    _ = exec i s.sampleMip.beginInstr := runInstr_of_instr (pcAligned_of_mod hmod) hadmit hfetch
    _ = exec i s.sampleMip.atInstr := by rw [beginInstr_of_memory hmem]

/-- Settles O10: the word is the one the fetch reads, the state the one the fetch leaves. -/
theorem stepRunsWordFetchedFromDevice : Obligations.StepRunsWordFetchedFromDevice := by
  unfold Obligations.StepRunsWordFetchedFromDevice
  intro s hno hmod hadmit hdev
  have hal : pcAligned s.sampleMip = true := pcAligned_of_mod (by simpa using hmod)
  have had : fetchAdmitted s.sampleMip = true := by simpa [fetchAdmitted] using hadmit
  have hstep := step_eq_runInstr hno
  refine ⟨fetchWord s.sampleMip, s.sampleMip.beginInstr, fun j hj hord => ?_, ?_, fun i hi => ?_, fun hu => ?_,
    fun hu => ?_⟩
  · simpa using fetchWord_memory_byte s.sampleMip hj (by simpa using hord)
  · simpa using beginInstr_of_device (s := s.sampleMip) (by simpa using hdev) hal
  · rw [hstep, runInstr_of_instr hal had hi]
  · rw [hstep, runInstr_of_undefined hal had hu]
    exact rejectEncoding_rejectedAs
  · rw [hstep, runInstr_of_unlisted hal had hu]
    exact rejectEncoding_rejectedAs

/-! ### What an instruction leaves unchanged -/

/-- What one of the CSR instructions does where it does not trap leaves the configuration, the addresses and memory. -/
theorem csrHalves_frame (s : State) (rd : RegIdx) (f : BitVec 5) (n : CsrIdx) (old new : Word) :
    let t := csrWriteHalf (csrReadHalf (afterCsrRead s n) rd n old) f n new
    t.cfg = s.cfg ∧ t.mem = s.mem ∧ t.pc = s.pc ∧ t.ia = s.ia := by
  obtain ⟨hcfg, hmem, hpc, hia, -⟩ := csrWriteHalf_frame (csrReadHalf (afterCsrRead s n) rd n old) f n new
  obtain ⟨rcfg, rpc, ria, rmem, -⟩ := csrReadHalf_frame (afterCsrRead s n) rd n old
  simp [hcfg, hmem, hpc, hia, rcfg, rpc, ria, rmem]

/-- No instruction changes the configuration (rule R44). -/
theorem exec_cfg {i : Instr} {s t : State} (h : exec i s = .next t) : t.cfg = s.cfg := by
  cases exec_shape i s t h with
  | csr rd f n p hp hi ht new h => exact h ▸ (csrHalves_frame s rd f n _ new).1
  | same h => rw [h]
  | _ => simp [*]

/-- Settles O4, by what a step can do. -/
theorem stepKeepsConfiguration : Obligations.StepKeepsConfiguration := by
  unfold Obligations.StepKeepsConfiguration
  intro s t h
  rcases step_cases h with ⟨-, rfl⟩ | ⟨-, -, -, ⟨i, -, hexec⟩ | ⟨-, rfl⟩⟩
  · simp
  · simpa using exec_cfg hexec
  · simp

/-- Settles O21, by the ten shapes of an instruction's next state. -/
theorem onlyControlFlowAndTrapsSetPc : Obligations.OnlyControlFlowAndTrapsSetPc := by
  unfold Obligations.OnlyControlFlowAndTrapsSetPc
  intro i s t h
  cases exec_shape i s t h with
  | plain rd v h => subst h; simp
  | same h => subst h; simp
  | load rd v p n h => subst h; simp
  | store rs1 rs2 imm l hl hi v p n h => subst h; simp
  | csr rd f n p hp hi ht new h =>
    subst h
    obtain ⟨-, -, hpc, hia⟩ := csrHalves_frame s rd f n (csrRead s n) new
    exact ⟨hia, .inl hpc⟩
  | branch rs1 rs2 d b hb hi v h => subst h; exact ⟨rfl, .inr <| .inl ⟨rs1, rs2, d, b, hb, hi⟩⟩
  | jal rd d hi v w h => subst h; exact ⟨by simp, .inr <| .inr <| .inl ⟨rd, d, hi⟩⟩
  | jalr rd rs1 imm hi v w h => subst h; exact ⟨by simp, .inr <| .inr <| .inr <| .inl ⟨rd, rs1, imm, hi⟩⟩
  | mret hi h => subst h; exact ⟨rfl, .inr <| .inr <| .inr <| .inr <| .inl hi⟩
  | trap c h =>
    subst h
    exact ⟨rfl, .inr <| .inr <| .inr <| .inr <| .inr ⟨c, trapEnter_taken s c false s.ia⟩⟩

/-- Settles O22, by the ten shapes of an instruction's next state. -/
theorem onlyStoresChangeMemory : Obligations.OnlyStoresChangeMemory := by
  unfold Obligations.OnlyStoresChangeMemory
  intro i s t h
  cases exec_shape i s t h with
  | store rs1 rs2 imm l hl hi v p n h => exact .inr ⟨rs1, rs2, imm, l, hl, hi⟩
  | csr rd f n p hp hi ht new h =>
    obtain ⟨-, hmem, -⟩ := csrHalves_frame s rd f n (csrRead s n) new
    exact .inl (h ▸ hmem)
  | same h => exact .inl (h ▸ rfl)
  | _ => left; simp [*]

end Sys2Proof.Machine

namespace Sys2Proof.Machine

/-! ### What changes a CSR -/

/-- A write to a CSR inside the core changes that one alone: `mtvec` only where it is writable, and `mip` not at all
(rules R34, R35). -/
theorem csrPut_changes (s : State) (v : Word) (r : CsrName) :
    (csrPut s v r).mip = s.mip ∧ ((csrPut s v r).mtvec = s.mtvec ∨ s.cfg.mtvecWritable = true ∧ r = .mtvec) ∧
      ((csrPut s v r).mie = s.mie ∨ r = .mie) ∧ ((csrPut s v r).mscratch = s.mscratch ∨ r = .mscratch) ∧
      (SameMstatus s (csrPut s v r) ∨ r = .mstatus) ∧ ((csrPut s v r).mepc = s.mepc ∨ r = .mepc) ∧
      (SameMcause s (csrPut s v r) ∨ r = .mcause) := by
  cases r with
  | mtvec => by_cases hw : s.cfg.mtvecWritable = true <;> simp [csrPut, hw, SameMstatus, SameMcause]
  | _ => simp [csrPut, SameMstatus, SameMcause]

/-- `i` is a CSR instruction that names `n` with a non-zero `rs1` field. -/
def WritesCsr (s : State) (i : Instr) (n : CsrIdx) : Prop := ∃ rd f, f ≠ 0#5 ∧ ∃ p ∈ csrForms s rd f n, i = p.1

/-- What an instruction can do to the CSRs: an exception, MRET, nothing, or one write to the CSR it names. -/
inductive CsrEffect (i : Instr) (s t : State) : Prop where
  | trap (c : Cause) (h : t = s.trapEnter c false s.ia)
  | mret (hi : i = .mret) (h : t = s.trapReturn)
  | none (h : SameCsrs s t)
  | write (r : CsrName) (hi : WritesCsr s i (csrNumOf s.cfg.csrNum r)) (u : State) (hu : SameCsrs s u)
      (hcfg : u.cfg = s.cfg) (v : Word) (h : t = csrPut u v r)

theorem exec_csrEffect {i : Instr} {s t : State} (h : exec i s = .next t) : CsrEffect i s t := by
  cases exec_shape i s t h with
  | trap c h => exact .trap c h
  | mret hi h => exact .mret hi h
  | csr rd f n p hp hi ht new h =>
    have hread := csrReadHalf_sameCsrs s rd n (csrRead s n)
    have hcfg : (csrReadHalf (afterCsrRead s n) rd n (csrRead s n)).cfg = s.cfg := by simp [csrReadHalf_frame]
    rcases csrWriteHalf_cases (csrReadHalf (afterCsrRead s n) rd n (csrRead s n)) f n new with
      ⟨l, hl⟩ | ⟨r, hf, hn, hput⟩
    · exact .none (h ▸ hl ▸ hread)
    · rw [hcfg] at hn
      exact .write r ⟨rd, f, hf, p, hn ▸ hp, hi⟩ _ hread hcfg new (h.trans hput)
  | _ => exact .none (by simp [*, SameCsrs, SameTrapCsrs, SameOtherCsrs])

/-- Settles O23, by what an instruction can do to the CSRs. -/
theorem onlyCsrInstructionsChangeMtvecMieMscratch : Obligations.OnlyCsrInstructionsChangeMtvecMieMscratch := by
  unfold Obligations.OnlyCsrInstructionsChangeMtvecMieMscratch
  intro i s t h
  cases exec_csrEffect h with
  | trap c h => subst h; simp
  | mret hi h => subst h; simp
  | none h =>
    obtain ⟨-, hmtvec, hmip, hmie, hmscratch⟩ := h
    exact ⟨hmip, .inl hmtvec, .inl hmie, .inl hmscratch⟩
  | write r hi u hu hcfg v h =>
    subst h
    have named : ∀ r', r = r' → WritesCsr s i (csrNumOf s.cfg.csrNum r') := fun r' hr => hr ▸ hi
    obtain ⟨-, umtvec, umip, umie, umscratch⟩ := hu
    obtain ⟨hmip, hmtvec, hmie, hmscratch, -⟩ := csrPut_changes u v r
    exact ⟨hmip.trans umip, hmtvec.imp (·.trans umtvec) (.imp (hcfg ▸ ·) (named .mtvec)),
      hmie.imp (·.trans umie) (named .mie), hmscratch.imp (·.trans umscratch) (named .mscratch)⟩

/-- Settles O24, by what an instruction can do to the CSRs. -/
theorem whatChangesMstatusMepcMcause : Obligations.WhatChangesMstatusMepcMcause := by
  unfold Obligations.WhatChangesMstatusMepcMcause
  intro i s t h
  cases exec_csrEffect h with
  | trap c h => exact .inl ⟨c, h ▸ trapEnter_taken s c false s.ia⟩
  | mret hi h => subst h; exact .inr ⟨.inr (.inl hi), .inl rfl, .inl ⟨rfl, rfl⟩⟩
  | none h =>
    obtain ⟨⟨hmie, hmpie, hmepc, hcause, hirq⟩, -⟩ := h
    exact .inr ⟨.inl ⟨hmie, hmpie⟩, .inl hmepc, .inl ⟨hcause, hirq⟩⟩
  | write r hi u hu hcfg v h =>
    subst h
    have named : ∀ r', r = r' → WritesCsr s i (csrNumOf s.cfg.csrNum r') := fun r' hr => hr ▸ hi
    obtain ⟨⟨umie, umpie, umepc, ucause, uirq⟩, -⟩ := hu
    obtain ⟨-, -, -, -, hmstatus, hmepc, hmcause⟩ := csrPut_changes u v r
    exact .inr
      ⟨hmstatus.imp (.imp (·.trans umie) (·.trans umpie)) fun hr => .inr (named .mstatus hr),
        hmepc.imp (·.trans umepc) (named .mepc),
        hmcause.imp (.imp (·.trans ucause) (·.trans uirq)) (named .mcause)⟩

/-! ### The CSR instructions on the seven CSRs inside the core -/

/-- A CSR instruction on one of the seven: the old value to `rd`, the CSRs as the write leaves them where the `rs1` field is
not 0, and at most a free value drawn (rule R215). -/
theorem csrForms_run {s : State} (hwf : s.cfg.wf = true) (rd : RegIdx) (f : BitVec 5) (r : CsrName) :
    ∀ p ∈ csrForms s rd f (csrNumOf s.cfg.csrNum r), ∃ t, exec p.1 s = .next t ∧ RegsWith s t rd (csrValue s r) ∧
      SameCsrs (if f = 0#5 then s else csrPut s (p.2 (csrValue s r)) r) t ∧ SameAddresses s t ∧
      SameEnvironment (afterCsrRead s (csrNumOf s.cfg.csrNum r)) t ∧ SameMemory s t := by
  intro p hp
  refine ⟨_, csrForms_named s rd f _ r (csrNamed_csrNumOf s.cfg hwf r) p hp, ?_⟩
  by_cases hf : f = 0#5
  · simp [hf, RegsWith, setX_x, SameCsrs, SameTrapCsrs, SameOtherCsrs, SameAddresses, SameEnvironment, SameMemory]
  · simp only [hf, if_false]
    refine ⟨fun i => by rw [csrPut_x, setX_x, afterCsrRead_x], ?_⟩
    cases r with
    | mtvec =>
      by_cases hw : s.cfg.mtvecWritable = true <;>
        simp [csrPut, hw, SameCsrs, SameTrapCsrs, SameOtherCsrs, SameAddresses, SameEnvironment, SameMemory]
    | _ => simp [csrPut, SameCsrs, SameTrapCsrs, SameOtherCsrs, SameAddresses, SameEnvironment, SameMemory]

/-- Six of the seven read no free value, so the environment is as before. -/
theorem csrForms_run_fixed {s : State} (hwf : s.cfg.wf = true) (rd : RegIdx) (f : BitVec 5) (r : CsrName)
    (hr : r ≠ .mstatus) :
    ∀ p ∈ csrForms s rd f (csrNumOf s.cfg.csrNum r), ∃ t, exec p.1 s = .next t ∧ RegsWith s t rd (csrValue s r) ∧
      SameCsrs (if f = 0#5 then s else csrPut s (p.2 (csrValue s r)) r) t ∧ SameAddresses s t ∧
      SameEnvironment s t ∧ SameMemory s t := by
  have h := csrForms_run hwf rd f r
  rwa [afterCsrRead_named s _ r (csrNamed_csrNumOf s.cfg hwf r) hr] at h

/-- Settles O52: each of the three is held whole. -/
theorem csrPlainRegisters : Obligations.CsrPlainRegisters := by
  unfold Obligations.CsrPlainRegisters
  intro s rd f hwf
  refine ⟨fun p hp => ?_, fun p hp => ?_, fun p hp => ?_⟩
  · obtain ⟨t, hexec, hregs, hcsrs, haddr, henv, hmem⟩ := csrForms_run_fixed hwf rd f .mscratch (by decide) p hp
    refine ⟨t, hexec, hregs, ?_⟩
    split at hcsrs <;> simp_all [csrPut, csrValue, SameCsrs, SameTrapCsrs, SameOtherCsrs]
  · obtain ⟨t, hexec, hregs, hcsrs, haddr, henv, hmem⟩ := csrForms_run_fixed hwf rd f .mepc (by decide) p hp
    refine ⟨t, hexec, hregs, ?_⟩
    split at hcsrs <;> simp_all [csrPut, csrValue, SameCsrs, SameTrapCsrs, SameOtherCsrs, SameMstatus, SameMcause]
  · obtain ⟨t, hexec, hregs, hcsrs, haddr, henv, hmem⟩ := csrForms_run_fixed hwf rd f .mie (by decide) p hp
    refine ⟨t, hexec, hregs, ?_⟩
    split at hcsrs <;> simp_all [csrPut, csrValue, SameCsrs, SameTrapCsrs, SameOtherCsrs]

/-- Settles O53: a write to `mip`, and one to an `mtvec` that is not writable, is dropped. -/
theorem csrMtvecAndMip : Obligations.CsrMtvecAndMip := by
  unfold Obligations.CsrMtvecAndMip
  intro s rd f hwf
  refine ⟨fun p hp => ?_, fun p hp => ?_⟩
  · obtain ⟨t, hexec, hregs, hcsrs, haddr, henv, hmem⟩ := csrForms_run_fixed hwf rd f .mtvec (by decide) p hp
    refine ⟨t, hexec, hregs, ?_⟩
    by_cases hf : f = 0#5 <;> by_cases hw : s.cfg.mtvecWritable = true <;>
      simp_all [csrPut, csrValue, SameCsrs, SameTrapCsrs, SameOtherCsrs]
  · obtain ⟨t, hexec, hregs, hcsrs, haddr, henv, hmem⟩ := csrForms_run_fixed hwf rd f .mip (by decide) p hp
    exact ⟨t, hexec, hregs, haddr, by simpa [csrPut] using hcsrs, henv, hmem⟩

/-- The value read from `mcause` shows its two fields (rule R33). -/
theorem csrValue_mcause_reads (s : State) : McauseReads s (csrValue s .mcause) := by
  have hirq := s.cfg.layout.irqBit.isLt
  refine ⟨?_, fun j hj => ?_, fun j hlt hj => ?_⟩
  · rw [csrValue, packMcause_bit _ _ _ _ hirq, if_pos rfl]
  · rw [csrValue, packMcause_bit _ _ _ _ (by omega), if_neg (by omega), if_pos hj]
  · rw [csrValue, packMcause_bit _ _ _ _ hj, if_neg (by omega), if_neg (by omega)]

/-- `mcause` holds all 64 bits that are written to it (rule R33). -/
theorem csrValue_csrPut_mcause (s : State) (v : Word) : csrValue (csrPut s v .mcause) .mcause = v :=
  packMcause_unpack s.cfg.layout.irqBit v

/-- Settles O54: what is read from `mcause` afterwards is what was written, and shows its two fields. -/
theorem csrMcause : Obligations.CsrMcause := by
  unfold Obligations.CsrMcause
  intro s rd f hwf p hp
  obtain ⟨t, hexec, hregs, hcsrs, haddr, henv, hmem⟩ := csrForms_run_fixed hwf rd f .mcause (by decide) p hp
  refine ⟨t, csrValue s .mcause, hexec, csrValue_mcause_reads s, hregs, ?_⟩
  have hval : csrValue t .mcause = if f = 0#5 then csrValue s .mcause else p.2 (csrValue s .mcause) := by
    obtain ⟨⟨-, -, -, hcause, hirq⟩, -⟩ := hcsrs
    obtain ⟨hcfg, -⟩ := henv
    split at hcause
    · simp [csrValue, *]
    · rw [← csrValue_csrPut_mcause s (p.2 _)]; simp [csrValue, *, csrPut]
  rw [← hval]
  refine ⟨csrValue_mcause_reads t, ?_⟩
  split at hcsrs <;> simp_all [csrPut, SameCsrs, SameTrapCsrs, SameOtherCsrs, SameMstatus]

/-- The value read from `mstatus` shows its two fields, and the other bits where the configuration fixes them
(rule R31). -/
theorem csrValue_mstatus_reads {s : State} (hwf : s.cfg.wf = true) : MstatusReads s (csrValue s .mstatus) := by
  have hne : s.cfg.layout.mieBit.val ≠ s.cfg.layout.mpieBit.val := by
    simp only [Config.wf, Config.mstatusBitsDistinct, Bool.and_eq_true, bne_iff_ne] at hwf
    exact fun h => hwf.1.2 (Fin.ext h)
  simp only [csrValue, mstatusValue]
  refine ⟨?_, ?_, fun w hw j hj hmie hmpie => ?_⟩
  · rw [putBit_bit _ _ _ _ (Fin.isLt _), if_neg hne, putBit_bit _ _ _ _ (Fin.isLt _), if_pos rfl]
  · rw [putBit_bit _ _ _ _ (Fin.isLt _), if_pos rfl]
  · rw [putBit_bit _ _ _ _ hj, if_neg hmpie, putBit_bit _ _ _ _ hj, if_neg hmie, mstatusOtherBits, hw, Option.getD_some]

/-- A read of `mstatus` draws a free value where its other bits are not fixed (rule R31). -/
theorem afterCsrRead_mstatus_draws {s : State} (hwf : s.cfg.wf = true) :
    (afterCsrRead s s.cfg.csrNum.mstatus).draws = s.draws + if s.cfg.mstatusOther = none then 1 else 0 := by
  have hnamed := csrNamed_csrNumOf s.cfg hwf .mstatus
  rw [csrNumOf] at hnamed
  cases hother : s.cfg.mstatusOther <;> simp [afterCsrRead, csrReadDraws, hnamed, hother]

/-- Settles O55: reading and writing meet at the two bits, which differ in a well-formed configuration. -/
theorem csrMstatus : Obligations.CsrMstatus := by
  unfold Obligations.CsrMstatus
  intro s rd f hwf p hp
  obtain ⟨t, hexec, hregs, hcsrs, haddr, ⟨hcfg, hinputs, hlog, hdraws⟩, hmem⟩ := csrForms_run hwf rd f .mstatus p hp
  refine ⟨t, csrValue s .mstatus, hexec, csrValue_mstatus_reads hwf, hregs, ?_⟩
  have hdrawn := hdraws.trans (afterCsrRead_mstatus_draws hwf)
  split at hcsrs <;> simp_all [csrPut, SameCsrs, SameTrapCsrs, SameOtherCsrs, SameMstatus, SameMcause]

/-! ### The CSR instructions on the other CSR numbers -/

theorem csrNamed_eq_none {c : Config} {n : CsrIdx} (h : n ∉ c.csrNum.all) : csrNamed c n = none := by
  simp only [CsrNums.all, List.mem_cons, List.not_mem_nil, or_false, not_or] at h
  simp [csrNamed, h]

/-- A CSR instruction that traps does nothing but raise the illegal instruction trap (rules R38, R244). -/
theorem csrForms_raise {s : State} {rd : RegIdx} {f : BitVec 5} {n : CsrIdx} (h : csrTraps s.cfg n f = true) :
    ∀ p ∈ csrForms s rd f n, Raises s p.1 s.cfg.causeIllegal := by
  intro p hp
  obtain ⟨op, src, -, hexec⟩ := csrForms_exec s rd f n p hp
  exact ⟨s.raiseIllegal, by rw [hexec, csrInstr, if_pos h], trapEnter_taken s _ false s.ia⟩

/-- Settles O56: a number that names no CSR is not supported. -/
theorem unsupportedCsrTraps : Obligations.UnsupportedCsrTraps := by
  unfold Obligations.UnsupportedCsrTraps
  intro s rd f n hnamed hextra
  have hnone : csrExtra s.cfg n = none := by simpa [csrExtra] using hextra
  exact csrForms_raise (by simp [csrTraps, csrSupported, csrNamed_eq_none hnamed, hnone])

/-- The first entry listed with a number is the CSR of the C port that the number names. -/
theorem csrExtra_first {c : Config} {e : ExtraCsr} {before after : List ExtraCsr}
    (h : c.extraCsrs = before ++ e :: after) (hfirst : ∀ b ∈ before, b.num ≠ e.num) : csrExtra c e.num = some e := by
  have hnone : before.find? (fun b => b.num == e.num) = none := by simpa using hfirst
  simp [csrExtra, h, List.find?_append, hnone]

/-- In a well-formed configuration no CSR of the C port has the number of one of the seven (rules R38, R39). -/
theorem csrNamed_extra {c : Config} (hwf : c.wf = true) {e : ExtraCsr} (he : e ∈ c.extraCsrs) :
    csrNamed c e.num = none := by
  simp only [Config.wf, Config.extraCsrsApart, Bool.and_eq_true, List.all_eq_true] at hwf
  exact csrNamed_eq_none (by simpa using hwf.2 e he)

@[simp] theorem tellDevices_nil (s : State) : s.tellDevices [] = s := by simp [State.tellDevices]

section
variable {s : State} {e : ExtraCsr} (hnamed : csrNamed s.cfg e.num = none) (hextra : csrExtra s.cfg e.num = some e)
include hnamed

theorem csrReadHalf_extra (rd : RegIdx) (old : Word) : csrReadHalf (afterCsrRead s e.num) rd e.num old =
    (s.drawn.setX rd old).tellDevices (if rd = 0#5 then [] else [.csrReadAction e.num]) := by
  by_cases hrd : rd = 0#5 <;>
    simp [csrReadHalf, readAction, afterCsrRead, csrReadDraws, hnamed, hrd]

include hextra

theorem csrTraps_extra (f : BitVec 5) : csrTraps s.cfg e.num f = true ↔ f ≠ 0#5 ∧ e.onWrite = .trap := by
  simp [csrTraps, csrSupported, csrWriteTraps, hnamed, hextra]

theorem csrWriteHalf_extra {u : State} (hcfg : u.cfg = s.cfg) (f : BitVec 5) (new : Word) : csrWriteHalf u f e.num new =
    u.tellDevices (if f ≠ 0#5 ∧ e.onWrite = .performed then [.csrWrite e.num new] else []) := by
  by_cases hf : f = 0#5 <;> by_cases hw : e.onWrite = .performed <;>
    simp [csrWriteHalf, csrWrite, hcfg, hnamed, hextra, hf, hw]

end

/-- Settles O57: the trap is decided first; then the read half and the write half each tell the device at most once. -/
theorem cPortCsrs : Obligations.CPortCsrs := by
  unfold Obligations.CPortCsrs
  intro s rd f e before after hwf hlist hfirst p hp
  have hnamed : csrNamed s.cfg e.num = none := csrNamed_extra hwf (by simp [hlist])
  have hextra : csrExtra s.cfg e.num = some e := csrExtra_first hlist hfirst
  refine ⟨fun htrap => csrForms_raise ((csrTraps_extra hnamed hextra f).2 htrap) p hp, fun hno => ?_⟩
  have hnotrap : ¬ csrTraps s.cfg e.num f = true := by
    rw [csrTraps_extra hnamed hextra f]
    tauto
  obtain ⟨op, src, happly, hexec⟩ := csrForms_exec s rd f e.num p hp
  rw [csrInstr, if_neg hnotrap, happly, csrReadHalf_extra hnamed, csrWriteHalf_extra hnamed hextra (by simp)] at hexec
  refine ⟨_, csrRead s e.num, hexec, ?_⟩
  simp [RegsWith, setX_x, SameAddresses, SameCsrs, SameTrapCsrs, SameOtherCsrs, SameMemory]

end Sys2Proof.Machine

namespace Sys2Proof.Machine

/-! ### The invariant -/

theorem inv_iff (s : State) : s.Inv = true ↔
    s.mem.wf = true ∧ (∀ e ∈ s.mem, isDevice s.cfg (BitVec.ofNat 64 e.1) = false) ∧ s.cfg.wf = true := by
  simp [State.Inv, memOutsideDevices, and_assoc]

/-- The invariant is one of memory and the configuration alone. -/
theorem inv_congr {s t : State} (hmem : t.mem = s.mem) (hcfg : t.cfg = s.cfg) : t.Inv = s.Inv := by
  rw [State.Inv, State.Inv, hmem, hcfg]

/-- An access to memory is all an instruction can change it by (rules R41, R54). -/
theorem exec_mem {i : Instr} {s t : State} (h : exec i s = .next t) :
    t.mem = s.mem ∨ ∃ n a v, t.mem = writtenMem s.cfg n s.mem a v := by
  cases exec_shape i s t h with
  | store rs1 rs2 imm l hl hi v p n h => exact .inr ⟨n, p, v, h ▸ afterWrite_mem s p n v⟩
  | csr rd f n p hp hi ht new h =>
    obtain ⟨-, hmem, -⟩ := csrHalves_frame s rd f n (csrRead s n) new
    exact .inl (h ▸ hmem)
  | same h => exact .inl (h ▸ rfl)
  | _ => left; simp [*]

theorem exec_keeps_inv {i : Instr} {s t : State} (hinv : s.Inv = true) (h : exec i s = .next t) : t.Inv = true := by
  have hcfg := exec_cfg h
  rcases exec_mem h with hmem | ⟨n, a, v, hmem⟩
  · exact (inv_congr hmem hcfg).trans hinv
  · obtain ⟨hwf, hout, hc⟩ := (inv_iff s).mp hinv
    rw [inv_iff, hmem, hcfg]
    exact ⟨writtenMem_wf s.cfg n s.mem a v hwf, writtenMem_outsideDevices s.cfg n s.mem a v hout, hc⟩

/-- Settles O3: the boundary, the fetch and a trap entry leave memory alone, and an instruction keeps the invariant. -/
theorem stepKeepsInvariant : Obligations.StepKeepsInvariant := by
  unfold Obligations.StepKeepsInvariant
  intro s t hinv h
  rcases step_cases h with ⟨-, rfl⟩ | ⟨-, -, -, ⟨i, -, hexec⟩ | ⟨-, rfl⟩⟩
  · exact (inv_congr (by simp) (by simp)).trans hinv
  · have hbegin : s.sampleMip.beginInstr.Inv = s.Inv := inv_congr (by simp) (by simp)
    exact exec_keeps_inv (hbegin.trans hinv) hexec
  · exact (inv_congr (by simp) (by simp)).trans hinv

/-- Settles O14, by the laws of one byte. -/
theorem memoryIsAMap : Obligations.MemoryIsAMap := by
  unfold Obligations.MemoryIsAMap
  intro m a b hwf ha
  exact ⟨Memory.read_write_same m a b hwf, fun c hc => Memory.read_write_other m a c b hc, Memory.write_wf m a b hwf ha,
    fun m' hwf' hread => Memory.ext_of_read m m' hwf hwf' hread⟩

/-! ### A fetch that stops -/

theorem runInstr_misaligned {s : State} (h : pcAligned s = false) : runInstr s = .refused .fetchMisaligned := by
  simp [runInstr, h]

theorem runInstr_unadmitted {s : State} (hal : pcAligned s = true) (had : fetchAdmitted s = false) :
    runInstr s = .fault (.unadmittedAccess s.pc 4 .fetch) := by
  simp [runInstr, hal, had]

/-- Settles O11: no interrupt is taken, and the fetch looks at `pc` first. -/
theorem misalignedFetchRefused : Obligations.MisalignedFetchRefused := by
  unfold Obligations.MisalignedFetchRefused
  intro s hno hmod
  have hal : pcAligned s.sampleMip = false := by simp [pcAligned, aligned, hmod]
  rw [step_eq_runInstr hno, runInstr_misaligned hal]

/-! ### What a load and a store do, by the address they are performed at -/

section
variable {s : State} {sz : AccessSize} {rs1 : RegIdx} {imm : BitVec 12} {p : Word}

section
variable {ext : Word → Word} {rd : RegIdx} (hrd : rd ≠ 0#5)
include hrd

theorem load_raises (h : accessAddr s.cfg (baseDisp s rs1 imm) sz.bytes = none) :
    load sz ext rd rs1 imm s = .next s.raiseLoadMisaligned := by
  simp [load, hrd, loadInto, h]

theorem load_stuck (hp : PerformedAt s (baseDisp s rs1 imm) sz.bytes p) (had : memAdmit s.cfg p sz.bytes .read = false) :
    load sz ext rd rs1 imm s = .fault (.unadmittedAccess p sz.bytes .read) := by
  simp [load, hrd, loadInto, accessAddr_performed s _ p sz hp, had]

theorem load_completes (hp : PerformedAt s (baseDisp s rs1 imm) sz.bytes p) (had : memAdmit s.cfg p sz.bytes .read = true) :
    load sz ext rd rs1 imm s = .next ((afterRead s p sz.bytes).setX rd (ext (readValue s p sz.bytes))) := by
  simp [load, hrd, loadInto, accessAddr_performed s _ p sz hp, had]

end

variable {rs2 : RegIdx}

theorem store_raises (h : accessAddr s.cfg (baseDisp s rs1 imm) sz.bytes = none) :
    store sz rs1 rs2 imm s = .next s.raiseStoreMisaligned := by
  simp [store, h]

theorem store_stuck (hp : PerformedAt s (baseDisp s rs1 imm) sz.bytes p) (had : memAdmit s.cfg p sz.bytes .write = false) :
    store sz rs1 rs2 imm s = .fault (.unadmittedAccess p sz.bytes .write) := by
  simp [store, accessAddr_performed s _ p sz hp, had]

theorem store_completes (hp : PerformedAt s (baseDisp s rs1 imm) sz.bytes p) (had : memAdmit s.cfg p sz.bytes .write = true) :
    store sz rs1 rs2 imm s = .next (afterWrite s p sz.bytes (s.x rs2)) := by
  simp [store, accessAddr_performed s _ p sz hp, had]

end

/-- Settles O12: the fetch, the loads and the stores each ask `MEM_ADMIT` before they do anything. -/
theorem unadmittedAccessIsStuck : Obligations.UnadmittedAccessIsStuck := by
  unfold Obligations.UnadmittedAccessIsStuck
  intro s
  refine ⟨fun hno hmod had => ?_, fun rd rs1 imm l hl p hrd hp had => ?_, fun rs1 rs2 imm l hl p hp had => ?_⟩
  · have hal : pcAligned s.sampleMip = true := pcAligned_of_mod (by simpa using hmod)
    have hnot : fetchAdmitted s.sampleMip = false := by simpa [fetchAdmitted] using had
    simpa [step_eq_runInstr hno] using runInstr_unadmitted hal hnot
  · obtain ⟨sz, ext, hn, hexec, -⟩ := loadForms_exec rd rs1 imm l hl
    rw [hn] at hp had ⊢
    exact (hexec s).trans (load_stuck hrd hp had)
  · obtain ⟨sz, hn, hexec⟩ := storeForms_exec rs1 rs2 imm l hl
    rw [hn] at hp had ⊢
    exact (hexec s).trans (store_stuck hp had)

/-- Settles O34: no address is left to perform the access at, so the exception is all there is. -/
theorem misalignedTraps : Obligations.MisalignedTraps := by
  unfold Obligations.MisalignedTraps
  refine fun s htrap => ⟨fun rd rs1 imm l hl hrd hmis => ?_, fun rs1 rs2 imm l hl hmis => ?_⟩
  · obtain ⟨sz, ext, hn, hexec, -⟩ := loadForms_exec rd rs1 imm l hl
    have hnone := accessAddr_trap s _ _ hmis htrap
    exact ⟨_, (hexec s).trans (load_raises hrd (hn ▸ hnone)), trapEnter_taken s _ false s.ia⟩
  · obtain ⟨sz, hn, hexec⟩ := storeForms_exec rs1 rs2 imm l hl
    have hnone := accessAddr_trap s _ _ hmis htrap
    exact ⟨_, (hexec s).trans (store_raises (hn ▸ hnone)), trapEnter_taken s _ false s.ia⟩

/-! ### Ordinary memory -/

/-- Every load from ordinary memory, aligned or not, by the address it is performed at (rules R53, R58, R59, R130). -/
theorem load_loadsFrom {s : State} {rd rs1 : RegIdx} {imm : BitVec 12} {l : Instr × Nat × Bool} {p : Word}
    (hl : l ∈ loadForms rd rs1 imm) (hrd : rd ≠ 0#5) (hp : PerformedAt s (baseDisp s rs1 imm) l.2.1 p)
    (hord : OrdinaryAccess s p l.2.1 .read) : LoadsFrom s l.1 rd p l.2.1 l.2.2 := by
  obtain ⟨sz, ext, hn, hexec, hext⟩ := loadForms_exec rd rs1 imm l hl
  rw [hn] at hp hord ⊢
  obtain ⟨had, hmem⟩ := hord
  have hread := readValue_loaded s p sz.bytes sz.bytes_le hmem
  have hloaded : LoadedValue s p sz.bytes l.2.2 (ext (readValue s p sz.bytes)) := by
    rcases hext with ⟨hsigned, rfl⟩ | ⟨hsigned, rfl⟩
    · exact hsigned ▸ signExt_loaded s p sz _ hread
    · exact hsigned ▸ zeroExt_loaded s p sz _ hread
  have hrun : exec l.1 s = .next (s.setX rd (ext (readValue s p sz.bytes))) := by
    rw [hexec, load_completes hrd hp had, afterRead_memory s p _ hmem]
  exact ⟨_, hloaded, _, hrun, setX_writesOnly s rd _⟩

/-- A write, to a device or not, leaves the registers, the addresses and the CSRs (rule R54). -/
theorem afterWrite_frame (s : State) (a : Word) (n : Nat) (v : Word) :
    SameRegs s (afterWrite s a n v) ∧ SameAddresses s (afterWrite s a n v) ∧ SameCsrs s (afterWrite s a n v) := by
  simp [SameRegs, SameAddresses, SameCsrs, SameTrapCsrs, SameOtherCsrs]

/-- A write to ordinary memory tells no device and draws no free value. -/
theorem afterWrite_environment {s : State} {a : Word} {n : Nat} (v : Word) (h : touchesDevice s.cfg n a = false) :
    SameEnvironment s (afterWrite s a n v) := by
  simp [SameEnvironment, afterWrite, h]

/-- Every store to ordinary memory, aligned or not, by the address it is performed at (rules R54, R58, R59, R205). -/
theorem store_storesTo {s : State} {rs1 rs2 : RegIdx} {imm : BitVec 12} {l : Instr × Nat} {p : Word}
    (hl : l ∈ storeForms rs1 rs2 imm) (hwf : s.mem.wf = true) (hp : PerformedAt s (baseDisp s rs1 imm) l.2 p)
    (hord : OrdinaryAccess s p l.2 .write) : StoresTo s l.1 p l.2 (s.x rs2) := by
  obtain ⟨sz, hn, hexec⟩ := storeForms_exec rs1 rs2 imm l hl
  rw [hn] at hp hord ⊢
  obtain ⟨had, hmem⟩ := hord
  obtain ⟨hregs, haddrs, hcsrs⟩ := afterWrite_frame s p sz.bytes (s.x rs2)
  exact ⟨_, (hexec s).trans (store_completes hp had), afterWrite_storesOnly s p _ _ hwf sz.bytes_le hmem, hregs, haddrs,
    hcsrs, afterWrite_environment _ hmem⟩

/-- Settles O32: an aligned load is performed at its address. -/
theorem alignedLoads : Obligations.AlignedLoads := by
  unfold Obligations.AlignedLoads
  intro s rd rs1 imm l hl hrd hal hord
  exact load_loadsFrom hl hrd (.inl ⟨hal, rfl⟩) hord

/-- Settles O33: an aligned store is performed at its address. -/
theorem alignedStores : Obligations.AlignedStores := by
  unfold Obligations.AlignedStores
  intro s rs1 rs2 imm l hl hwf hal hord
  exact store_storesTo hl hwf (.inl ⟨hal, rfl⟩) hord

/-- Settles O35: under `mask` the access is performed at the address rounded down. -/
theorem misalignedMasks : Obligations.MisalignedMasks := by
  unfold Obligations.MisalignedMasks
  refine fun s hmask hwf => ⟨fun rd rs1 imm l hl p hrd hmis hp hord => ?_, fun rs1 rs2 imm l hl p hmis hp hord => ?_⟩
  · exact load_loadsFrom hl hrd (.inr (.inl ⟨hmis, hmask, hp⟩)) hord
  · exact store_storesTo hl hwf (.inr (.inl ⟨hmis, hmask, hp⟩)) hord

/-- Settles O36: under `split` the access is performed at the address as it is. -/
theorem misalignedSplits : Obligations.MisalignedSplits := by
  unfold Obligations.MisalignedSplits
  refine fun s hsplit hwf => ⟨fun rd rs1 imm l hl hrd hmis hord => ?_, fun rs1 rs2 imm l hl hmis hord => ?_⟩
  · exact load_loadsFrom hl hrd (.inr (.inr ⟨hmis, hsplit, rfl⟩)) hord
  · exact store_storesTo hl hwf (.inr (.inr ⟨hmis, hsplit, rfl⟩)) hord

end Sys2Proof.Machine

namespace Sys2Proof.Machine

/-! ### A store and what is read there later -/

/-- The zero-extended byte a byte load finds (rule R135). -/
theorem loadedValue_byte_toNat {s : State} {a v : Word} (h : LoadedValue s a 1 false v) :
    v.toNat = (s.mem.read a.toNat).toNat := by
  obtain ⟨hlow, hhigh⟩ := h
  have hbyte : v.extractLsb' 0 8 = s.mem.read a.toNat := by simpa using hlow 0 (by decide)
  have hlt : v.toNat < 2 ^ 8 := by
    refine Nat.lt_pow_two_of_testBit _ fun i hi => ?_
    rw [BitVec.testBit_toNat]
    by_cases hi64 : i < 64
    · simpa using hhigh i hi hi64
    · exact BitVec.getLsbD_of_ge v i (by omega)
  rw [← hbyte, BitVec.extractLsb'_toNat, Nat.shiftRight_zero, Nat.mod_eq_of_lt hlt]

/-- An effective address depends on the registers alone (rules R130, R205). -/
theorem baseDisp_congr {s t : State} (h : SameRegs s t) (rs1 : RegIdx) (imm : BitVec 12) :
    baseDisp t rs1 imm = baseDisp s rs1 imm := by
  rw [baseDisp, baseDisp, h]

/-- Whether an access is an ordinary one depends on the configuration alone (rules R63, R64). -/
theorem ordinaryAccess_congr {s t : State} (h : t.cfg = s.cfg) (a : Word) (n : Nat) (k : AccessKind) :
    OrdinaryAccess t a n k ↔ OrdinaryAccess s a n k := by
  rw [OrdinaryAccess, OrdinaryAccess, h]

/-- Settles O40: the store puts byte `k` at `a + k`, and the load reads it there. -/
theorem byteLoadAfterDoubleStore : Obligations.ByteLoadAfterDoubleStore := by
  unfold Obligations.ByteLoadAfterDoubleStore
  intro s rs1 rs2 rd rs3 imm imm' k hwf hk hrd hal hword haddr hbyte
  have hsd : (.sd rs1 rs2 imm, 8) ∈ storeForms rs1 rs2 imm := by simp [storeForms]
  have hlbu : (.lbu rd rs3 imm', 1, false) ∈ loadForms rd rs3 imm' := by simp [loadForms]
  obtain ⟨t, hstore, ⟨hstored, -⟩, hregs, -, -, ⟨hcfg, -⟩⟩ := store_storesTo hsd hwf (.inl ⟨hal, rfl⟩) hword
  have hbase : baseDisp t rs3 imm' = plus (baseDisp s rs1 imm) k := (baseDisp_congr hregs rs3 imm').trans haddr
  have hord : OrdinaryAccess t (baseDisp t rs3 imm') 1 .read := by
    rw [baseDisp_congr hregs, ordinaryAccess_congr hcfg]
    exact hbyte
  obtain ⟨v, hloaded, u, hload, hwrites, -⟩ := load_loadsFrom hlbu hrd (.inl ⟨Nat.mod_one _, rfl⟩) hord
  refine ⟨t, u, hstore, hload, ?_⟩
  calc (u.x rd).toNat = v.toNat := by rw [hwrites rd, if_neg hrd, if_pos rfl]
    _ = (t.mem.read (plus (baseDisp s rs1 imm) k).toNat).toNat := hbase ▸ loadedValue_byte_toNat hloaded
    _ = ((s.x rs2).extractLsb' (8 * k) 8).toNat := by rw [hstored k hk]
    _ = (s.x rs2).toNat / 2 ^ (8 * k) % 2 ^ 8 := by rw [BitVec.extractLsb'_toNat, Nat.shiftRight_eq_div_pow]

/-- The four bytes SW stores hold the low word of what it stores (rules R51, R55). -/
theorem holdsWord_of_storesOnly {s t : State} {a v : Word} (h : StoresOnly s t a 4 v) :
    HoldsWord t.mem a (v.setWidth 32) := by
  obtain ⟨hbytes, -⟩ := h
  intro j hj
  rw [hbytes j hj]
  apply BitVec.eq_of_getLsbD_eq
  intro i hi
  have hlt : 8 * j + i < 32 := by omega
  simp [hi, hlt]

/-- Settles O41: the stored bytes are the word the fetch reads, and a step runs the word it fetches. -/
theorem storeIsSeenByFetch : Obligations.StoreIsSeenByFetch := by
  unfold Obligations.StoreIsSeenByFetch
  intro s rs1 rs2 imm i hwf hal hwrite hfetch hdec
  have hsw : (.sw rs1 rs2 imm, 4) ∈ storeForms rs1 rs2 imm := by simp [storeForms]
  obtain ⟨t, hstore, hstored, -, -, -, ⟨hcfg, -⟩⟩ := store_storesTo hsw hwf (.inl ⟨hal, rfl⟩) hwrite
  refine ⟨t, hstore, fun u humem hucfg hupc hno => stepRunsDecodedInstruction u _ i ?_ hdec⟩
  have hholds : HoldsWord u.mem u.pc ((s.x rs2).setWidth 32) := by
    rw [humem, hupc]
    exact holdsWord_of_storesOnly hstored
  have hord : OrdinaryAccess u.sampleMip u.pc 4 .fetch := by
    rw [ordinaryAccess_congr ((sampleMip_cfg u).trans (hucfg.trans hcfg)), hupc]
    exact hfetch
  refine ⟨hno, ?_, ?_, ?_⟩
  · rw [sampleMip_pc, hupc]; exact hal
  · rw [sampleMip_pc]; exact hord
  · rw [sampleMip_pc, sampleMip_mem]; exact hholds

/-! ### Device registers -/

section
variable {sz : AccessSize} {ext : Word → Word} {signed : Bool}
  (h : (signed = true ∧ ext = sz.signExt) ∨ (signed = false ∧ ext = sz.zeroExt)) (v : Word)
include h

/-- Either extension keeps the bytes the access moves. -/
theorem ext_low_byte {j : Nat} (hj : j < sz.bytes) : (ext v).extractLsb' (8 * j) 8 = v.extractLsb' (8 * j) 8 := by
  have hle := sz.bytes_le
  apply BitVec.eq_of_getLsbD_eq
  intro i hi
  have hlow : 8 * j + i < 8 * sz.bytes := by omega
  rw [BitVec.getLsbD_extractLsb', BitVec.getLsbD_extractLsb']
  rcases h with ⟨-, rfl⟩ | ⟨-, rfl⟩
  · rw [sz.signExt_bit v _ (by omega), Nat.min_eq_left (by omega)]
  · rw [sz.zeroExt_bit v _ (by omega), decide_eq_true hlow, Bool.true_and]

/-- Above them it repeats the sign bit, or is 0 (rule R130). -/
theorem ext_high {j : Nat} (hj : 8 * sz.bytes ≤ j) (hj64 : j < 64) :
    (ext v).getLsbD j = (signed && (ext v).getLsbD (8 * sz.bytes - 1)) := by
  have hpos := sz.bytes_pos
  rcases h with ⟨rfl, rfl⟩ | ⟨rfl, rfl⟩
  · rw [sz.signExt_bit v j hj64, sz.signExt_bit v _ (by omega), Nat.min_eq_right (by omega), Nat.min_self, Bool.true_and]
  · rw [sz.zeroExt_bit v j hj64]
    simp [Nat.not_lt.mpr hj]

end

/-- The bytes of a read that are not a device's are memory's (rule R52). -/
theorem readValue_memory_byte (s : State) (a : Word) {n j : Nat} (hn : n ≤ 8) (hj : j < n)
    (hd : isDevice s.cfg (plus a j) = false) :
    (readValue s a n).extractLsb' (8 * j) 8 = s.mem.read (plus a j).toNat := by
  apply BitVec.eq_of_getLsbD_eq
  intro i hi
  have hbit := readBytes_mixed s n a s.freshWord j hj hd i hi (by omega)
  simpa [readValue, hi] using hbit

/-- What a read hands to the devices it touches, and how many free values it draws (rule R62; log 2 and 12). -/
theorem afterRead_device_events {s : State} {a : Word} {n : Nat} (h : touchesDevice s.cfg n a = true) :
    ∃ es, (afterRead s a n).deviceLog = s.deviceLog ++ es ∧
      (a.toNat % n = 0 → es = [.memRead a n] ∧ (afterRead s a n).draws = s.draws + 1) ∧
      (a.toNat % n ≠ 0 → es.Perm (deviceByteReads s a n) ∧ (afterRead s a n).draws = s.draws + 2) := by
  by_cases hal : a.toNat % n = 0
  · rw [afterRead_device s a n h (by simp [aligned, hal])]
    exact ⟨_, rfl, fun _ => ⟨rfl, rfl⟩, fun hmis => absurd hal hmis⟩
  · rw [afterRead_device_misaligned s a n h (by simp [aligned, hal])]
    exact ⟨_, rfl, fun hal' => absurd hal' hal, fun _ => ⟨byteReads_eq s n a ▸ pickOrder_perm _ _, rfl⟩⟩

/-- Settles O38: the load completes at the state after the read, with the value read, extended, in `rd`. -/
theorem deviceLoads : Obligations.DeviceLoads := by
  unfold Obligations.DeviceLoads
  intro s rd rs1 imm l hl p hrd hp had hdev
  obtain ⟨sz, ext, hn, hexec, hext⟩ := loadForms_exec rd rs1 imm l hl
  rw [hn] at hp had hdev ⊢
  obtain ⟨es, hlog, hal, hmis⟩ := afterRead_device_events hdev
  refine ⟨_, ext (readValue s p sz.bytes), es, (hexec s).trans (load_completes hrd hp had),
    fun i => by rw [setX_x, afterRead_x],
    fun j hj hord => (ext_low_byte hext _ hj).trans (readValue_memory_byte s p sz.bytes_le hj hord),
    fun j => ext_high hext _, ?_⟩
  simpa [SameAddresses, SameCsrs, SameTrapCsrs, SameOtherCsrs, SameMemory] using ⟨hlog, hal, hmis⟩

/-- `lowBytes` is the value modulo 2^(8n) (rule R205). -/
theorem lowBytes_toNat (v : Word) {n : Nat} (hn : n ≤ 8) : (lowBytes n v).toNat = v.toNat % 2 ^ (8 * n) := by
  refine Nat.eq_of_testBit_eq fun i => ?_
  have hmask : 64 - 8 * n + i < 64 ↔ i < 8 * n := by omega
  rw [Nat.testBit_mod_two_pow, BitVec.testBit_toNat, BitVec.testBit_toNat, lowBytes, BitVec.getLsbD_and,
    BitVec.getLsbD_ushiftRight, BitVec.getLsbD_allOnes, decide_eq_decide.mpr hmask, Bool.and_comm]

/-- What a write hands to the devices it touches, and how many free values it draws (rule R62; log 2 and 12). -/
theorem afterWrite_device_events {s : State} {a : Word} {n : Nat} (v : Word) (h : touchesDevice s.cfg n a = true) :
    ∃ es, (afterWrite s a n v).deviceLog = s.deviceLog ++ es ∧
      (a.toNat % n = 0 → es = [.memWrite a n (lowBytes n v)] ∧ (afterWrite s a n v).draws = s.draws) ∧
      (a.toNat % n ≠ 0 → es.Perm (deviceByteWrites s a n v) ∧ (afterWrite s a n v).draws = s.draws + 1) := by
  by_cases hal : a.toNat % n = 0
  · rw [afterWrite_device s a n v h (by simp [aligned, hal])]
    exact ⟨_, rfl, fun _ => ⟨rfl, rfl⟩, fun hmis => absurd hal hmis⟩
  · rw [afterWrite_device_misaligned s a n v h (by simp [aligned, hal])]
    exact ⟨_, rfl, fun hal' => absurd hal' hal, fun _ => ⟨byteWrites_eq s n a v ▸ pickOrder_perm _ _, rfl⟩⟩

/-- Settles O39: the store completes at the state after the write. -/
theorem deviceStores : Obligations.DeviceStores := by
  unfold Obligations.DeviceStores
  intro s rs1 rs2 imm l hl p hwf hp had hdev
  obtain ⟨sz, hn, hexec⟩ := storeForms_exec rs1 rs2 imm l hl
  rw [hn] at hp had hdev ⊢
  obtain ⟨es, hlog, hal, hmis⟩ := afterWrite_device_events (s.x rs2) hdev
  obtain ⟨hregs, haddrs, hcsrs⟩ := afterWrite_frame s p sz.bytes (s.x rs2)
  refine ⟨_, lowBytes sz.bytes (s.x rs2), es, (hexec s).trans (store_completes hp had),
    lowBytes_toNat (s.x rs2) sz.bytes_le, hlog, hal, hmis, fun j hj => ?_, fun b hb => ?_, hregs, haddrs, hcsrs,
    afterWrite_cfg .., afterWrite_mipInputs ..⟩
  · rw [afterWrite_mem]
    exact read_writtenMem_inside s.cfg sz.bytes s.mem p _ hwf sz.bytes_le j hj
  · rw [afterWrite_mem]
    exact read_writtenMem_outside s.cfg sz.bytes s.mem p _ b hb

end Sys2Proof.Machine

namespace Sys2Proof

/-! ### The major opcodes (rules R89, R90) -/

section
variable {w : InstrWord}

theorem decode_auipc (h : opcodeOf w = 0b0010111#7) : decode w = .instr (.auipc (rdOf w) (immUOf w)) := by
  simp [decode, h]
theorem decode_lui (h : opcodeOf w = 0b0110111#7) : decode w = .instr (.lui (rdOf w) (immUOf w)) := by simp [decode, h]
theorem decode_jal (h : opcodeOf w = 0b1101111#7) : decode w = .instr (.jal (rdOf w) (dispJOf w)) := by simp [decode, h]
theorem decode_jalr (h : opcodeOf w = 0b1100111#7) :
    decode w = if fn3Of w = 0b000#3 then .instr (.jalr (rdOf w) (rs1Of w) (immIOf w)) else .unlisted := by
  simp [decode, h]
theorem decode_branch (h : opcodeOf w = 0b1100011#7) : decode w = decodeBranch w := by simp [decode, h]
theorem decode_load (h : opcodeOf w = 0b0000011#7) : decode w = decodeLoad w := by simp [decode, h]
theorem decode_store (h : opcodeOf w = 0b0100011#7) : decode w = decodeStore w := by simp [decode, h]
theorem decode_misc (h : opcodeOf w = 0b0001111#7) : decode w = decodeMisc w := by simp [decode, h]
theorem decode_op (h : opcodeOf w = 0b0110011#7) : decode w = decodeOp w := by simp [decode, h]
theorem decode_opW (h : opcodeOf w = 0b0111011#7) : decode w = decodeOpW w := by simp [decode, h]
theorem decode_opImm (h : opcodeOf w = 0b0010011#7) : decode w = decodeOpImm w := by simp [decode, h]
theorem decode_opImmW (h : opcodeOf w = 0b0011011#7) : decode w = decodeOpImmW w := by simp [decode, h]
theorem decode_system (h : opcodeOf w = 0b1110011#7) : decode w = decodeSystem w := by simp [decode, h]

end

/-! ### Decoding what the encoder writes -/

/-- Settles O15, family by family: the word has the family's opcode and, field by field, the instruction's operands. -/
theorem decodeOfEncode : Obligations.DecodeOfEncode := by
  unfold Obligations.DecodeOfEncode
  intro i hwf
  cases i
  case auipc => rw [encode, decode_auipc] <;> simp
  case lui => rw [encode, decode_lui] <;> simp
  case jal rd d =>
    have hd : d.getLsbD 0 = false := by simpa [Instr.wf] using hwf
    rw [encode, decode_jal] <;> simp [dispJOf_encJ _ _ _ hd]
  case jalr => rw [encode, decode_jalr] <;> simp
  case beq rs1 rs2 d | bne rs1 rs2 d | blt rs1 rs2 d | bge rs1 rs2 d | bltu rs1 rs2 d | bgeu rs1 rs2 d =>
    have hd : d.getLsbD 0 = false := by simpa [Instr.wf] using hwf
    rw [encode, decode_branch] <;> simp [decodeBranch, dispBOf_encB _ _ _ _ _ hd]
  case lb | lh | lw | ld | lbu | lhu | lwu | ldu => rw [encode, decode_load] <;> simp [decodeLoad]
  case sb | sh | sw | sd => rw [encode, decode_store] <;> simp [decodeStore]
  case fence => rw [encode, decode_misc] <;> simp [decodeMisc, zero_encFence, pppp_encFence, ssss_encFence]
  case add | sll | slt | sltu | xor | srl | or | and | sub | sra =>
    rw [encode, decode_op] <;> simp [decodeOp, decodeOpLow, decodeOpHigh]
  case addw | sllw | sltW | sltuW | xorW | srlw | orW | andW | subw | sraw =>
    rw [encode, decode_opW] <;> simp [decodeOpW, decodeOpWLow, decodeOpWHigh]
  case addi | slti | sltiu | xori | ori | andi | slli | srli | srai =>
    rw [encode, decode_opImm] <;> simp [decodeOpImm, decodeShiftLeft, decodeShiftRight]
  case addiw | sltiW | sltiuW | xoriW | oriW | andiW | slliw | srliw | sraiw =>
    rw [encode, decode_opImmW] <;> simp [decodeOpImmW, decodeShiftLeft, decodeShiftRight]
  case csrrw | csrrs | csrrc | csrrwi | csrrsi | csrrci => rw [encode, decode_system] <;> simp [decodeSystem]
  case fenceI | ebreak | ecall | mret | wfi => decide

/-! ### Each family's decoder drops no bit of the word

`…_of_fields` rebuilds a word in its format once the constant fields are known; `…_sound` says that what a family's decoder
reads from a word of its opcode is well formed and encoded as that word. -/

theorem fn3_cases (f : BitVec 3) : f = 0b000#3 ∨ f = 0b001#3 ∨ f = 0b010#3 ∨ f = 0b011#3 ∨ f = 0b100#3 ∨ f = 0b101#3 ∨
    f = 0b110#3 ∨ f = 0b111#3 := by
  revert f; decide

section
variable {w : InstrWord} {i : Instr} {fn3 : BitVec 3} {op : BitVec 7}

theorem encI_of_fields (hf : fn3Of w = fn3) (ho : opcodeOf w = op) :
    encI (immIOf w) (rs1Of w) fn3 (rdOf w) op = w := by rw [← hf, ← ho, encI_fields]

theorem encR_of_fields {fn7 : BitVec 7} (hs : fn7Of w = fn7) (hf : fn3Of w = fn3) (ho : opcodeOf w = op) :
    encR fn7 (rs2Of w) (rs1Of w) fn3 (rdOf w) op = w := by rw [← hs, ← hf, ← ho, encR_fields]

theorem encShift_of_fields {fn6 : BitVec 6} (hs : fn6Of w = fn6) (hf : fn3Of w = fn3) (ho : opcodeOf w = op) :
    encShift fn6 (shamtOf w) (rs1Of w) fn3 (rdOf w) op = w := by rw [← hs, ← hf, ← ho, encShift_fields]

theorem encS_of_fields (hf : fn3Of w = fn3) (ho : opcodeOf w = op) :
    encS (immSOf w) (rs2Of w) (rs1Of w) fn3 op = w := by rw [← hf, ← ho, encS_fields]

theorem encB_of_fields (hf : fn3Of w = fn3) (ho : opcodeOf w = op) :
    encB (dispBOf w) (rs2Of w) (rs1Of w) fn3 op = w := by rw [← hf, ← ho, encB_fields]

/-- Two words with the same fields are the same word. -/
theorem word_eq_of_fields {v : InstrWord} (himm : immIOf v = immIOf w) (hrs1 : rs1Of v = rs1Of w) (hf : fn3Of v = fn3Of w)
    (hrd : rdOf v = rdOf w) (ho : opcodeOf v = opcodeOf w) : v = w := by
  rw [← encI_fields v, himm, hrs1, hf, hrd, ho, encI_fields]

/-- The immediate of a FENCE word is its three nibbles (rule R150). -/
theorem immIOf_eq_append (w : InstrWord) : immIOf w = w.extractLsb' 28 4 ++ w.extractLsb' 24 4 ++ w.extractLsb' 20 4 := by
  apply BitVec.eq_of_getLsbD_eq
  intro j hj
  simp only [immIOf, BitVec.getLsbD_append, BitVec.getLsbD_extractLsb']
  interval_cases j <;> simp

theorem encFence_of_fields (hz : w.extractLsb' 28 4 = 0#4) (hrs1 : rs1Of w = 0#5) (hrd : rdOf w = 0#5)
    (hf : fn3Of w = 0b000#3) (ho : opcodeOf w = 0b0001111#7) :
    encFence (w.extractLsb' 24 4) (w.extractLsb' 20 4) = w := by
  refine word_eq_of_fields ?_ ?_ ?_ ?_ ?_
  · simp only [immIOf_eq_append, zero_encFence, pppp_encFence, ssss_encFence, hz]
  · rw [rs1Of_encFence, hrs1]
  · rw [fn3Of_encFence, hf]
  · rw [rdOf_encFence, hrd]
  · rw [opcodeOf_encFence, ho]

theorem decodeBranch_sound (ho : opcodeOf w = 0b1100011#7) (h : decodeBranch w = .instr i) :
    encode i = w ∧ i.wf = true := by
  rcases fn3_cases (fn3Of w) with hf | hf | hf | hf | hf | hf | hf | hf <;> simp only [decodeBranch, hf] at h <;>
    cases h <;> exact ⟨encB_of_fields hf ho, by simp only [Instr.wf, dispBOf_even, Bool.not_false]⟩

theorem decodeLoad_sound (ho : opcodeOf w = 0b0000011#7) (h : decodeLoad w = .instr i) :
    encode i = w ∧ i.wf = true := by
  rcases fn3_cases (fn3Of w) with hf | hf | hf | hf | hf | hf | hf | hf <;> simp only [decodeLoad, hf] at h <;>
    cases h <;> exact ⟨encI_of_fields hf ho, rfl⟩

theorem decodeStore_sound (ho : opcodeOf w = 0b0100011#7) (h : decodeStore w = .instr i) :
    encode i = w ∧ i.wf = true := by
  rcases fn3_cases (fn3Of w) with hf | hf | hf | hf | hf | hf | hf | hf <;> simp only [decodeStore, hf] at h <;>
    cases h <;> exact ⟨encS_of_fields hf ho, rfl⟩

theorem decodeMisc_sound (ho : opcodeOf w = 0b0001111#7) (h : decodeMisc w = .instr i) :
    encode i = w ∧ i.wf = true := by
  unfold decodeMisc at h
  split at h
  · next hc =>
    obtain ⟨hz, hrs1, hrd, hf⟩ := hc
    cases h
    exact ⟨encFence_of_fields hz hrs1 hrd hf ho, rfl⟩
  · split at h
    · next hc =>
      obtain ⟨himm, hrs1, hrd, hf⟩ := hc
      cases h
      exact ⟨word_eq_of_fields himm.symm hrs1.symm hf.symm hrd.symm ho.symm, rfl⟩
    · cases h

theorem decodeOpLow_sound (ho : opcodeOf w = 0b0110011#7) (hs : fn7Of w = 0#7) (h : decodeOpLow w = .instr i) :
    encode i = w ∧ i.wf = true := by
  rcases fn3_cases (fn3Of w) with hf | hf | hf | hf | hf | hf | hf | hf <;> simp only [decodeOpLow, hf] at h <;>
    cases h <;> exact ⟨encR_of_fields hs hf ho, rfl⟩

theorem decodeOpHigh_sound (ho : opcodeOf w = 0b0110011#7) (hs : fn7Of w = 0b0100000#7) (h : decodeOpHigh w = .instr i) :
    encode i = w ∧ i.wf = true := by
  rcases fn3_cases (fn3Of w) with hf | hf | hf | hf | hf | hf | hf | hf <;> simp only [decodeOpHigh, hf] at h <;>
    cases h <;> exact ⟨encR_of_fields hs hf ho, rfl⟩

theorem decodeOp_sound (ho : opcodeOf w = 0b0110011#7) (h : decodeOp w = .instr i) : encode i = w ∧ i.wf = true := by
  unfold decodeOp at h
  split at h
  · next hs => exact decodeOpLow_sound ho hs h
  · next hs => exact decodeOpHigh_sound ho hs h
  · cases h

theorem decodeOpWLow_sound (ho : opcodeOf w = 0b0111011#7) (hs : fn7Of w = 0#7) (h : decodeOpWLow w = .instr i) :
    encode i = w ∧ i.wf = true := by
  rcases fn3_cases (fn3Of w) with hf | hf | hf | hf | hf | hf | hf | hf <;> simp only [decodeOpWLow, hf] at h <;>
    cases h <;> exact ⟨encR_of_fields hs hf ho, rfl⟩

theorem decodeOpWHigh_sound (ho : opcodeOf w = 0b0111011#7) (hs : fn7Of w = 0b0100000#7) (h : decodeOpWHigh w = .instr i) :
    encode i = w ∧ i.wf = true := by
  rcases fn3_cases (fn3Of w) with hf | hf | hf | hf | hf | hf | hf | hf <;> simp only [decodeOpWHigh, hf] at h <;>
    cases h <;> exact ⟨encR_of_fields hs hf ho, rfl⟩

theorem decodeOpW_sound (ho : opcodeOf w = 0b0111011#7) (h : decodeOpW w = .instr i) : encode i = w ∧ i.wf = true := by
  unfold decodeOpW at h
  split at h
  · next hs => exact decodeOpWLow_sound ho hs h
  · next hs => exact decodeOpWHigh_sound ho hs h
  · cases h

/-- `mk` makes the immediate shifts whose words have these high bits, `fn3` and opcode (rule R187). -/
def MakesShifts (mk : RegIdx → RegIdx → BitVec 6 → Instr) (fn6 : BitVec 6) (fn3 : BitVec 3) (op : BitVec 7) : Prop :=
  ∀ rd rs1 sh, encode (mk rd rs1 sh) = encShift fn6 sh rs1 fn3 rd op ∧ (mk rd rs1 sh).wf = true

theorem MakesShifts.sound {mk : RegIdx → RegIdx → BitVec 6 → Instr} {fn6 : BitVec 6} (hmk : MakesShifts mk fn6 fn3 op)
    (hs : fn6Of w = fn6) (hf : fn3Of w = fn3) (ho : opcodeOf w = op) :
    encode (mk (rdOf w) (rs1Of w) (shamtOf w)) = w ∧ (mk (rdOf w) (rs1Of w) (shamtOf w)).wf = true := by
  obtain ⟨henc, hwf⟩ := hmk (rdOf w) (rs1Of w) (shamtOf w)
  exact ⟨henc.trans (encShift_of_fields hs hf ho), hwf⟩

theorem decodeShiftLeft_sound {mk : RegIdx → RegIdx → BitVec 6 → Instr} (ho : opcodeOf w = op) (hf : fn3Of w = fn3)
    (hmk : MakesShifts mk 0b000000#6 fn3 op) (h : decodeShiftLeft w mk = .instr i) : encode i = w ∧ i.wf = true := by
  unfold decodeShiftLeft at h
  split at h
  · next hs => cases h; exact hmk.sound hs hf ho
  · cases h
  · cases h

theorem decodeShiftRight_sound {logical arith : RegIdx → RegIdx → BitVec 6 → Instr} (ho : opcodeOf w = op)
    (hf : fn3Of w = fn3) (hl : MakesShifts logical 0b000000#6 fn3 op) (ha : MakesShifts arith 0b010000#6 fn3 op)
    (h : decodeShiftRight w logical arith = .instr i) : encode i = w ∧ i.wf = true := by
  unfold decodeShiftRight at h
  split at h
  · next hs => cases h; exact hl.sound hs hf ho
  · next hs => cases h; exact ha.sound hs hf ho
  · cases h

theorem decodeOpImm_sound (ho : opcodeOf w = 0b0010011#7) (h : decodeOpImm w = .instr i) :
    encode i = w ∧ i.wf = true := by
  rcases fn3_cases (fn3Of w) with hf | hf | hf | hf | hf | hf | hf | hf <;> simp only [decodeOpImm, hf] at h
  case inr.inl => exact decodeShiftLeft_sound ho hf (fun _ _ _ => ⟨rfl, rfl⟩) h
  case inr.inr.inr.inr.inr.inl =>
    exact decodeShiftRight_sound ho hf (fun _ _ _ => ⟨rfl, rfl⟩) (fun _ _ _ => ⟨rfl, rfl⟩) h
  all_goals cases h; exact ⟨encI_of_fields hf ho, rfl⟩

theorem decodeOpImmW_sound (ho : opcodeOf w = 0b0011011#7) (h : decodeOpImmW w = .instr i) :
    encode i = w ∧ i.wf = true := by
  rcases fn3_cases (fn3Of w) with hf | hf | hf | hf | hf | hf | hf | hf <;> simp only [decodeOpImmW, hf] at h
  case inr.inl => exact decodeShiftLeft_sound ho hf (fun _ _ _ => ⟨rfl, rfl⟩) h
  case inr.inr.inr.inr.inr.inl =>
    exact decodeShiftRight_sound ho hf (fun _ _ _ => ⟨rfl, rfl⟩) (fun _ _ _ => ⟨rfl, rfl⟩) h
  all_goals cases h; exact ⟨encI_of_fields hf ho, rfl⟩

theorem decodeEnv_sound (h : decodeEnv w = .instr i) : encode i = w ∧ i.wf = true := by
  unfold decodeEnv at h
  split at h <;> cases h <;> exact ⟨rfl, rfl⟩

theorem decodeSystem_sound (ho : opcodeOf w = 0b1110011#7) (h : decodeSystem w = .instr i) :
    encode i = w ∧ i.wf = true := by
  rcases fn3_cases (fn3Of w) with hf | hf | hf | hf | hf | hf | hf | hf <;> simp only [decodeSystem, hf] at h
  case inl => exact decodeEnv_sound h
  all_goals cases h <;> exact ⟨encI_of_fields hf ho, rfl⟩

end

/-- The thirteen major opcodes of rule R89, in the order of `decode`. -/
def majorOpcodes : List (BitVec 7) := [0b0010111#7, 0b0110111#7, 0b1101111#7, 0b1100111#7, 0b1100011#7, 0b0000011#7,
  0b0100011#7, 0b0001111#7, 0b0110011#7, 0b0111011#7, 0b0010011#7, 0b0011011#7, 0b1110011#7]

theorem decode_of_not_major {w : InstrWord} (h : opcodeOf w ∉ majorOpcodes) : decode w = .unlisted := by
  simp only [majorOpcodes, List.mem_cons, List.not_mem_nil, or_false, not_or] at h
  simp [decode, h]

theorem opcode_cases (w : InstrWord) : opcodeOf w = 0b0010111#7 ∨ opcodeOf w = 0b0110111#7 ∨ opcodeOf w = 0b1101111#7 ∨
    opcodeOf w = 0b1100111#7 ∨ opcodeOf w = 0b1100011#7 ∨ opcodeOf w = 0b0000011#7 ∨ opcodeOf w = 0b0100011#7 ∨
    opcodeOf w = 0b0001111#7 ∨ opcodeOf w = 0b0110011#7 ∨ opcodeOf w = 0b0111011#7 ∨ opcodeOf w = 0b0010011#7 ∨
    opcodeOf w = 0b0011011#7 ∨ opcodeOf w = 0b1110011#7 ∨ opcodeOf w ∉ majorOpcodes := by
  by_cases h : opcodeOf w ∈ majorOpcodes
  · simpa [majorOpcodes, or_assoc] using Or.inl (b := opcodeOf w ∉ majorOpcodes) h
  · simp only [h, not_false_eq_true, or_true]

/-- Settles O16, by the major opcode: each family's decoder drops no bit of the word. -/
theorem encodeOfDecode : Obligations.EncodeOfDecode := by
  unfold Obligations.EncodeOfDecode
  intro w i h
  rcases opcode_cases w with ho | ho | ho | ho | ho | ho | ho | ho | ho | ho | ho | ho | ho | ho
  · rw [decode_auipc ho] at h; cases h; exact ⟨by rw [encode, ← ho, encU_fields], rfl⟩
  · rw [decode_lui ho] at h; cases h; exact ⟨by rw [encode, ← ho, encU_fields], rfl⟩
  · rw [decode_jal ho] at h
    cases h
    exact ⟨by rw [encode, ← ho, encJ_fields], by simp only [Instr.wf, dispJOf_even, Bool.not_false]⟩
  · rw [decode_jalr ho] at h
    split at h
    · next hf => cases h; exact ⟨encI_of_fields hf ho, rfl⟩
    · cases h
  · exact decodeBranch_sound ho (decode_branch ho ▸ h)
  · exact decodeLoad_sound ho (decode_load ho ▸ h)
  · exact decodeStore_sound ho (decode_store ho ▸ h)
  · exact decodeMisc_sound ho (decode_misc ho ▸ h)
  · exact decodeOp_sound ho (decode_op ho ▸ h)
  · exact decodeOpW_sound ho (decode_opW ho ▸ h)
  · exact decodeOpImm_sound ho (decode_opImm ho ▸ h)
  · exact decodeOpImmW_sound ho (decode_opImmW ho ▸ h)
  · exact decodeSystem_sound ho (decode_system ho ▸ h)
  · rw [decode_of_not_major ho] at h; cases h

/-! ### Words without a meaning, family by family (rules R91, R92) -/

section
variable {w : InstrWord}

@[simp] theorem decodeBranch_undefined : decodeBranch w = .undefined ↔ fn3Of w = 0b010#3 ∨ fn3Of w = 0b011#3 := by
  rcases fn3_cases (fn3Of w) with hf | hf | hf | hf | hf | hf | hf | hf <;> simp [decodeBranch, hf]

@[simp] theorem decodeBranch_listed : decodeBranch w ≠ .unlisted := by
  unfold decodeBranch; split <;> simp

@[simp] theorem decodeLoad_defined : decodeLoad w ≠ .undefined := by
  unfold decodeLoad; split <;> simp

@[simp] theorem decodeLoad_listed : decodeLoad w ≠ .unlisted := by
  unfold decodeLoad; split <;> simp

@[simp] theorem decodeStore_undefined : decodeStore w = .undefined ↔ 4 ≤ (fn3Of w).toNat := by
  rcases fn3_cases (fn3Of w) with hf | hf | hf | hf | hf | hf | hf | hf <;> simp [decodeStore, hf]

@[simp] theorem decodeStore_listed : decodeStore w ≠ .unlisted := by
  unfold decodeStore; split <;> simp

@[simp] theorem decodeMisc_defined : decodeMisc w ≠ .undefined := by
  unfold decodeMisc
  split
  · simp
  · split <;> simp

/-- The high nibble of the immediate is clear exactly where the immediate is below 256 (rule R150). -/
theorem highNibble_eq_zero : w.extractLsb' 28 4 = 0#4 ↔ (immIOf w).toNat < 256 := by
  have hlt := w.isLt
  simp only [immIOf, ← BitVec.toNat_inj, BitVec.extractLsb'_toNat, BitVec.toNat_ofNat, Nat.shiftRight_eq_div_pow]
  omega

@[simp] theorem decodeMisc_unlisted : decodeMisc w = .unlisted ↔ rs1Of w ≠ 0#5 ∨ rdOf w ≠ 0#5 ∨ 1 < (fn3Of w).toNat ∨
    (fn3Of w = 0#3 ∧ 256 ≤ (immIOf w).toNat) ∨ (fn3Of w = 1#3 ∧ immIOf w ≠ 0#12) := by
  by_cases hrs1 : rs1Of w = 0#5 <;> by_cases hrd : rdOf w = 0#5 <;>
    rcases fn3_cases (fn3Of w) with hf | hf | hf | hf | hf | hf | hf | hf <;>
      simp [decodeMisc, highNibble_eq_zero, hf, hrs1, hrd]

@[simp] theorem decodeOpLow_defined : decodeOpLow w ≠ .undefined := by
  unfold decodeOpLow; split <;> simp

@[simp] theorem decodeOpLow_listed : decodeOpLow w ≠ .unlisted := by
  unfold decodeOpLow; split <;> simp

@[simp] theorem decodeOpHigh_undefined : decodeOpHigh w = .undefined ↔ fn3Of w ≠ 0b000#3 ∧ fn3Of w ≠ 0b101#3 := by
  rcases fn3_cases (fn3Of w) with hf | hf | hf | hf | hf | hf | hf | hf <;> simp [decodeOpHigh, hf]

@[simp] theorem decodeOpHigh_listed : decodeOpHigh w ≠ .unlisted := by
  unfold decodeOpHigh; split <;> simp

@[simp] theorem decodeOp_undefined :
    decodeOp w = .undefined ↔ fn7Of w = 0b0100000#7 ∧ fn3Of w ≠ 0b000#3 ∧ fn3Of w ≠ 0b101#3 := by
  unfold decodeOp
  split
  · next hs => simp [hs]
  · next hs => simp [hs]
  · next hhigh => exact iff_of_false (by simp) fun h => hhigh h.1

@[simp] theorem decodeOp_unlisted : decodeOp w = .unlisted ↔ fn7Of w ≠ 0#7 ∧ fn7Of w ≠ 0b0100000#7 := by
  unfold decodeOp
  split
  · next hs => simp [hs]
  · next hs => simp [hs]
  · next hlow hhigh => exact iff_of_true rfl ⟨hlow, hhigh⟩

@[simp] theorem decodeOpWLow_defined : decodeOpWLow w ≠ .undefined := by
  unfold decodeOpWLow; split <;> simp

@[simp] theorem decodeOpWLow_listed : decodeOpWLow w ≠ .unlisted := by
  unfold decodeOpWLow; split <;> simp

@[simp] theorem decodeOpWHigh_undefined : decodeOpWHigh w = .undefined ↔ fn3Of w ≠ 0b000#3 ∧ fn3Of w ≠ 0b101#3 := by
  rcases fn3_cases (fn3Of w) with hf | hf | hf | hf | hf | hf | hf | hf <;> simp [decodeOpWHigh, hf]

@[simp] theorem decodeOpWHigh_listed : decodeOpWHigh w ≠ .unlisted := by
  unfold decodeOpWHigh; split <;> simp

@[simp] theorem decodeOpW_undefined :
    decodeOpW w = .undefined ↔ fn7Of w = 0b0100000#7 ∧ fn3Of w ≠ 0b000#3 ∧ fn3Of w ≠ 0b101#3 := by
  unfold decodeOpW
  split
  · next hs => simp [hs]
  · next hs => simp [hs]
  · next hhigh => exact iff_of_false (by simp) fun h => hhigh h.1

@[simp] theorem decodeOpW_unlisted : decodeOpW w = .unlisted ↔ fn7Of w ≠ 0#7 ∧ fn7Of w ≠ 0b0100000#7 := by
  unfold decodeOpW
  split
  · next hs => simp [hs]
  · next hs => simp [hs]
  · next hlow hhigh => exact iff_of_true rfl ⟨hlow, hhigh⟩

section
variable {mk logical arith : RegIdx → RegIdx → BitVec 6 → Instr}

@[simp] theorem decodeShiftLeft_undefined : decodeShiftLeft w mk = .undefined ↔ fn6Of w = 0b010000#6 := by
  unfold decodeShiftLeft
  split
  · next hs => simp [hs]
  · next hs => simp [hs]
  · next hhigh => exact iff_of_false (by simp) hhigh

@[simp] theorem decodeShiftLeft_unlisted : decodeShiftLeft w mk = .unlisted ↔ fn6Of w ≠ 0#6 ∧ fn6Of w ≠ 0b010000#6 := by
  unfold decodeShiftLeft
  split
  · next hs => simp [hs]
  · next hs => simp [hs]
  · next hlow hhigh => exact iff_of_true rfl ⟨hlow, hhigh⟩

@[simp] theorem decodeShiftRight_defined : decodeShiftRight w logical arith ≠ .undefined := by
  unfold decodeShiftRight; split <;> simp

@[simp] theorem decodeShiftRight_unlisted :
    decodeShiftRight w logical arith = .unlisted ↔ fn6Of w ≠ 0#6 ∧ fn6Of w ≠ 0b010000#6 := by
  unfold decodeShiftRight
  split
  · next hs => simp [hs]
  · next hs => simp [hs]
  · next hlow hhigh => exact iff_of_true rfl ⟨hlow, hhigh⟩

end

@[simp] theorem decodeOpImm_undefined : decodeOpImm w = .undefined ↔ fn3Of w = 0b001#3 ∧ fn6Of w = 0b010000#6 := by
  rcases fn3_cases (fn3Of w) with hf | hf | hf | hf | hf | hf | hf | hf <;> simp [decodeOpImm, hf]

@[simp] theorem decodeOpImm_unlisted : decodeOpImm w = .unlisted ↔
    (fn3Of w = 0b001#3 ∨ fn3Of w = 0b101#3) ∧ fn6Of w ≠ 0#6 ∧ fn6Of w ≠ 0b010000#6 := by
  rcases fn3_cases (fn3Of w) with hf | hf | hf | hf | hf | hf | hf | hf <;> simp [decodeOpImm, hf]

@[simp] theorem decodeOpImmW_undefined : decodeOpImmW w = .undefined ↔ fn3Of w = 0b001#3 ∧ fn6Of w = 0b010000#6 := by
  rcases fn3_cases (fn3Of w) with hf | hf | hf | hf | hf | hf | hf | hf <;> simp [decodeOpImmW, hf]

@[simp] theorem decodeOpImmW_unlisted : decodeOpImmW w = .unlisted ↔
    (fn3Of w = 0b001#3 ∨ fn3Of w = 0b101#3) ∧ fn6Of w ≠ 0#6 ∧ fn6Of w ≠ 0b010000#6 := by
  rcases fn3_cases (fn3Of w) with hf | hf | hf | hf | hf | hf | hf | hf <;> simp [decodeOpImmW, hf]

@[simp] theorem decodeEnv_defined : decodeEnv w ≠ .undefined := by
  unfold decodeEnv; split <;> simp

theorem decodeEnv_unlisted_iff_words : decodeEnv w = .unlisted ↔
    w ≠ 0x00000073#32 ∧ w ≠ 0x00100073#32 ∧ w ≠ 0x30200073#32 ∧ w ≠ 0x10500073#32 := by
  unfold decodeEnv
  split
  · simp
  · simp
  · simp
  · simp
  · next hecall hebreak hmret hwfi => exact iff_of_true rfl ⟨hecall, hebreak, hmret, hwfi⟩

/-- A SYSTEM word with `fn3` = 000 and clear `rs1` and `rd` is known by its function code (rule R226). -/
theorem env_word_iff (ho : opcodeOf w = 0b1110011#7) (hf : fn3Of w = 0b000#3) {v : InstrWord} {c : BitVec 12}
    (hv : encI c 0#5 0b000#3 0#5 0b1110011#7 = v) : w = v ↔ rs1Of w = 0#5 ∧ rdOf w = 0#5 ∧ immIOf w = c := by
  subst hv
  constructor
  · intro h
    rw [h]
    simp
  · rintro ⟨hrs1, hrd, himm⟩
    exact word_eq_of_fields (by simp [himm]) (by simp [hrs1]) (by simp [hf]) (by simp [hrd]) (by simp [ho])

theorem decodeEnv_unlisted (ho : opcodeOf w = 0b1110011#7) (hf : fn3Of w = 0b000#3) : decodeEnv w = .unlisted ↔
    rs1Of w ≠ 0#5 ∨ rdOf w ≠ 0#5 ∨ immIOf w ∉ [0x000#12, 0x001#12, 0x302#12, 0x105#12] := by
  have hecall := env_word_iff ho hf (v := 0x00000073#32) (c := 0x000#12) (by decide)
  have hebreak := env_word_iff ho hf (v := 0x00100073#32) (c := 0x001#12) (by decide)
  have hmret := env_word_iff ho hf (v := 0x30200073#32) (c := 0x302#12) (by decide)
  have hwfi := env_word_iff ho hf (v := 0x10500073#32) (c := 0x105#12) (by decide)
  rw [decodeEnv_unlisted_iff_words]
  by_cases hrs1 : rs1Of w = 0#5 <;> by_cases hrd : rdOf w = 0#5 <;> simp [hecall, hebreak, hmret, hwfi, hrs1, hrd]

@[simp] theorem decodeSystem_defined : decodeSystem w ≠ .undefined := by
  unfold decodeSystem; split <;> simp

theorem decodeSystem_unlisted (ho : opcodeOf w = 0b1110011#7) : decodeSystem w = .unlisted ↔
    fn3Of w = 0b100#3 ∨ (fn3Of w = 0b000#3 ∧
      (rs1Of w ≠ 0#5 ∨ rdOf w ≠ 0#5 ∨ immIOf w ∉ [0x000#12, 0x001#12, 0x302#12, 0x105#12])) := by
  rcases fn3_cases (fn3Of w) with hf | hf | hf | hf | hf | hf | hf | hf
  case inl => rw [← decodeEnv_unlisted ho hf]; simp [decodeSystem, hf]
  all_goals simp [decodeSystem, hf]

end

/-- Settles O19, by the major opcode and what each family leaves undefined. -/
theorem undefinedEncodings : Obligations.UndefinedEncodings := by
  unfold Obligations.UndefinedEncodings
  intro w
  rcases opcode_cases w with ho | ho | ho | ho | ho | ho | ho | ho | ho | ho | ho | ho | ho | ho
  · simp [decode_auipc ho, ho]
  · simp [decode_lui ho, ho]
  · simp [decode_jal ho, ho]
  · rw [decode_jalr ho]; split <;> simp [ho]
  · simp [decode_branch ho, ho]
  · simp [decode_load ho, ho]
  · simp [decode_store ho, ho]
  · simp [decode_misc ho, ho]
  · simp [decode_op ho, ho]
  · simp [decode_opW ho, ho]
  · simp [decode_opImm ho, ho]
  · simp [decode_opImmW ho, ho]
  · simp [decode_system ho, ho]
  · rw [decode_of_not_major ho]
    simp only [majorOpcodes, List.mem_cons, List.not_mem_nil, or_false, not_or] at ho
    simp [ho]

/-- Settles O20, by the major opcode and what each family leaves unlisted. -/
theorem unlistedEncodings : Obligations.UnlistedEncodings := by
  unfold Obligations.UnlistedEncodings
  intro w
  rcases opcode_cases w with ho | ho | ho | ho | ho | ho | ho | ho | ho | ho | ho | ho | ho | ho
  · simp [decode_auipc ho, ho]
  · simp [decode_lui ho, ho]
  · simp [decode_jal ho, ho]
  · rw [decode_jalr ho]; split <;> simp [*]
  · simp [decode_branch ho, ho]
  · simp [decode_load ho, ho]
  · simp [decode_store ho, ho]
  · simp [decode_misc ho, ho]
  · simp [decode_op ho, ho]
  · simp [decode_opW ho, ho]
  · simp [decode_opImm ho, ho]
  · simp [decode_opImmW ho, ho]
  · rw [decode_system ho, decodeSystem_unlisted ho]; simp [ho]
  · exact iff_of_true (decode_of_not_major ho) (.inl ho)

end Sys2Proof

namespace Sys2Proof.Machine

/-- Settles O9: the fetch reads `w` from memory, and `ENC_POLICY` answers. -/
theorem encodingWithoutMeaning : Obligations.EncodingWithoutMeaning := by
  unfold Obligations.EncodingWithoutMeaning
  rintro s w ⟨hno, hmod, ⟨hadmit, hmem⟩, hholds⟩
  have hfetch : fetchWord s.sampleMip = w := fetchWord_eq _ w hmem hholds
  have hal : pcAligned s.sampleMip = true := pcAligned_of_mod hmod
  rw [step_eq_runInstr hno, ← beginInstr_of_memory hmem, ← hfetch]
  refine ⟨fun hdec => ?_, fun hdec => ?_⟩
  · rw [runInstr_of_undefined hal hadmit hdec]
    exact rejectEncoding_rejectedAs
  · rw [runInstr_of_unlisted hal hadmit hdec]
    exact rejectEncoding_rejectedAs

/-! ### Words field by field

A claim's field values are numbers; each stands for a bit vector of its field's width, which it must fit. -/

section
variable {i : Instr} {rd rs1 rs2 : RegIdx} {imm : BitVec 12} {fn7 fn3 op : Nat}

theorem encodedAs_fieldsI (hwf : i.wf = true) (h : encode i = encI imm rs1 (BitVec.ofNat 3 fn3) rd (BitVec.ofNat 7 op))
    (h3 : fn3 < 2 ^ 3 := by decide) (hop : op < 2 ^ 7 := by decide) : EncodedAs i (fieldsI fn3 op rd rs1 imm) := by
  have hfields := fields_encI imm rs1 (BitVec.ofNat 3 fn3) rd (BitVec.ofNat 7 op)
  rw [BitVec.toNat_ofNat, BitVec.toNat_ofNat, Nat.mod_eq_of_lt h3, Nat.mod_eq_of_lt hop, ← h] at hfields
  exact ⟨hfields, decodeOfEncode i hwf⟩

theorem encodedAs_fieldsS (hwf : i.wf = true) (h : encode i = encS imm rs2 rs1 (BitVec.ofNat 3 fn3) (BitVec.ofNat 7 op))
    (h3 : fn3 < 2 ^ 3 := by decide) (hop : op < 2 ^ 7 := by decide) : EncodedAs i (fieldsS fn3 op rs1 rs2 imm) := by
  have hfields := fields_encS imm rs2 rs1 (BitVec.ofNat 3 fn3) (BitVec.ofNat 7 op)
  rw [BitVec.toNat_ofNat, BitVec.toNat_ofNat, Nat.mod_eq_of_lt h3, Nat.mod_eq_of_lt hop, ← h] at hfields
  exact ⟨hfields, decodeOfEncode i hwf⟩

theorem encodedAs_fieldsR (hwf : i.wf = true)
    (h : encode i = encR (BitVec.ofNat 7 fn7) rs2 rs1 (BitVec.ofNat 3 fn3) rd (BitVec.ofNat 7 op))
    (h7 : fn7 < 2 ^ 7 := by decide) (h3 : fn3 < 2 ^ 3 := by decide) (hop : op < 2 ^ 7 := by decide) :
    EncodedAs i (fieldsR fn7 fn3 op rd rs1 rs2) := by
  have hfields := fields_encR (BitVec.ofNat 7 fn7) rs2 rs1 (BitVec.ofNat 3 fn3) rd (BitVec.ofNat 7 op)
  rw [BitVec.toNat_ofNat, BitVec.toNat_ofNat, BitVec.toNat_ofNat, Nat.mod_eq_of_lt h7, Nat.mod_eq_of_lt h3,
    Nat.mod_eq_of_lt hop, ← h] at hfields
  exact ⟨hfields, decodeOfEncode i hwf⟩

end

/-- Settles O18: `encode` writes each instruction in its format, whose fields are known. -/
theorem encodingTables : Obligations.EncodingTables := by
  unfold Obligations.EncodingTables
  intro rd rs1 rs2 f imm csr
  simp only [List.forall_mem_cons, List.not_mem_nil, false_implies, implies_true, and_true]
  refine ⟨?loads, ?stores, ?unnamedRegister, ?unnamedImmediate, ?csrs⟩
  case loads => refine ⟨?_, ?_, ?_, ?_, ?_, ?_, ?_, ?_⟩ <;> exact encodedAs_fieldsI rfl rfl
  case stores => refine ⟨?_, ?_, ?_, ?_⟩ <;> exact encodedAs_fieldsS rfl rfl
  case unnamedRegister => refine ⟨?_, ?_, ?_, ?_, ?_⟩ <;> exact encodedAs_fieldsR rfl rfl
  case unnamedImmediate => refine ⟨?_, ?_, ?_, ?_, ?_⟩ <;> exact encodedAs_fieldsI rfl rfl
  case csrs => refine ⟨?_, ?_, ?_, ?_, ?_, ?_⟩ <;> exact encodedAs_fieldsI rfl rfl

end Sys2Proof.Machine

namespace Sys2Proof.Machine

/-! ### AUIPC -/

theorem exec_auipc (rd : RegIdx) (imm : BitVec 20) (s : State) :
    exec (.auipc rd imm) s = .next (s.setX rd (s.ia + upperImm imm)) := rfl

/-- An instruction whose next state is a register write completes with that value and with nothing else changed. -/
theorem computes_of_exec_eq_setX {s : State} {i : Instr} {rd : RegIdx} {v : Word} (h : exec i s = .next (s.setX rd v)) :
    Computes s i rd v :=
  ⟨s.setX rd v, h, setX_writesOnly s rd v⟩

theorem add_upperImm_eq_ofInt (a : Word) (imm : BitVec 20) :
    a + upperImm imm = BitVec.ofInt 64 (a.toInt + imm.toInt * 4096) := by
  rw [BitVec.ofInt_add, BitVec.ofInt_toInt, upperImm_eq_ofInt]

theorem encodedAs_fieldsU {i : Instr} {rd : RegIdx} {imm : BitVec 20} {op : Nat} (hwf : i.wf = true)
    (h : encode i = encU imm rd (BitVec.ofNat 7 op)) (hop : op < 2 ^ 7 := by decide) : EncodedAs i (fieldsU op rd imm) := by
  have hfields := fields_encU imm rd (BitVec.ofNat 7 op)
  rw [BitVec.toNat_ofNat, Nat.mod_eq_of_lt hop, ← h] at hfields
  exact ⟨hfields, decodeOfEncode i hwf⟩

/-- Settles O26: `rd` takes `ia` plus the upper immediate, a sum of integers modulo 2^64, and the word is of format U. -/
theorem auipcResult : Obligations.AuipcResult := by
  unfold Obligations.AuipcResult
  intro s rd imm
  constructor
  · rw [← add_upperImm_eq_ofInt]
    exact computes_of_exec_eq_setX (exec_auipc rd imm s)
  · exact encodedAs_fieldsU rfl rfl

end Sys2Proof.Machine

namespace Sys2Proof.Machine

/-! ### The six branches -/

section
variable (a b : Word)

/-! The six conditions compare the registers' values as numbers (rules R116 to R121). -/

theorem Cond.holds_eq : Cond.eq.holds a b = decide (a.toNat = b.toNat) := by
  simp only [Cond.holds, beq_eq_decide, BitVec.toNat_inj]

theorem Cond.holds_ne : Cond.ne.holds a b = decide (a.toNat ≠ b.toNat) := by
  simp only [Cond.holds, bne, beq_eq_decide, ne_eq, decide_not, BitVec.toNat_inj]

theorem Cond.holds_lt : Cond.lt.holds a b = decide (a.toInt < b.toInt) := rfl

theorem Cond.holds_ge : Cond.ge.holds a b = decide (b.toInt ≤ a.toInt) := by
  simp [Cond.holds, ltSigned, BitVec.slt, ← decide_not]

theorem Cond.holds_ltu : Cond.ltu.holds a b = decide (a.toNat < b.toNat) := rfl

theorem Cond.holds_geu : Cond.geu.holds a b = decide (b.toNat ≤ a.toNat) := by
  simp [Cond.holds, ltUnsigned, BitVec.ult, ← decide_not]

end

/-- Each of the six forms runs as `branch` under a condition that holds exactly when the form's third component says so. -/
theorem exec_branchForms {s : State} {rs1 rs2 : RegIdx} {d : BitVec 13} {b : Instr × Nat × Bool}
    (hb : b ∈ branchForms s rs1 rs2 d) :
    ∃ c : Cond, exec b.1 s = branch c rs1 rs2 d s ∧ c.holds (s.x rs1) (s.x rs2) = b.2.2 := by
  revert b
  simp only [branchForms, List.forall_mem_cons, List.not_mem_nil, false_implies, implies_true, and_true]
  exact ⟨⟨.eq, rfl, Cond.holds_eq ..⟩, ⟨.ne, rfl, Cond.holds_ne ..⟩, ⟨.lt, rfl, Cond.holds_lt ..⟩, ⟨.ge, rfl, Cond.holds_ge ..⟩,
    ⟨.ltu, rfl, Cond.holds_ltu ..⟩, ⟨.geu, rfl, Cond.holds_geu ..⟩⟩

theorem relTarget_eq_ofInt {n : Nat} (s : State) (d : BitVec n) : relTarget s d = BitVec.ofInt 64 (s.ia.toInt + d.toInt) :=
  add_sext_eq_ofInt s.ia d

/-- A register write followed by an assignment of `pc` is a jump that links, and nothing else. -/
theorem jumpsTo_of_exec_eq_setX_setPc {s : State} {i : Instr} {rd : RegIdx} {v target : Word}
    (h : exec i s = .next ((s.setX rd v).setPc target)) : JumpsTo s i rd v target := by
  obtain ⟨hregs, ⟨-, hia⟩, hcsrs, henv, hmem⟩ := setX_writesOnly s rd v
  exact ⟨_, h, rfl, fun j => (setPc_x _ target j).trans (hregs j), hia, hcsrs, henv, hmem⟩

/-- An instruction that only assigns `pc` is a jump whose link goes to `X0`, where a write is discarded (rule R21). -/
theorem jumpsTo_of_exec_eq_setPc {s : State} {i : Instr} {target : Word} (h : exec i s = .next (s.setPc target)) :
    JumpsTo s i 0#5 0#64 target :=
  jumpsTo_of_exec_eq_setX_setPc (by rw [setX_zero]; exact h)

theorem encodedAs_fieldsB {i : Instr} {rs1 rs2 : RegIdx} {d : BitVec 13} {fn3 op : Nat} (hwf : i.wf = true)
    (h : encode i = encB d rs2 rs1 (BitVec.ofNat 3 fn3) (BitVec.ofNat 7 op))
    (h3 : fn3 < 2 ^ 3 := by decide) (hop : op < 2 ^ 7 := by decide) : EncodedAs i (fieldsB fn3 op rs1 rs2 d) := by
  have hfields := fields_encB d rs2 rs1 (BitVec.ofNat 3 fn3) (BitVec.ofNat 7 op)
  rw [BitVec.toNat_ofNat, BitVec.toNat_ofNat, Nat.mod_eq_of_lt h3, Nat.mod_eq_of_lt hop, ← h] at hfields
  exact ⟨hfields, decodeOfEncode i hwf⟩

/-- Each of the six forms is well-formed where its displacement is even, and its word is of format B. -/
theorem encodedAs_branchForms {s : State} {rs1 rs2 : RegIdx} {d : BitVec 13} {b : Instr × Nat × Bool}
    (hb : b ∈ branchForms s rs1 rs2 d) (hd : d.getLsbD 0 = false) : EncodedAs b.1 (fieldsB b.2.1 0b1100011 rs1 rs2 d) := by
  have heven : (!d.getLsbD 0) = true := by rw [hd, Bool.not_false]
  revert b
  simp only [branchForms, List.forall_mem_cons, List.not_mem_nil, false_implies, implies_true, and_true]
  refine ⟨?beq, ?bne, ?blt, ?bge, ?bltu, ?bgeu⟩ <;> exact encodedAs_fieldsB heven rfl

/-- Settles O28: a branch assigns `pc` alone, one of two sums of integers modulo 2^64, and the word is of format B. -/
theorem branches : Obligations.Branches := by
  unfold Obligations.Branches
  intro s rs1 rs2 d b hb
  constructor
  · obtain ⟨c, hexec, hcond⟩ := exec_branchForms hb
    rw [← hcond, ← relTarget_eq_ofInt, ← lineSuccessor_eq_ofInt]
    exact jumpsTo_of_exec_eq_setPc hexec
  · exact encodedAs_branchForms hb

end Sys2Proof.Machine

namespace Sys2Proof.Machine

/-! ### JAL and JALR -/

theorem exec_jal (rd : RegIdx) (d : BitVec 21) (s : State) :
    exec (.jal rd d) s = .next ((s.setX rd (lineSuccessor s)).setPc (relTarget s d)) := rfl

/-- The target is read from the base register as it stands before the link is written, also where `rd` is `rs1`
(decision D9). -/
theorem exec_jalr (rd rs1 : RegIdx) (imm : BitVec 12) (s : State) :
    exec (.jalr rd rs1 imm) s = .next ((s.setX rd (lineSuccessor s)).setPc (baseDisp s rs1 imm)) := rfl

theorem baseDisp_eq_ofInt (s : State) (rs1 : RegIdx) (imm : BitVec 12) :
    baseDisp s rs1 imm = BitVec.ofInt 64 ((s.x rs1).toInt + imm.toInt) :=
  add_sext_eq_ofInt (s.x rs1) imm

theorem encodedAs_fieldsJ {i : Instr} {rd : RegIdx} {d : BitVec 21} {op : Nat} (hwf : i.wf = true)
    (h : encode i = encJ d rd (BitVec.ofNat 7 op)) (hop : op < 2 ^ 7 := by decide) : EncodedAs i (fieldsJ op rd d) := by
  have hfields := fields_encJ d rd (BitVec.ofNat 7 op)
  rw [BitVec.toNat_ofNat, Nat.mod_eq_of_lt hop, ← h] at hfields
  exact ⟨hfields, decodeOfEncode i hwf⟩

/-- A JAL is well-formed where its displacement is even: the word holds no bit 0 of it (rule R84). -/
theorem jal_wf {d : BitVec 21} (rd : RegIdx) (hd : d.getLsbD 0 = false) : (Instr.jal rd d).wf = true := by
  rw [Instr.wf, hd, Bool.not_false]

/-- Settles O29: the link and the target are sums of integers modulo 2^64, and the word is of format J. -/
theorem jalLinksAndJumps : Obligations.JalLinksAndJumps := by
  unfold Obligations.JalLinksAndJumps
  intro s rd d
  constructor
  · rw [← lineSuccessor_eq_ofInt, ← relTarget_eq_ofInt]
    exact jumpsTo_of_exec_eq_setX_setPc (exec_jal rd d s)
  · intro hd
    exact encodedAs_fieldsJ (jal_wf rd hd) rfl

/-- Settles O30: the link and the target, from the old base register, are sums of integers modulo 2^64, and the word is of
format I. -/
theorem jalrLinksAndJumps : Obligations.JalrLinksAndJumps := by
  unfold Obligations.JalrLinksAndJumps
  intro s rd rs1 imm
  constructor
  · rw [← lineSuccessor_eq_ofInt, ← baseDisp_eq_ofInt]
    exact jumpsTo_of_exec_eq_setX_setPc (exec_jalr rd rs1 imm s)
  · exact encodedAs_fieldsI rfl rfl

end Sys2Proof.Machine

namespace Sys2Proof.Machine

/-! ### The address of an access, and loads into register 0 -/

/-- Settles O31: `baseDisp` adds the sign-extended displacement, and that is the sum of the integers modulo 2^64. -/
theorem effectiveAddress : Obligations.EffectiveAddress := by
  unfold Obligations.EffectiveAddress
  exact baseDisp_eq_ofInt

theorem aligned_iff (a : Word) (n : Nat) : aligned a n = true ↔ a.toNat % n = 0 := by
  rw [aligned, beq_iff_eq]

section
variable {s : State}

theorem loadX0_noAccess (h : s.cfg.x0Load = .noAccess) (a : Word) (n : Nat) : loadX0 a n s = .next s := by
  rw [loadX0, h]

/-- The cautious setting: the load goes on exactly where it could neither be misaligned nor reach a device (rule R139). -/
theorem loadX0_refuseWhereItMatters (h : s.cfg.x0Load = .refuseWhereItMatters) (a : Word) (n : Nat) :
    loadX0 a n s =
      if a.toNat % n = 0 ∧ touchesDevice s.cfg n a = false then .next s else .refused .ambiguousX0Load := by
  rw [loadX0, h]
  simp only [Bool.and_eq_true, aligned_iff, Bool.not_eq_true']

end

/-- Every load form with `rd` 0 goes to `loadX0`, whatever its size and its extension. -/
theorem exec_loadForms_x0 {rs1 : RegIdx} {imm : BitVec 12} {l : Instr × Nat × Bool} (hl : l ∈ loadForms 0#5 rs1 imm)
    (s : State) : exec l.1 s = loadX0 (baseDisp s rs1 imm) l.2.1 s := by
  obtain ⟨sz, ext, hn, hexec, -⟩ := loadForms_exec 0#5 rs1 imm l hl
  rw [hexec, load, if_pos rfl, hn]

/-- Settles O37, by the two settings of `cfg.x0Load`. -/
theorem loadIntoX0 : Obligations.LoadIntoX0 := by
  unfold Obligations.LoadIntoX0
  intro s rs1 imm l hl
  rw [exec_loadForms_x0 hl]
  exact ⟨fun h => loadX0_noAccess h _ _, fun h => loadX0_refuseWhereItMatters h _ _⟩

end Sys2Proof.Machine

namespace Sys2Proof.Machine

/-! ### LUI -/

theorem exec_lui (rd : RegIdx) (imm : BitVec 20) (s : State) :
    exec (.lui rd imm) s = .next (s.setX rd (upperImm imm)) := rfl

/-- Settles O27: `rd` takes the upper immediate, the field times 4096 as an integer, and the word is of format U. -/
theorem luiResult : Obligations.LuiResult := by
  unfold Obligations.LuiResult
  intro s rd imm
  constructor
  · rw [← upperImm_eq_ofInt]
    exact computes_of_exec_eq_setX (exec_lui rd imm s)
  · exact encodedAs_fieldsU rfl rfl

end Sys2Proof.Machine

namespace Sys2Proof.Machine

/-! ### FENCE, FENCE.I and WFI -/

theorem exec_fence (pppp ssss : BitVec 4) (s : State) : exec (.fence pppp ssss) s = .next s := rfl

theorem exec_fenceI (s : State) : exec .fenceI s = .next s := rfl

theorem exec_wfi (s : State) : exec .wfi s = .next s := rfl

/-- Of all 32 bits of a FENCE word only its two nibbles are the instruction's own (rule R150). -/
theorem fields_encFence (pppp ssss : BitVec 4) :
    ∀ f ∈ [(28, 4, 0), (24, 4, pppp.toNat), (20, 4, ssss.toNat), (15, 5, 0), (12, 3, 0), (7, 5, 0), (0, 7, 0b0001111)],
      ((encFence pppp ssss).extractLsb' f.1 f.2.1).toNat = f.2.2 := by
  simp only [List.forall_mem_cons, List.not_mem_nil, false_implies, implies_true, and_true]
  exact ⟨congrArg BitVec.toNat (zero_encFence ..), congrArg BitVec.toNat (pppp_encFence ..),
    congrArg BitVec.toNat (ssss_encFence ..), congrArg BitVec.toNat (rs1Of_encFence ..),
    congrArg BitVec.toNat (fn3Of_encFence ..), congrArg BitVec.toNat (rdOf_encFence ..),
    congrArg BitVec.toNat (opcodeOf_encFence ..)⟩

/-- A well-formed instruction has the word `encode` gives it: decoding that word gives the instruction back. -/
theorem hasWord_of_encode {i : Instr} {w : InstrWord} (hwf : i.wf = true) (h : encode i = w) : HasWord i w :=
  ⟨h, h ▸ decodeOfEncode i hwf⟩

/-- Settles O42: each of the three answers the state it is performed at; FENCE's word is known field by field, the other two
words are constants. -/
theorem fencesAndWfi : Obligations.FencesAndWfi := by
  unfold Obligations.FencesAndWfi
  intro s
  refine ⟨fun pppp ssss => ⟨exec_fence pppp ssss s, ?fields, ?decodes⟩, exec_fenceI s, ?fenceIWord, exec_wfi s, ?wfiWord⟩
  case fields => exact fields_encFence pppp ssss
  case decodes => exact decodeOfEncode (.fence pppp ssss) rfl
  case fenceIWord => exact hasWord_of_encode rfl rfl
  case wfiWord => exact hasWord_of_encode rfl rfl

end Sys2Proof.Machine

namespace Sys2Proof.Machine

/-! ### `Operation` as numbers and bit by bit

One equation per value of `fn4` (rule R155): the arithmetic ones as numbers, the logical ones and the shifts bit by bit. The
count of a shift is named by a hypothesis, since a register and an immediate give it in two ways. -/

section
variable (a b : Word)

theorem operation_add : operation .add a b = BitVec.ofNat 64 (a.toNat + b.toNat) := by
  rw [BitVec.ofNat_add, BitVec.ofNat_toNat, BitVec.ofNat_toNat, BitVec.setWidth_eq, BitVec.setWidth_eq, operation]

theorem operation_sub : operation .sub a b = BitVec.ofInt 64 (a.toInt - b.toInt) := sub_eq_ofInt a b

theorem operation_slt : operation .slt a b = if a.toInt < b.toInt then 1#64 else 0#64 := ltSigned_word a b

theorem operation_sltu : operation .sltu a b = if a.toNat < b.toNat then 1#64 else 0#64 := ltUnsigned_word a b

theorem operation_xor_bit (j : Nat) : (operation .xor a b).getLsbD j = (a.getLsbD j != b.getLsbD j) :=
  BitVec.getLsbD_xor

theorem operation_or_bit (j : Nat) : (operation .or a b).getLsbD j = (a.getLsbD j || b.getLsbD j) :=
  BitVec.getLsbD_or

theorem operation_and_bit (j : Nat) : (operation .and a b).getLsbD j = (a.getLsbD j && b.getLsbD j) :=
  BitVec.getLsbD_and

variable {a b} {k j : Nat}

theorem operation_sll_bit (hk : k = b.toNat % 64) (hj : j < 64) :
    (operation .sll a b).getLsbD j = (decide (k ≤ j) && a.getLsbD (j - k)) := by
  rw [operation, shiftCount_eq, ← hk, shiftLeft_bit a k j hj]

theorem operation_srl_bit (hk : k = b.toNat % 64) :
    (operation .srl a b).getLsbD j = (decide (j + k < 64) && a.getLsbD (j + k)) := by
  rw [operation, shiftCount_eq, ← hk, ushiftRight_bit]

theorem operation_sra_bit (hk : k = b.toNat % 64) (hj : j < 64) :
    (operation .sra a b).getLsbD j = a.getLsbD (min (j + k) 63) := by
  rw [operation, shiftCount_eq, ← hk, sshiftRight_bit a k j hj]

end

/-- An instruction whose next state is a register write completes with the bits of the value written. -/
theorem computesBits_of_exec_eq_setX {s : State} {i : Instr} {rd : RegIdx} {v : Word} {f : Nat → Bool}
    (h : exec i s = .next (s.setX rd v)) (hv : ∀ j, j < 64 → v.getLsbD j = f j) : ComputesBits s i rd f :=
  ⟨v, hv, computes_of_exec_eq_setX h⟩

/-- Settles O43: each of the seven runs as `opReg` of its `fn4`, whose result is known, and its word is of format R. -/
theorem registerArithmetic : Obligations.RegisterArithmetic := by
  unfold Obligations.RegisterArithmetic
  intro s rd rs1 rs2
  rw [← operation_add, ← operation_sub, ← operation_slt, ← operation_sltu]
  refine ⟨⟨?add, ?_⟩, ⟨?sub, ?_⟩, ⟨?slt, ?_⟩, ⟨?sltu, ?_⟩, ⟨?xor, ?_⟩, ⟨?or, ?_⟩, ⟨?and, ?_⟩⟩
  case add | sub | slt | sltu => exact computes_of_exec_eq_setX rfl
  case xor => exact computesBits_of_exec_eq_setX rfl fun j _ => operation_xor_bit _ _ j
  case or => exact computesBits_of_exec_eq_setX rfl fun j _ => operation_or_bit _ _ j
  case and => exact computesBits_of_exec_eq_setX rfl fun j _ => operation_and_bit _ _ j
  all_goals exact encodedAs_fieldsR rfl rfl

/-- Settles O44: each of the three runs as `opReg` of its `fn4`, whose bits are known, and its word is of format R. -/
theorem registerShifts : Obligations.RegisterShifts := by
  unfold Obligations.RegisterShifts
  intro s rd rs1 rs2 k hk
  refine ⟨⟨?sll, ?_⟩, ⟨?srl, ?_⟩, ⟨?sra, ?_⟩⟩
  case sll => exact computesBits_of_exec_eq_setX rfl fun j hj => operation_sll_bit hk hj
  case srl => exact computesBits_of_exec_eq_setX rfl fun j _ => operation_srl_bit hk
  case sra => exact computesBits_of_exec_eq_setX rfl fun j hj => operation_sra_bit hk hj
  all_goals exact encodedAs_fieldsR rfl rfl

end Sys2Proof.Machine

namespace Sys2Proof.Machine

/-! ### The `w` forms: sums and differences -/

theorem wOperation_add (sem : WSemantics) (a b : Word) : wOperation sem .add a b = sextLow32 (a + b) := by
  cases sem <;> rfl

theorem wOperation_sub (sem : WSemantics) (a b : Word) : wOperation sem .sub a b = sextLow32 (a - b) := by
  cases sem <;> rfl

/-- Reducing modulo 2^64 first does not show in the low 32 bits. -/
theorem bmod_word_bmod_low32 (x : Int) : (x.bmod (2 ^ 64)).bmod (2 ^ 32) = x.bmod (2 ^ 32) :=
  Int.bmod_bmod_of_dvd (by decide)

theorem sextLow32_add (a b : Word) : sextLow32 (a + b) = BitVec.ofInt 64 ((a.toInt + b.toInt).bmod (2 ^ 32)) := by
  rw [sextLow32_eq_ofInt, BitVec.toInt_add, bmod_word_bmod_low32]

theorem sextLow32_sub (a b : Word) : sextLow32 (a - b) = BitVec.ofInt 64 ((a.toInt - b.toInt).bmod (2 ^ 32)) := by
  rw [sextLow32_eq_ofInt, BitVec.toInt_sub, bmod_word_bmod_low32]

/-- Sign extension keeps the signed value (rule R10). -/
theorem toInt_sext {n : Nat} (v : BitVec n) (h : n ≤ 64 := by decide) : (sext v).toInt = v.toInt :=
  BitVec.toInt_signExtend_of_le h

/-- Settles O45: under either `W_SEMANTICS` the result is the low word of the 64-bit sum or difference, sign-extended, and
that is the signed 32-bit number; the words are of formats R and I. -/
theorem wordArithmetic : Obligations.WordArithmetic := by
  unfold Obligations.WordArithmetic
  intro s rd rs1 rs2 imm
  rw [← toInt_sext imm, ← sextLow32_add, ← sextLow32_sub, ← sextLow32_add, ← wOperation_add s.cfg.wSemantics,
    ← wOperation_sub s.cfg.wSemantics, ← wOperation_add s.cfg.wSemantics]
  refine ⟨⟨?addw, encodedAs_fieldsR rfl rfl⟩, ⟨?subw, encodedAs_fieldsR rfl rfl⟩,
    ⟨?addiw, encodedAs_fieldsI rfl rfl⟩⟩
  case addw | subw | addiw => exact computes_of_exec_eq_setX rfl

end Sys2Proof.Machine

namespace Sys2Proof.Machine

/-! ### The `w` shifts, bit by bit

A `w` form's bit `j` is bit `min j 31` of a result before the last sign extension. Under `source_literal` that is the 64-bit
shift by a 6-bit count; under `rv64i_standard` it is the shift of the low word by a 5-bit count (rule R167). -/

section
variable {a b : Word} {k j : Nat}

theorem wLiteral_bit (f : Fn4) (a b : Word) (hj : j < 64) :
    (wLiteral f a b).getLsbD j = (operation f a b).getLsbD (min j 31) :=
  sextLow32_bit _ j hj

theorem wLiteral_sll_bit (hk : k = b.toNat % 64) (hj : j < 64) :
    (wLiteral .sll a b).getLsbD j = (decide (k ≤ min j 31) && a.getLsbD (min j 31 - k)) := by
  rw [wLiteral_bit _ a b hj, operation_sll_bit hk (by omega)]

theorem wLiteral_srl_bit (hk : k = b.toNat % 64) (hj : j < 64) :
    (wLiteral .srl a b).getLsbD j = (decide (min j 31 + k < 64) && a.getLsbD (min j 31 + k)) := by
  rw [wLiteral_bit _ a b hj, operation_srl_bit hk]

theorem wLiteral_sra_bit (hk : k = b.toNat % 64) (hj : j < 64) :
    (wLiteral .sra a b).getLsbD j = a.getLsbD (min (min j 31 + k) 63) := by
  rw [wLiteral_bit _ a b hj, operation_sra_bit hk (by omega)]

theorem wStandard_sll_bit (hk : k = b.toNat % 32) (hj : j < 64) :
    (wStandard .sll a b).getLsbD j = (decide (k ≤ min j 31) && a.getLsbD (min j 31 - k)) := by
  rw [wStandard, shiftCount5_eq, ← hk, sext32_bit _ j hj, shiftLeft32_bit _ _ _ (by omega)]

theorem wStandard_srl_bit (hk : k = b.toNat % 32) (hj : j < 64) :
    (wStandard .srl a b).getLsbD j = (decide (min j 31 + k < 32) && a.getLsbD (min j 31 + k)) := by
  rw [wStandard, shiftCount5_eq, ← hk, sext32_bit _ j hj, ushiftRight32_bit]

theorem wStandard_sra_bit (hk : k = b.toNat % 32) (hj : j < 64) :
    (wStandard .sra a b).getLsbD j = a.getLsbD (min (min j 31 + k) 31) := by
  rw [wStandard, shiftCount5_eq, ← hk, sext32_bit _ j hj, sshiftRight32_bit _ _ _ (by omega)]

end

/-! ### The counts of the immediate shifts -/

section
variable (sh : BitVec 6)

theorem toNat_shiftImm : (shiftImm sh).toNat = sh.toNat :=
  BitVec.toNat_setWidth_of_le (by decide)

theorem shiftImm_count : sh.toNat = (shiftImm sh).toNat % 64 := by
  rw [toNat_shiftImm, Nat.mod_eq_of_lt sh.isLt]

theorem shiftImm_count5 (h : sh.toNat < 32) : sh.toNat = (shiftImm sh).toNat % 32 := by
  rw [toNat_shiftImm, Nat.mod_eq_of_lt h]

theorem shamt_bit5_iff : sh.getLsbD 5 = true ↔ 32 ≤ sh.toNat := by
  have hmsb : sh.msb = sh.getLsbD 5 := BitVec.msb_eq_getLsbD_last sh
  rw [← hmsb, BitVec.msb_eq_decide, decide_eq_true_iff]

end

/-! ### The `w` forms under each reading -/

section
variable {s : State} (f : Fn4) (rd rs1 rs2 : RegIdx) (sh : BitVec 6)

theorem opRegW_sourceLiteral (h : s.cfg.wSemantics = .sourceLiteral) :
    opRegW f rd rs1 rs2 s = .next (s.setX rd (wLiteral f (s.x rs1) (s.x rs2))) := by
  rw [opRegW, h, wOperation]

theorem opRegW_rv64iStandard (h : s.cfg.wSemantics = .rv64iStandard) :
    opRegW f rd rs1 rs2 s = .next (s.setX rd (wStandard f (s.x rs1) (s.x rs2))) := by
  rw [opRegW, h, wOperation]

theorem opShiftImmW_sourceLiteral (h : s.cfg.wSemantics = .sourceLiteral) :
    opShiftImmW f rd rs1 sh s = .next (s.setX rd (wLiteral f (s.x rs1) (shiftImm sh))) := by
  rw [opShiftImmW, if_neg (by simp [h]), h, wOperation]

theorem opShiftImmW_rv64iStandard (h : s.cfg.wSemantics = .rv64iStandard) (hsh : sh.toNat < 32) :
    opShiftImmW f rd rs1 sh s = .next (s.setX rd (wStandard f (s.x rs1) (shiftImm sh))) := by
  have hbit : ¬ sh.getLsbD 5 = true := by rw [shamt_bit5_iff]; omega
  rw [opShiftImmW, if_neg fun hreserved => hbit hreserved.2, h, wOperation]

/-- RV64I reserves a count of 32 or more in an immediate `w` shift (assumption log 13). -/
theorem opShiftImmW_reserved (h : s.cfg.wSemantics = .rv64iStandard) (hsh : 32 ≤ sh.toNat) :
    opShiftImmW f rd rs1 sh s = rejectEncoding .reservedWideShift s := by
  rw [opShiftImmW, if_pos ⟨h, (shamt_bit5_iff sh).2 hsh⟩]

end

theorem encodedAs_fieldsShift {i : Instr} {rd rs1 : RegIdx} {sh : BitVec 6} {fn6 fn3 op : Nat} (hwf : i.wf = true)
    (h : encode i = encShift (BitVec.ofNat 6 fn6) sh rs1 (BitVec.ofNat 3 fn3) rd (BitVec.ofNat 7 op))
    (h6 : fn6 < 2 ^ 6 := by decide) (h3 : fn3 < 2 ^ 3 := by decide) (hop : op < 2 ^ 7 := by decide) :
    EncodedAs i (fieldsShift fn6 fn3 op rd rs1 sh) := by
  have hfields := fields_encShift (BitVec.ofNat 6 fn6) sh rs1 (BitVec.ofNat 3 fn3) rd (BitVec.ofNat 7 op)
  rw [BitVec.toNat_ofNat, BitVec.toNat_ofNat, BitVec.toNat_ofNat, Nat.mod_eq_of_lt h6, Nat.mod_eq_of_lt h3,
    Nat.mod_eq_of_lt hop, ← h] at hfields
  exact ⟨hfields, decodeOfEncode i hwf⟩

/-- Settles O46: the literal reading of each shift, bit by bit, by the count the register or the word gives; the words are of
format R and of the immediate shifts' format. -/
theorem wordShiftsSourceLiteral : Obligations.WordShiftsSourceLiteral := by
  unfold Obligations.WordShiftsSourceLiteral
  intro s rd rs1 rs2 sh hsem
  constructor
  · intro k hk
    have hexec := fun f => opRegW_sourceLiteral f rd rs1 rs2 hsem
    refine ⟨⟨?sllw, ?_⟩, ⟨?srlw, ?_⟩, ⟨?sraw, ?_⟩⟩
    case sllw => exact computesBits_of_exec_eq_setX (hexec .sll) fun j hj => wLiteral_sll_bit hk hj
    case srlw => exact computesBits_of_exec_eq_setX (hexec .srl) fun j hj => wLiteral_srl_bit hk hj
    case sraw => exact computesBits_of_exec_eq_setX (hexec .sra) fun j hj => wLiteral_sra_bit hk hj
    all_goals exact encodedAs_fieldsR rfl rfl
  · intro k hk
    have hcount := hk.trans (shiftImm_count sh)
    have hexec := fun f => opShiftImmW_sourceLiteral f rd rs1 sh hsem
    refine ⟨⟨?slliw, ?_⟩, ⟨?srliw, ?_⟩, ⟨?sraiw, ?_⟩⟩
    case slliw => exact computesBits_of_exec_eq_setX (hexec .sll) fun j hj => wLiteral_sll_bit hcount hj
    case srliw => exact computesBits_of_exec_eq_setX (hexec .srl) fun j hj => wLiteral_srl_bit hcount hj
    case sraiw => exact computesBits_of_exec_eq_setX (hexec .sra) fun j hj => wLiteral_sra_bit hcount hj
    all_goals exact encodedAs_fieldsShift rfl rfl

/-- Settles O47: the standard reading of each shift, bit by bit; with a count of 32 or more the immediate shifts are
reserved. -/
theorem wordShiftsStandard : Obligations.WordShiftsStandard := by
  unfold Obligations.WordShiftsStandard
  intro s rd rs1 rs2 sh hsem
  refine ⟨fun k hk => ?register, fun k hk hlt => ?immediate, fun hge => ?reserved⟩
  case register =>
    have hexec := fun f => opRegW_rv64iStandard f rd rs1 rs2 hsem
    refine ⟨?sllw, ?srlw, ?sraw⟩
    case sllw => exact computesBits_of_exec_eq_setX (hexec .sll) fun j hj => wStandard_sll_bit hk hj
    case srlw => exact computesBits_of_exec_eq_setX (hexec .srl) fun j hj => wStandard_srl_bit hk hj
    case sraw => exact computesBits_of_exec_eq_setX (hexec .sra) fun j hj => wStandard_sra_bit hk hj
  case immediate =>
    have hsh : sh.toNat < 32 := hk ▸ hlt
    have hcount := hk.trans (shiftImm_count5 sh hsh)
    have hexec := fun f => opShiftImmW_rv64iStandard f rd rs1 sh hsem hsh
    refine ⟨?slliw, ?srliw, ?sraiw⟩
    case slliw => exact computesBits_of_exec_eq_setX (hexec .sll) fun j hj => wStandard_sll_bit hcount hj
    case srliw => exact computesBits_of_exec_eq_setX (hexec .srl) fun j hj => wStandard_srl_bit hcount hj
    case sraiw => exact computesBits_of_exec_eq_setX (hexec .sra) fun j hj => wStandard_sra_bit hcount hj
  case reserved =>
    have hrejected : ∀ f, RejectedAs (opShiftImmW f rd rs1 sh s) s .reservedWideShift := fun f => by
      rw [opShiftImmW_reserved f rd rs1 sh hsem hge]
      exact rejectEncoding_rejectedAs
    exact ⟨hrejected .sll, hrejected .srl, hrejected .sra⟩

end Sys2Proof.Machine

namespace Sys2Proof.Machine

/-! ### Where the two readings of the `w` shifts agree -/

/-- An instruction that writes a register other than `X0` computes one value. -/
theorem computes_unique {s : State} {i : Instr} {rd : RegIdx} {v w : Word} (hrd : rd ≠ 0#5) (hv : Computes s i rd v)
    (hw : Computes s i rd w) : v = w := by
  obtain ⟨t, ht, hregs, -⟩ := hv
  obtain ⟨u, hu, hregs', -⟩ := hw
  obtain rfl : t = u := by simpa [ht] using hu
  simpa [hrd] using (hregs rd).symm.trans (hregs' rd)

/-- Two states compute a common value exactly when the values they compute are one. -/
theorem exists_computes_both_iff {s t : State} {i : Instr} {rd : RegIdx} {p q : Word} (hrd : rd ≠ 0#5)
    (hp : Computes s i rd p) (hq : Computes t i rd q) : (∃ v, Computes s i rd v ∧ Computes t i rd v) ↔ p = q := by
  constructor
  · rintro ⟨v, hs, ht⟩
    exact (computes_unique hrd hp hs).trans (computes_unique hrd ht hq)
  · rintro rfl
    exact ⟨p, hp, hq⟩

/-- Two words whose bits 63:32 copy bit 31 are equal exactly when their low halves are. -/
theorem eq_iff_low_bits {v w : Word} {f g : Nat → Bool} (hv : ∀ j, j < 64 → v.getLsbD j = f (min j 31))
    (hw : ∀ j, j < 64 → w.getLsbD j = g (min j 31)) : v = w ↔ ∀ m, m < 32 → f m = g m := by
  constructor
  · rintro rfl m hm
    have hmin : min m 31 = m := by omega
    have hbit := (hv m (by omega)).symm.trans (hw m (by omega))
    rwa [hmin] at hbit
  · intro h
    apply BitVec.eq_of_getLsbD_eq
    intro j hj
    rw [hv j hj, hw j hj, h _ (by omega)]

section
variable {a b : Word} {k : Nat} (hk : k = b.toNat % 64)
include hk

/-- A 6-bit count below 32 is the 5-bit count too. -/
theorem count5_of_count_lt (hlt : k < 32) : k = b.toNat % 32 := by omega

theorem wLiteral_sll_eq_wStandard (hlt : k < 32) : wLiteral .sll a b = wStandard .sll a b := by
  apply BitVec.eq_of_getLsbD_eq
  intro j hj
  rw [wLiteral_sll_bit hk hj, wStandard_sll_bit (count5_of_count_lt hk hlt) hj]

theorem wLiteral_sll_eq_zero (hge : 32 ≤ k) : wLiteral .sll a b = 0#64 := by
  apply BitVec.eq_of_getLsbD_eq
  intro j hj
  have hshort : ¬ k ≤ min j 31 := by omega
  simp [wLiteral_sll_bit hk hj, hshort]

/-- The two readings of SRLW differ by the bits above the low word that the literal one shifts in (rule R171). -/
theorem wLiteral_srl_eq_wStandard_iff (hlt : k < 32) :
    wLiteral .srl a b = wStandard .srl a b ↔ ∀ j, 32 ≤ j → j ≤ 31 + k → a.getLsbD j = false := by
  rw [eq_iff_low_bits (f := fun m => decide (m + k < 64) && a.getLsbD (m + k))
    (g := fun m => decide (m + k < 32) && a.getLsbD (m + k)) (fun j hj => wLiteral_srl_bit hk hj)
    (fun j hj => wStandard_srl_bit (count5_of_count_lt hk hlt) hj)]
  constructor
  · intro h j hge hle
    have hbit := h (j - k) (by omega)
    have hj : j - k + k = j := by omega
    have h64 : j < 64 := by omega
    have h32 : ¬ j < 32 := by omega
    simpa [hj, h64, h32] using hbit
  · intro h m hm
    have h64 : m + k < 64 := by omega
    by_cases h32 : m + k < 32
    · simp [h64, h32]
    · have hzero := h (m + k) (by omega) (by omega)
      simp only [hzero, Bool.and_false]

/-- The two readings of SRAW differ by the bits above the low word that the literal one shifts in (rule R172). -/
theorem wLiteral_sra_eq_wStandard_iff (hlt : k < 32) :
    wLiteral .sra a b = wStandard .sra a b ↔ ∀ j, 32 ≤ j → j ≤ 31 + k → a.getLsbD j = a.getLsbD 31 := by
  rw [eq_iff_low_bits (f := fun m => a.getLsbD (min (m + k) 63)) (g := fun m => a.getLsbD (min (m + k) 31))
    (fun j hj => wLiteral_sra_bit hk hj) (fun j hj => wStandard_sra_bit (count5_of_count_lt hk hlt) hj)]
  constructor
  · intro h j hge hle
    have hbit := h (j - k) (by omega)
    have hlit : min (j - k + k) 63 = j := by omega
    have hstd : min (j - k + k) 31 = 31 := by omega
    rwa [hlit, hstd] at hbit
  · intro h m hm
    have hlit : min (m + k) 63 = m + k := by omega
    rw [hlit]
    by_cases h32 : m + k < 32
    · rw [min_eq_left (by omega)]
    · rw [min_eq_right (by omega), h (m + k) (by omega) (by omega)]

end

/-- Settles O48: with `rd` not 0 the two states compute a common value exactly when the two readings of the shift are equal,
and those are compared bit by bit. -/
theorem wordShiftReadingsAgree : Obligations.WordShiftReadingsAgree := by
  unfold Obligations.WordShiftReadingsAgree
  rintro s lit std rd rs1 rs2 k hrd hk hlit hstd
  have hliteral : ∀ {i f}, exec i lit = opRegW f rd rs1 rs2 lit →
      Computes lit i rd (wLiteral f (s.x rs1) (s.x rs2)) := fun h => by
    subst hlit
    exact computes_of_exec_eq_setX (h.trans (opRegW_sourceLiteral _ rd rs1 rs2 rfl))
  have hstandard : ∀ {i f}, exec i std = opRegW f rd rs1 rs2 std →
      Computes std i rd (wStandard f (s.x rs1) (s.x rs2)) := fun h => by
    subst hstd
    exact computes_of_exec_eq_setX (h.trans (opRegW_rv64iStandard _ rd rs1 rs2 rfl))
  refine ⟨fun hlt => ?sllw, fun hge => ?sllwWide, fun hlt => ?srlw, fun hlt => ?sraw⟩
  case sllw =>
    rw [exists_computes_both_iff hrd (hliteral (f := .sll) rfl) (hstandard (f := .sll) rfl)]
    exact wLiteral_sll_eq_wStandard hk hlt
  case sllwWide =>
    rw [← wLiteral_sll_eq_zero (a := s.x rs1) hk hge]
    exact hliteral rfl
  case srlw =>
    rw [exists_computes_both_iff hrd (hliteral (f := .srl) rfl) (hstandard (f := .srl) rfl)]
    exact wLiteral_srl_eq_wStandard_iff hk hlt
  case sraw =>
    rw [exists_computes_both_iff hrd (hliteral (f := .sra) rfl) (hstandard (f := .sra) rfl)]
    exact wLiteral_sra_eq_wStandard_iff hk hlt

end Sys2Proof.Machine

namespace Sys2Proof.Machine

/-! ### The ten unnamed `w` forms -/

section
variable (a b : Word)

/-- The numbers 0 and 1 are their own low words, sign-extended. -/
theorem sextLow32_ite (p : Prop) [Decidable p] :
    sextLow32 (if p then 1#64 else 0#64) = if p then 1#64 else 0#64 := by
  split <;> decide

theorem wLiteral_slt : wLiteral .slt a b = if a.toInt < b.toInt then 1#64 else 0#64 := by
  rw [wLiteral, operation_slt, sextLow32_ite]

theorem wLiteral_sltu : wLiteral .sltu a b = if a.toNat < b.toNat then 1#64 else 0#64 := by
  rw [wLiteral, operation_sltu, sextLow32_ite]

variable {j : Nat} (hj : j < 64)
include hj

theorem wLiteral_xor_bit : (wLiteral .xor a b).getLsbD j = (a.getLsbD (min j 31) != b.getLsbD (min j 31)) := by
  rw [wLiteral_bit _ a b hj, operation_xor_bit]

theorem wLiteral_or_bit : (wLiteral .or a b).getLsbD j = (a.getLsbD (min j 31) || b.getLsbD (min j 31)) := by
  rw [wLiteral_bit _ a b hj, operation_or_bit]

theorem wLiteral_and_bit : (wLiteral .and a b).getLsbD j = (a.getLsbD (min j 31) && b.getLsbD (min j 31)) := by
  rw [wLiteral_bit _ a b hj, operation_and_bit]

end

section
variable {s : State} (f : Fn4) (rd : RegIdx) (a b : Word)

theorem opUnnamedW_sourceLiteral (h : s.cfg.wUnnamed = .sourceLiteral) :
    opUnnamedW f rd a b s = .next (s.setX rd (wLiteral f a b)) := by
  rw [opUnnamedW, h]

theorem opUnnamedW_refuse (h : s.cfg.wUnnamed = .refuse) : opUnnamedW f rd a b s = rejectEncoding .unnamedWForm s := by
  rw [opUnnamedW, h]

end

/-- Settles O49: all ten run as `opUnnamedW` of their `fn4` and operands, under each value of `W_UNNAMED`. -/
theorem unnamedWordForms : Obligations.UnnamedWordForms := by
  unfold Obligations.UnnamedWordForms
  intro s rd rs1 rs2 imm y hy
  obtain rfl : y = sext imm := hy
  constructor
  · intro hset
    have hexec := fun f b => opUnnamedW_sourceLiteral f rd (s.x rs1) b hset
    rw [← toInt_sext imm, ← wLiteral_slt, ← wLiteral_sltu, ← wLiteral_slt, ← wLiteral_sltu]
    refine ⟨?sltW, ?sltuW, ?xorW, ?orW, ?andW, ?sltiW, ?sltiuW, ?xoriW, ?oriW, ?andiW⟩
    case sltW | sltiW => exact computes_of_exec_eq_setX (hexec .slt _)
    case sltuW | sltiuW => exact computes_of_exec_eq_setX (hexec .sltu _)
    case xorW | xoriW => exact computesBits_of_exec_eq_setX (hexec .xor _) fun j hj => wLiteral_xor_bit _ _ hj
    case orW | oriW => exact computesBits_of_exec_eq_setX (hexec .or _) fun j hj => wLiteral_or_bit _ _ hj
    case andW | andiW => exact computesBits_of_exec_eq_setX (hexec .and _) fun j hj => wLiteral_and_bit _ _ hj
  · intro hset
    have hrejected : ∀ f b, RejectedAs (opUnnamedW f rd (s.x rs1) b s) s .unnamedWForm := fun f b => by
      rw [opUnnamedW_refuse f rd (s.x rs1) b hset]
      exact rejectEncoding_rejectedAs
    simp only [List.forall_mem_cons, List.not_mem_nil, false_implies, implies_true, and_true]
    exact ⟨hrejected .slt _, hrejected .sltu _, hrejected .xor _, hrejected .or _, hrejected .and _,
      hrejected .slt _, hrejected .sltu _, hrejected .xor _, hrejected .or _, hrejected .and _⟩

end Sys2Proof.Machine

namespace Sys2Proof.Machine

/-! ### The immediate operations

The second operand of `Operation` is the constant of the word: sign-extended (rule R180), or the count of a shift with zeros
above it (rule R187). -/

theorem operation_add_sext (a : Word) {n : Nat} (imm : BitVec n) :
    operation .add a (sext imm) = BitVec.ofInt 64 (a.toInt + imm.toInt) :=
  add_sext_eq_ofInt a imm

/-- Settles O50: each of the six runs as `opImm` of its `fn4`, whose second operand is the sign-extended immediate, and its
word is of format I. -/
theorem immediateArithmetic : Obligations.ImmediateArithmetic := by
  unfold Obligations.ImmediateArithmetic
  intro s rd rs1 imm y hy
  obtain rfl : y = sext imm := hy
  rw [← operation_add_sext, ← toInt_sext imm, ← operation_slt, ← operation_sltu]
  refine ⟨⟨?addi, ?_⟩, ⟨?slti, ?_⟩, ⟨?sltiu, ?_⟩, ⟨?xori, ?_⟩, ⟨?ori, ?_⟩, ⟨?andi, ?_⟩⟩
  case addi | slti | sltiu => exact computes_of_exec_eq_setX rfl
  case xori => exact computesBits_of_exec_eq_setX rfl fun j _ => operation_xor_bit _ _ j
  case ori => exact computesBits_of_exec_eq_setX rfl fun j _ => operation_or_bit _ _ j
  case andi => exact computesBits_of_exec_eq_setX rfl fun j _ => operation_and_bit _ _ j
  all_goals exact encodedAs_fieldsI rfl rfl

/-- Settles O51: each of the three runs as `opShiftImm` of its `fn4`, whose bits are known by the count of the word, and its
word is of the immediate shifts' format. -/
theorem immediateShifts : Obligations.ImmediateShifts := by
  unfold Obligations.ImmediateShifts
  intro s rd rs1 sh k hk
  have hcount := hk.trans (shiftImm_count sh)
  refine ⟨⟨?slli, ?_⟩, ⟨?srli, ?_⟩, ⟨?srai, ?_⟩⟩
  case slli => exact computesBits_of_exec_eq_setX rfl fun j hj => operation_sll_bit hcount hj
  case srli => exact computesBits_of_exec_eq_setX rfl fun j _ => operation_srl_bit hcount
  case srai => exact computesBits_of_exec_eq_setX rfl fun j hj => operation_sra_bit hcount hj
  all_goals exact encodedAs_fieldsShift rfl rfl

end Sys2Proof.Machine

namespace Sys2Proof.Machine

/-! ### CSR instructions that do not write -/

/-- An `rs1` field of 0 leaves out the write half (rule R215). -/
theorem csrWriteHalf_zero (s : State) (n : CsrIdx) (new : Word) : csrWriteHalf s 0#5 n new = s :=
  if_pos rfl

/-- The read half tells the devices of the read, or nothing (rules R39, R215). -/
theorem csrReadHalf_deviceLog (s : State) (rd : RegIdx) (n : CsrIdx) (old : Word) :
    (csrReadHalf s rd n old).deviceLog = s.deviceLog ∨
      (csrReadHalf s rd n old).deviceLog = s.deviceLog ++ [.csrReadAction n] := by
  unfold csrReadHalf readAction
  split
  · exact .inl rfl
  · split
    · exact .inl (setX_deviceLog ..)
    · exact .inr (by rw [tellDevices_deviceLog, setX_deviceLog])

/-- Settles O25: a CSR instruction traps, or with a zero field does its read half alone, which changes no CSR. -/
theorem zeroFieldNeverWritesACsr : Obligations.ZeroFieldNeverWritesACsr := by
  unfold Obligations.ZeroFieldNeverWritesACsr
  intro s t rd n p hp h
  obtain ⟨op, src, -, hexec⟩ := csrForms_exec s rd 0#5 n p hp
  rcases csrInstr_cases (hexec.symm.trans h) with ⟨-, rfl⟩ | ⟨-, rfl⟩
  · exact .inr (trapEnter_taken s _ false s.ia)
  · obtain ⟨-, hpc, -⟩ := csrReadHalf_frame (afterCsrRead s n) rd n (csrRead s n)
    have hlog := csrReadHalf_deviceLog (afterCsrRead s n) rd n (csrRead s n)
    rw [afterCsrRead_deviceLog] at hlog
    rw [csrWriteHalf_zero]
    exact .inl ⟨csrReadHalf_sameCsrs s rd n _, hpc.trans (afterCsrRead_pc s n), hlog⟩

/-! ### ECALL, EBREAK and MRET -/

theorem exec_ecall (s : State) : exec .ecall s = .next (s.trapEnter 2#63 false s.ia) := rfl

theorem exec_ebreak (s : State) : exec .ebreak s = .next (s.trapEnter 3#63 false s.ia) := rfl

theorem exec_mret (s : State) : exec .mret s = .next s.trapReturn := rfl

theorem raises_of_exec_eq_trapEnter {s : State} {i : Instr} {c : Cause} (h : exec i s = .next (s.trapEnter c false s.ia)) :
    Raises s i c :=
  ⟨_, h, trapEnter_taken s c false s.ia⟩

/-- Settles O58: both are a trap entry and nothing else. -/
theorem ecallAndEbreak : Obligations.EcallAndEbreak := by
  unfold Obligations.EcallAndEbreak
  intro s
  exact ⟨raises_of_exec_eq_trapEnter (exec_ecall s), hasWord_of_encode rfl rfl,
    raises_of_exec_eq_trapEnter (exec_ebreak s), hasWord_of_encode rfl rfl⟩

/-- Settles O59: MRET is the return from a trap, which is known field by field. -/
theorem mretReturns : Obligations.MretReturns := by
  unfold Obligations.MretReturns
  intro s
  refine ⟨hasWord_of_encode rfl rfl, s.trapReturn, exec_mret s, ?_⟩
  simp [SameMcause, SameOtherCsrs, SameRegs, SameEnvironment, SameMemory]

/-- Settles O60: the return undoes the entry's change to `mie` through `mpie` and goes to the `mepc` the entry wrote. -/
theorem trapThenReturn : Obligations.TrapThenReturn := by
  unfold Obligations.TrapThenReturn
  rintro s t c irq epc pc ia ⟨hmpie, -, hmepc, hcause, hirq, -⟩
  refine ⟨_, exec_mret _, ?_⟩
  simp [hmpie, hmepc, hcause, hirq]

/-! ### Which interrupt is taken -/

theorem Interrupting.lt {s : State} {j : Nat} (h : Interrupting s j) : j < 64 :=
  BitVec.lt_of_getLsbD h.1

/-- With interrupts enabled and a source pending and enabled, the step is the interrupt's entry: the fetch comes after the
check (rules R250, R253). -/
theorem step_of_interrupting {s : State} {j : Nat} (hmie : s.sampleMip.mstatusMie = true)
    (hj : Interrupting s.sampleMip j) : step s = .next s.sampleMip.takeInterrupt := by
  have htaken : interruptTaken s.sampleMip = true := (interruptTaken_iff _).2 ⟨hmie, j, hj.lt, hj⟩
  rw [step, cycle, if_pos htaken]

theorem mem_bitsBelow {n j : Nat} : j ∈ bitsBelow n ↔ j < n := by
  induction n with
  | zero => simp [bitsBelow]
  | succ n ih => rw [bitsBelow, List.mem_cons, ih]; omega

/-- The bits below `m` list those above `n`, then `n`, then those below it. -/
theorem bitsBelow_split {m n : Nat} (h : n < m) : ∃ p, bitsBelow m = p ++ n :: bitsBelow n ∧ ∀ k ∈ p, n < k ∧ k < m := by
  induction m with
  | zero => omega
  | succ m ih =>
    rcases Nat.lt_succ_iff_lt_or_eq.1 h with hlt | rfl
    · obtain ⟨p, hsplit, habove⟩ := ih hlt
      refine ⟨m :: p, by rw [bitsBelow, hsplit, List.cons_append], ?_⟩
      rw [List.forall_mem_cons]
      exact ⟨⟨hlt, m.lt_succ_self⟩, fun k hk => ⟨(habove k hk).1, Nat.lt_succ_of_lt (habove k hk).2⟩⟩
    · exact ⟨[], rfl, by simp⟩

theorem mem_irqOrder {c : Config} {j : Nat} (hj : j < 64) : j ∈ irqOrder c :=
  List.mem_append_right _ (mem_bitsBelow.2 hj)

/-- The source taken is pending and enabled, where one is (rule R252). -/
theorem interruptNumber_interrupting {s : State} {j : Nat} (hj : Interrupting s j) :
    Interrupting s (interruptNumber s) := by
  have hsome : ((irqOrder s.cfg).find? fun i => (pendingEnabled s).getLsbD i).isSome :=
    List.find?_isSome.2 ⟨j, mem_irqOrder hj.lt, (pendingEnabled_bit s j).2 hj⟩
  obtain ⟨n, hfind⟩ := Option.isSome_iff_exists.1 hsome
  rw [interruptNumber, hfind]
  exact (pendingEnabled_bit s n).1 (List.find?_some hfind)

/-- The source taken is the first of the order that is pending and enabled (rule R252). -/
theorem interruptNumber_eq_first {s : State} {p q : List Nat} {n : Nat} (horder : irqOrder s.cfg = p ++ n :: q)
    (hn : Interrupting s n) (hp : ∀ k ∈ p, ¬Interrupting s k) : interruptNumber s = n := by
  have hnone : p.find? (fun i => (pendingEnabled s).getLsbD i) = none :=
    List.find?_eq_none.2 fun k hk hbit => hp k hk ((pendingEnabled_bit s k).1 hbit)
  rw [interruptNumber, horder, List.find?_append, hnone, List.find?_cons_of_pos ((pendingEnabled_bit s n).2 hn)]
  rfl

/-- A source of `IRQ_PRIORITY` is taken where none listed before it is pending and enabled (rule R252). -/
theorem interruptNumber_of_listed {s : State} {p q : List (Fin 64)} {i : Fin 64} (hlist : s.cfg.irqPriority = p ++ i :: q)
    (hi : Interrupting s i.val) (hp : ∀ k ∈ p, ¬Interrupting s k.val) : interruptNumber s = i.val := by
  refine interruptNumber_eq_first (p := p.map (·.val)) (q := q.map (·.val) ++ bitsBelow 64) ?_ hi ?_
  · simp [irqOrder, hlist]
  · simpa using hp

/-- Where none of `IRQ_PRIORITY` is pending and enabled, the highest source that is gets taken (rule R252). -/
theorem interruptNumber_of_highest {s : State} {n : Nat} (hn : Interrupting s n)
    (hlist : ∀ k ∈ s.cfg.irqPriority, ¬Interrupting s k.val) (habove : ∀ j, n < j → j < 64 → ¬Interrupting s j) :
    interruptNumber s = n := by
  obtain ⟨p, hsplit, hp⟩ := bitsBelow_split hn.lt
  refine interruptNumber_eq_first (p := s.cfg.irqPriority.map (·.val) ++ p) (q := bitsBelow n) ?_ hn fun k hk => ?_
  · rw [irqOrder, hsplit, List.append_assoc]
  · rcases List.mem_append.1 hk with hk | hk
    · obtain ⟨i, hi, rfl⟩ := List.mem_map.1 hk
      exact hlist i hi
    · exact habove k (hp k hk).1 (hp k hk).2

/-- Settles O7: the step is the interrupt's entry, with the number of a source that interrupts. -/
theorem interruptTakenFirst : Obligations.InterruptTakenFirst := by
  unfold Obligations.InterruptTakenFirst
  rintro s hmie ⟨j, -, hj⟩
  have hnum := interruptNumber_interrupting hj
  refine ⟨s.sampleMip.takeInterrupt, interruptNumber s.sampleMip, step_of_interrupting hmie hj, hnum.lt, hnum, ?_⟩
  rw [takeInterrupt_eq, sampleMip_pc]
  exact trapEnter_taken s.sampleMip _ true s.pc

/-- Where source `n` is the one taken, `mcause` names it as an interrupt (rule R251). -/
theorem mcause_of_interruptNumber {s t : State} {n : Nat} (hmie : s.sampleMip.mstatusMie = true) (h : step s = .next t)
    (hn : Interrupting s.sampleMip n) (hnum : interruptNumber s.sampleMip = n) :
    t.mcauseCause = BitVec.ofNat 63 n ∧ t.mcauseIrq = true := by
  rw [step_of_interrupting hmie hn] at h
  cases h
  exact ⟨by rw [takeInterrupt_eq, hnum, trapEnter_mcauseCause], rfl⟩

/-- Settles O8: the first of the order is a listed source, or the highest where no listed one interrupts. -/
theorem interruptPriority : Obligations.InterruptPriority := by
  unfold Obligations.InterruptPriority
  intro s t hmie h
  rw [← sampleMip_cfg s]
  exact ⟨fun p i q hlist hi hp => mcause_of_interruptNumber hmie h hi (interruptNumber_of_listed hlist hi hp),
    fun n _ hn hlist habove => mcause_of_interruptNumber hmie h hn (interruptNumber_of_highest hn hlist habove)⟩

/-! ### Words of the spec -/

/-- Settles O17: each of the words is `encode` of its instruction, which is well formed. -/
theorem writtenOutWords : Obligations.WrittenOutWords := by
  unfold Obligations.WrittenOutWords
  refine ⟨?_, ?_, ?_, ?_, ?_, ?_, ?_, ?_, ?_, ?_, ?_, ?_, ?_, ?_, ?_, ?_, ?_⟩ <;> exact hasWord_of_encode rfl rfl

end Sys2Proof.Machine
